-- ==== Sys2Proof/Word.lean ====
section
/-!
DEFINITION. The number types of the capture block (00_scope.md R11): unsigned values of a fixed width.
-/

namespace Sys2Proof

/-- A received byte, any value 0x00 to 0xFF (R101). -/
abbrev Byte := BitVec 8

/-- A timestamp: an unsigned count of microseconds, TSW = 64 bits (R9, R101, D7). -/
abbrev Timestamp := BitVec 64

/-- The drop counter's width, DROPW = 32 bits (R9, R42, D18). -/
abbrev DropCount := BitVec 32

/-- The 16-bit key word through which the operation table is matched (R110). -/
abbrev Key := BitVec 16

/-- A pseudo network address (R201). Its family and width are open (D23), so only its identity matters. -/
abbrev Address := Nat

end Sys2Proof
end

