-- ==== Sys2Proof/Config.lean ====
section
/-!
DEFINITION. The parameters of the block (00_scope.md R9), its literal constants (R10), and the one free value of the model:
the order in which simultaneous events are taken (R7).
-/

namespace Sys2Proof

/-- The two documented values of the negative-acknowledge byte (R9, D6). Neither is a default. -/
inductive NakByte where
  /-- `NAK = 0x15` -/
  | x15
  /-- `NAK = 0x21` -/
  | x21
  deriving DecidableEq, Repr

/-- The byte value a `NAK` configuration denotes (R9). -/
def NakByte.byte : NakByte → Byte
  | .x15 => 0x15
  | .x21 => 0x21

/-- The ranges of 00_scope.md R9: `N >= 1`, `QCAP >= 1`, `1 <= T_IB < 2^TSW`, `ADDR_LOOP != ADDR_PEER`. -/
def Config.inRange (n qcap : Nat) (tIb : Timestamp) (addrLoop addrPeer : Address) : Bool :=
  decide (1 ≤ n) && decide (1 ≤ qcap) && decide (tIb ≠ 0) && decide (addrLoop ≠ addrPeer)

/-- The OPEN parameters of the block (R9), constant for a run. A value outside the ranges of R9 cannot be built (U12). -/
structure Config where
  /-- `N`, the payload capacity of a Frame in bytes -/
  n : Nat
  /-- `QCAP`, the number of slots of the Output Queue -/
  qcap : Nat
  /-- `T_IB`, the inter-byte timeout in timestamp units -/
  tIb : Timestamp
  /-- `NAK`, the negative-acknowledge control byte -/
  nak : NakByte
  /-- `ADDR_LOOP`, the loopback pseudo address -/
  addrLoop : Address
  /-- `ADDR_PEER`, the distinct pseudo address -/
  addrPeer : Address
  /-- the ranges of R9 hold -/
  legal : Config.inRange n qcap tIb addrLoop addrPeer = true
  deriving DecidableEq, Repr

/-- The same run parameters with another `NAK`: both documented values are in range. -/
def Config.withNak (cfg : Config) (nak : NakByte) : Config := { cfg with nak := nak }

/-- `ACK`, the acknowledge control byte (R9, R10). -/
def Config.ack : Byte := 0x06

/-- `TERM`, the terminator byte (R9, R10). -/
def Config.term : Byte := 0x03

/-- `CMD_WRITE`, the Master command byte that denotes a write (R9, R10). -/
def Config.cmdWrite : Byte := 0x02

/-- `ADDR_LEN`, the bytes in the Master address phase (R9). -/
def Config.addrLen : Nat := 4

/-- `CMD_LEN`, the bytes in the Master command phase (R9). -/
def Config.cmdLen : Nat := 1

/-- `PARAM_LEN`, the bytes in a parameter phase of either role (R9). -/
def Config.paramLen : Nat := 4

/-- `CKSUM_LEN`, the checksum bytes after the terminator (R9). -/
def Config.cksumLen : Nat := 1

/-- `PORT`, the fixed port of a Capture Record (R9, R202). -/
def Config.port : Nat := 422

/-- `LW = ceil(log2(N+1))`, the width of a payload length (R34, R106). -/
def Config.lenWidth (cfg : Config) : Nat := Nat.log2 cfg.n + 1

/-- The parameters of `State.reset`: `N = 64` is the spec's default (R9, D3).
DESIGN CHOICE (log entry 2): the others are OPEN. `QCAP`, `T_IB` and `NAK` are those of the conventions of 95_test_vectors.md,
the two addresses are two distinct numbers. Every statement quantifies over `Config`; none rests on these values. -/
def Config.standard : Config :=
  { n := 64, qcap := 4, tIb := 1000, nak := .x15, addrLoop := 0, addrPeer := 1, legal := by decide }

/-- FREE VALUE (log entry 6): which of several events presented together is taken next (R7, R246: "a model leaves the order
open"). No body: nothing can be proved of a value of it. It is applied to the counter `State.choice`. -/
opaque Config.order : Nat → Nat

end Sys2Proof
end

