-- ==== Sys2Proof/Syntax.lean ====
section
/-!
DEFINITION. What crosses the block's boundary and what it stores: roles, phases, reasons, entries (10_state.md R32,
30_encoding.md R101 to R106), the events an agent presents (R6, R100), and `Instr`, one constructor per row of
spec/opcode_table.json (R116).
-/

namespace Sys2Proof

/-- A channel's role (R104): Master or Node. -/
inductive Role where
  | m
  | nd
  deriving DecidableEq, Repr

/-- The phase register's values (R32). Code 7 is never held (R115, U6) and has no constructor. -/
inductive Phase where
  | idle
  | addr
  | cmd
  | paramV
  | paramQ
  | value
  | cksum
  deriving DecidableEq, Repr

/-- Completion reasons (R103). -/
inductive Reason where
  | terminator
  | controlByte
  | lengthExceeded
  | interByteTimeout
  deriving DecidableEq, Repr

/-- A Frame: one completed message (R102). It lives inside one event only (R46). -/
structure Frame where
  role : Role
  payload : List Byte
  startTimestamp : Timestamp
  reason : Reason
  deriving DecidableEq, Repr

/-- An entry: what a slot holds and a POP returns (R106). `data` holds exactly the bytes below `len`; the bytes R106 calls
unspecified do not exist here (U8). -/
structure Entry where
  role : Role
  reason : Reason
  ts : Timestamp
  data : List Byte
  deriving DecidableEq, Repr

/-- The entry's `len` field (R106, R204): the payload length. -/
def Entry.len (e : Entry) : Nat := e.data.length

/-- The fields a producer writes one by one into a reserved slot (R106, R214). -/
inductive Field where
  | data (i : Nat)
  | len
  | ts
  | reason
  | role
  deriving DecidableEq, Repr

/-- The agents of R6, and the block itself, which alone issues PUSH (R100, R115 b). -/
inductive Agent where
  | masterProducer
  | nodeProducer
  | timer
  | consumer
  | diagnosticReader
  | resetSource
  | block
  deriving DecidableEq, Repr

/-- The events of R100 with their operands. Operation code 7 has no constructor (U6). -/
inductive Event where
  | reset
  | byte (c : Role) (b : Byte) (ts : Timestamp)
  | tick (c : Role) (now : Timestamp)
  | pop
  | rddrop
  | rdlen
  | push (e : Entry)
  deriving DecidableEq, Repr

/-- An event and the agent that presents it (R6, R100 column "issued by"). -/
structure Request where
  issuer : Agent
  event : Event
  deriving DecidableEq, Repr

/-- What an operation returns to the agent that issued it: `emit(x)` (R12, R100). -/
inductive Result where
  /-- POP on a non-empty queue (R207) -/
  | entry (e : Entry)
  /-- POP on an empty queue (R208) -/
  | none
  /-- RDDROP (R209) -/
  | dropCount (d : DropCount)
  /-- RDLEN (R210) -/
  | length (n : Nat)
  deriving DecidableEq, Repr

/-- What a row of the transition table says of the next phase (R141 step 4). -/
inductive RowOutcome where
  | next (ph : Phase) (cnt : BitVec 2)
  | done (reason : Reason)
  deriving DecidableEq, Repr

/-- One constructor per row of spec/opcode_table.json, in its order (R116). A row whose match fixes the byte carries no byte. -/
inductive Instr where
  /-- RESET (R280) -/
  | reset
  /-- BYTE.M.IDLE (R147) -/
  | byteMIdle (b : Byte) (ts : Timestamp)
  /-- BYTE.M.ADDR (R148) -/
  | byteMAddr (b : Byte) (ts : Timestamp)
  /-- BYTE.M.ADDR.L (R149) -/
  | byteMAddrL (b : Byte) (ts : Timestamp)
  /-- BYTE.M.CMD.WR (R150): the byte is CMD_WRITE -/
  | byteMCmdWr (ts : Timestamp)
  /-- BYTE.M.CMD.QRY (R151): the byte is not CMD_WRITE -/
  | byteMCmdQry (b : Byte) (ts : Timestamp)
  /-- BYTE.M.PARV (R152) -/
  | byteMParv (b : Byte) (ts : Timestamp)
  /-- BYTE.M.PARV.L (R153) -/
  | byteMParvL (b : Byte) (ts : Timestamp)
  /-- BYTE.M.PARQ (R154) -/
  | byteMParq (b : Byte) (ts : Timestamp)
  /-- BYTE.M.PARQ.L (R155) -/
  | byteMParqL (b : Byte) (ts : Timestamp)
  /-- BYTE.M.VAL.TERM (R156): the byte is TERM -/
  | byteMValTerm (ts : Timestamp)
  /-- BYTE.M.VAL (R157): the byte is not TERM -/
  | byteMVal (b : Byte) (ts : Timestamp)
  /-- BYTE.M.CKSUM (R158) -/
  | byteMCksum (b : Byte) (ts : Timestamp)
  /-- BYTE.Nd.IDLE.ACK (R159): the byte is ACK -/
  | byteNdIdleAck (ts : Timestamp)
  /-- BYTE.Nd.IDLE.NAK.15 (R160): the byte is 0x15, enabled when NAK = 0x15 -/
  | byteNdIdleNak15 (ts : Timestamp)
  /-- BYTE.Nd.IDLE.NAK.21 (R160): the byte is 0x21, enabled when NAK = 0x21 -/
  | byteNdIdleNak21 (ts : Timestamp)
  /-- BYTE.Nd.IDLE (R161): the byte is neither ACK nor the configured NAK -/
  | byteNdIdle (b : Byte) (ts : Timestamp)
  /-- BYTE.Nd.PARV (R162) -/
  | byteNdParv (b : Byte) (ts : Timestamp)
  /-- BYTE.Nd.PARV.L (R163) -/
  | byteNdParvL (b : Byte) (ts : Timestamp)
  /-- BYTE.Nd.VAL.TERM (R164): the byte is TERM -/
  | byteNdValTerm (ts : Timestamp)
  /-- BYTE.Nd.VAL (R165): the byte is not TERM -/
  | byteNdVal (b : Byte) (ts : Timestamp)
  /-- BYTE.Nd.CKSUM (R166) -/
  | byteNdCksum (b : Byte) (ts : Timestamp)
  /-- TICK.M (R167) -/
  | tickM (now : Timestamp)
  /-- TICK.Nd (R168) -/
  | tickNd (now : Timestamp)
  /-- POP (R207, R208) -/
  | pop
  /-- RDDROP (R209) -/
  | rddrop
  /-- RDLEN (R210) -/
  | rdlen
  /-- PUSH (R205, R206), internal -/
  | push (e : Entry)
  deriving DecidableEq, Repr

/-- The 28 rows of spec/opcode_table.json by name (R116): what the table's key word selects before operands are attached. -/
inductive RowName where
  | reset
  | byteMIdle
  | byteMAddr
  | byteMAddrL
  | byteMCmdWr
  | byteMCmdQry
  | byteMParv
  | byteMParvL
  | byteMParq
  | byteMParqL
  | byteMValTerm
  | byteMVal
  | byteMCksum
  | byteNdIdleAck
  | byteNdIdleNak15
  | byteNdIdleNak21
  | byteNdIdle
  | byteNdParv
  | byteNdParvL
  | byteNdValTerm
  | byteNdVal
  | byteNdCksum
  | tickM
  | tickNd
  | pop
  | rddrop
  | rdlen
  | push
  deriving DecidableEq, Repr

/-- The operand of an event that is not in its key word (R110: "The `ts` and `now` operands are not part of the key"). -/
inductive Operand where
  | none
  | time (t : Timestamp)
  | entry (e : Entry)
  deriving DecidableEq, Repr

/-- An encoded event: its key word (R110) and the operand beside it. -/
structure Code where
  key : Key
  operand : Operand
  deriving DecidableEq, Repr

/-- Why a code names no instruction. -/
inductive DecodeError where
  /-- operation code 7 (R115 a) -/
  | reservedOperation
  /-- a BYTE key no row matches: `ph = 7`, a Node in ADDR, CMD or PARAM_Q, `last = 1` without a counter (R115 c) -/
  | reservedKey
  /-- the operand is not of the kind the row takes (R100) -/
  | operandKind
  deriving DecidableEq, Repr

end Sys2Proof
end

