-- ==== Sys2Proof/WellFormed.lean ====
section
/-!
DEFINITION. Which instructions, entries and requests are well formed: the operand ranges of spec/opcode_table.json and the
precedence of its overlapping rows (30_encoding.md R102, R106, R114, R115), and who may issue what (00_scope.md R6, R100).
-/

namespace Sys2Proof

/-- An entry's payload length is in `1 .. N` (R102, R106, R204). -/
def Entry.wellFormed (cfg : Config) (e : Entry) : Bool :=
  decide (1 ≤ e.len) && decide (e.len ≤ cfg.n)

/-- A well-formed instruction is one the table can select under the configuration: a row that loses to a more specific one does
not carry that row's byte (R114), a NAK row is the enabled one, and PUSH carries an entry of R106. -/
def Instr.wellFormed (cfg : Config) : Instr → Bool
  | .reset => true
  | .byteMIdle _ _ => true
  | .byteMAddr _ _ => true
  | .byteMAddrL _ _ => true
  | .byteMCmdWr _ => true
  | .byteMCmdQry b _ => b != Config.cmdWrite
  | .byteMParv _ _ => true
  | .byteMParvL _ _ => true
  | .byteMParq _ _ => true
  | .byteMParqL _ _ => true
  | .byteMValTerm _ => true
  | .byteMVal b _ => b != Config.term
  | .byteMCksum _ _ => true
  | .byteNdIdleAck _ => true
  | .byteNdIdleNak15 _ => cfg.nak == .x15
  | .byteNdIdleNak21 _ => cfg.nak == .x21
  | .byteNdIdle b _ => b != Config.ack && b != cfg.nak.byte
  | .byteNdParv _ _ => true
  | .byteNdParvL _ _ => true
  | .byteNdValTerm _ => true
  | .byteNdVal b _ => b != Config.term
  | .byteNdCksum _ _ => true
  | .tickM _ => true
  | .tickNd _ => true
  | .pop => true
  | .rddrop => true
  | .rdlen => true
  | .push e => e.wellFormed cfg

/-- Which agent may present which event (R6, R100): a producer its own channel's bytes, the timer the ticks, the consumer POP
(R219, R290), the reset source RESET, the block itself PUSH (R115 b). RDDROP and RDLEN may be issued by any agent (R45, R209). -/
def Agent.mayIssue : Agent → Event → Bool
  | a, .reset => a == .resetSource
  | a, .byte .m _ _ => a == .masterProducer
  | a, .byte .nd _ _ => a == .nodeProducer
  | a, .tick _ _ => a == .timer
  | a, .pop => a == .consumer
  | _, .rddrop => true
  | _, .rdlen => true
  | a, .push _ => a == .block

/-- The two execution contexts (60_exceptions.md R249). -/
inductive Context where
  | interrupt
  | cooperative
  deriving DecidableEq, Repr

/-- The context an agent's events run in (R249). RESET and TICK belong to neither. -/
def Agent.context : Agent → Option Context
  | .masterProducer => some .interrupt
  | .nodeProducer => some .interrupt
  | .block => some .interrupt
  | .consumer => some .cooperative
  | .diagnosticReader => some .cooperative
  | .timer => none
  | .resetSource => none

/-- An event whose operand is in range: PUSH carries an entry of R106. -/
def Event.wellFormed (cfg : Config) : Event → Bool
  | .push e => e.wellFormed cfg
  | .reset => true
  | .byte _ _ _ => true
  | .tick _ _ => true
  | .pop => true
  | .rddrop => true
  | .rdlen => true

/-- A request an agent of R6 can present: the agent may issue the event, and its operand is in range. -/
def Request.wellFormed (cfg : Config) (r : Request) : Bool :=
  r.issuer.mayIssue r.event && r.event.wellFormed cfg

end Sys2Proof
end

