-- ==== Sys2Proof/Decode.lean ====
section
/-!
DEFINITION. The key word, the operation table and the decoder (30_encoding.md R110 to R116), the encoder written from the same
table, and the packed slot word of an entry (R106).
-/

namespace Sys2Proof

/-- Phase codes (R32, R111). -/
def Phase.code : Phase → BitVec 3
  | .idle => 0
  | .addr => 1
  | .cmd => 2
  | .paramV => 3
  | .paramQ => 4
  | .value => 5
  | .cksum => 6

/-- Role codes (R104). -/
def Role.code : Role → BitVec 1
  | .m => 0
  | .nd => 1

/-- Completion reason codes (R103). -/
def Reason.code : Reason → BitVec 2
  | .terminator => 0
  | .controlByte => 1
  | .lengthExceeded => 2
  | .interByteTimeout => 3

/-- The key word `op ‖ role ‖ last ‖ ph ‖ byte` (R110). -/
def keyWord (op : BitVec 3) (role : BitVec 1) (last : Bool) (ph : BitVec 3) (b : Byte) : Key :=
  op ++ role ++ BitVec.ofBool last ++ ph ++ b

/-- Field `op`, bits 15 to 13 (R110, R112). -/
def keyOp (k : Key) : BitVec 3 := k.extractLsb' 13 3

/-- Field `byte`, bits 7 to 0 (R110). -/
def keyByte (k : Key) : Byte := k.extractLsb' 0 8

/-- A row's `match` and `mask` (R116). -/
def RowName.pattern : RowName → Key × Key
  | .reset => (0x0000, 0xE000)
  | .byteMIdle => (0x2000, 0xFF00)
  | .byteMAddr => (0x2100, 0xFF00)
  | .byteMAddrL => (0x2900, 0xFF00)
  | .byteMCmdWr => (0x2202, 0xFFFF)
  | .byteMCmdQry => (0x2200, 0xFF00)
  | .byteMParv => (0x2300, 0xFF00)
  | .byteMParvL => (0x2B00, 0xFF00)
  | .byteMParq => (0x2400, 0xFF00)
  | .byteMParqL => (0x2C00, 0xFF00)
  | .byteMValTerm => (0x2503, 0xFFFF)
  | .byteMVal => (0x2500, 0xFF00)
  | .byteMCksum => (0x2600, 0xFF00)
  | .byteNdIdleAck => (0x3006, 0xFFFF)
  | .byteNdIdleNak15 => (0x3015, 0xFFFF)
  | .byteNdIdleNak21 => (0x3021, 0xFFFF)
  | .byteNdIdle => (0x3000, 0xFF00)
  | .byteNdParv => (0x3300, 0xFF00)
  | .byteNdParvL => (0x3B00, 0xFF00)
  | .byteNdValTerm => (0x3503, 0xFFFF)
  | .byteNdVal => (0x3500, 0xFF00)
  | .byteNdCksum => (0x3600, 0xFF00)
  | .tickM => (0x4000, 0xF000)
  | .tickNd => (0x5000, 0xF000)
  | .pop => (0x6000, 0xE000)
  | .rddrop => (0x8000, 0xE000)
  | .rdlen => (0xA000, 0xE000)
  | .push => (0xC000, 0xE000)

/-- The table's `enabled_when`: of the two NAK rows exactly the one whose byte is the configured `NAK` is enabled (R114). -/
def RowName.enabled (nak : NakByte) (r : RowName) : Bool :=
  match r with
  | .byteNdIdleNak15 => nak == .x15
  | .byteNdIdleNak21 => nak == .x21
  | _ => true

/-- The rows of spec/opcode_table.json in its order. -/
def opcodeTable : List RowName :=
  [.reset, .byteMIdle, .byteMAddr, .byteMAddrL, .byteMCmdWr, .byteMCmdQry, .byteMParv, .byteMParvL, .byteMParq, .byteMParqL,
    .byteMValTerm, .byteMVal, .byteMCksum] ++
  [.byteNdIdleAck, .byteNdIdleNak15, .byteNdIdleNak21, .byteNdIdle, .byteNdParv, .byteNdParvL, .byteNdValTerm, .byteNdVal,
    .byteNdCksum] ++
  [.tickM, .tickNd, .pop, .rddrop, .rdlen, .push]

/-- A key selects a row when `(k and mask) = match` and the row is enabled (R114). -/
def RowName.selectedBy (nak : NakByte) (k : Key) (r : RowName) : Bool :=
  k &&& r.pattern.2 == r.pattern.1 && r.enabled nak

/-- How many bits a row's mask sets. -/
def RowName.maskBits (r : RowName) : Nat :=
  (List.range 16).countP (fun i => r.pattern.2.getLsbD i)

/-- The row a key selects: of the rows that match, the one with more bits set in its mask wins (R114). -/
def selectRow (nak : NakByte) (k : Key) : Option RowName :=
  opcodeTable.foldl
    (fun best r =>
      if r.selectedBy nak k then
        match best with
        | none => some r
        | some r0 => if r0.maskBits < r.maskBits then some r else some r0
      else best)
    none

/-- A row with its operands attached (R100). A row whose match fixes the byte takes none from the key. -/
def RowName.instr (r : RowName) (b : Byte) (operand : Operand) : Option Instr :=
  match r, operand with
  | .reset, .none => some .reset
  | .byteMIdle, .time t => some (.byteMIdle b t)
  | .byteMAddr, .time t => some (.byteMAddr b t)
  | .byteMAddrL, .time t => some (.byteMAddrL b t)
  | .byteMCmdWr, .time t => some (.byteMCmdWr t)
  | .byteMCmdQry, .time t => some (.byteMCmdQry b t)
  | .byteMParv, .time t => some (.byteMParv b t)
  | .byteMParvL, .time t => some (.byteMParvL b t)
  | .byteMParq, .time t => some (.byteMParq b t)
  | .byteMParqL, .time t => some (.byteMParqL b t)
  | .byteMValTerm, .time t => some (.byteMValTerm t)
  | .byteMVal, .time t => some (.byteMVal b t)
  | .byteMCksum, .time t => some (.byteMCksum b t)
  | .byteNdIdleAck, .time t => some (.byteNdIdleAck t)
  | .byteNdIdleNak15, .time t => some (.byteNdIdleNak15 t)
  | .byteNdIdleNak21, .time t => some (.byteNdIdleNak21 t)
  | .byteNdIdle, .time t => some (.byteNdIdle b t)
  | .byteNdParv, .time t => some (.byteNdParv b t)
  | .byteNdParvL, .time t => some (.byteNdParvL b t)
  | .byteNdValTerm, .time t => some (.byteNdValTerm t)
  | .byteNdVal, .time t => some (.byteNdVal b t)
  | .byteNdCksum, .time t => some (.byteNdCksum b t)
  | .tickM, .time t => some (.tickM t)
  | .tickNd, .time t => some (.tickNd t)
  | .pop, .none => some .pop
  | .rddrop, .none => some .rddrop
  | .rdlen, .none => some .rdlen
  | .push, .entry e => some (.push e)
  | _, _ => none

/-- The decoder: total on every code, rejecting by name (R114, R115). -/
def decode (nak : NakByte) (code : Code) : Except DecodeError Instr :=
  if keyOp code.key = 7 then .error .reservedOperation
  else
    match selectRow nak code.key with
    | none => .error .reservedKey
    | some r =>
      match r.instr (keyByte code.key) code.operand with
      | none => .error .operandKind
      | some i => .ok i

/-- The row an instruction stands in (R116). -/
def Instr.row : Instr → RowName
  | .reset => .reset
  | .byteMIdle _ _ => .byteMIdle
  | .byteMAddr _ _ => .byteMAddr
  | .byteMAddrL _ _ => .byteMAddrL
  | .byteMCmdWr _ => .byteMCmdWr
  | .byteMCmdQry _ _ => .byteMCmdQry
  | .byteMParv _ _ => .byteMParv
  | .byteMParvL _ _ => .byteMParvL
  | .byteMParq _ _ => .byteMParq
  | .byteMParqL _ _ => .byteMParqL
  | .byteMValTerm _ => .byteMValTerm
  | .byteMVal _ _ => .byteMVal
  | .byteMCksum _ _ => .byteMCksum
  | .byteNdIdleAck _ => .byteNdIdleAck
  | .byteNdIdleNak15 _ => .byteNdIdleNak15
  | .byteNdIdleNak21 _ => .byteNdIdleNak21
  | .byteNdIdle _ _ => .byteNdIdle
  | .byteNdParv _ _ => .byteNdParv
  | .byteNdParvL _ _ => .byteNdParvL
  | .byteNdValTerm _ => .byteNdValTerm
  | .byteNdVal _ _ => .byteNdVal
  | .byteNdCksum _ _ => .byteNdCksum
  | .tickM _ => .tickM
  | .tickNd _ => .tickNd
  | .pop => .pop
  | .rddrop => .rddrop
  | .rdlen => .rdlen
  | .push _ => .push

/-- A BYTE event's code: operation code 1 (R112). -/
def byteCode (c : Role) (last : Bool) (ph : Phase) (b : Byte) (ts : Timestamp) : Code :=
  { key := keyWord 1 c.code last ph.code b, operand := .time ts }

/-- An operation's code where the key holds nothing but `op` and, for TICK, `role` (R110 formats KR and KO; ignored bits 0). -/
def plainCode (op : BitVec 3) (role : BitVec 1) (operand : Operand) : Code :=
  { key := keyWord op role false 0 0, operand := operand }

/-- The encoder, from the same table (R110 to R113). A bit the row ignores is encoded as 0. -/
def encode : Instr → Code
  | .reset => plainCode 0 0 .none
  | .byteMIdle b t => byteCode .m false .idle b t
  | .byteMAddr b t => byteCode .m false .addr b t
  | .byteMAddrL b t => byteCode .m true .addr b t
  | .byteMCmdWr t => byteCode .m false .cmd Config.cmdWrite t
  | .byteMCmdQry b t => byteCode .m false .cmd b t
  | .byteMParv b t => byteCode .m false .paramV b t
  | .byteMParvL b t => byteCode .m true .paramV b t
  | .byteMParq b t => byteCode .m false .paramQ b t
  | .byteMParqL b t => byteCode .m true .paramQ b t
  | .byteMValTerm t => byteCode .m false .value Config.term t
  | .byteMVal b t => byteCode .m false .value b t
  | .byteMCksum b t => byteCode .m false .cksum b t
  | .byteNdIdleAck t => byteCode .nd false .idle Config.ack t
  | .byteNdIdleNak15 t => byteCode .nd false .idle NakByte.x15.byte t
  | .byteNdIdleNak21 t => byteCode .nd false .idle NakByte.x21.byte t
  | .byteNdIdle b t => byteCode .nd false .idle b t
  | .byteNdParv b t => byteCode .nd false .paramV b t
  | .byteNdParvL b t => byteCode .nd true .paramV b t
  | .byteNdValTerm t => byteCode .nd false .value Config.term t
  | .byteNdVal b t => byteCode .nd false .value b t
  | .byteNdCksum b t => byteCode .nd false .cksum b t
  | .tickM t => plainCode 2 0 (.time t)
  | .tickNd t => plainCode 2 1 (.time t)
  | .pop => plainCode 3 0 .none
  | .rddrop => plainCode 4 0 .none
  | .rdlen => plainCode 5 0 .none
  | .push e => plainCode 6 0 (.entry e)

/-- The first `k` bytes of `f` as one number, byte 0 in the least significant place. -/
def packBytes : Nat → (Nat → Byte) → Nat
  | 0, _ => 0
  | k + 1, f => packBytes k f + (f k).toNat * 256 ^ k

/-- The slot word of an entry, in the bit positions of R106. `dead` fills the bytes `data[i]`, `i >= len`, which R106 leaves
unspecified; a statement about the word holds for every such filling. -/
def Entry.slotWord (cfg : Config) (dead : Nat → Byte) (e : Entry) : Nat :=
  packBytes cfg.n (fun i => if i < e.len then e.data.getD i 0 else dead i) +
    e.len * 2 ^ (8 * cfg.n) +
    e.ts.toNat * 2 ^ (8 * cfg.n + cfg.lenWidth) +
    e.reason.code.toNat * 2 ^ (8 * cfg.n + cfg.lenWidth + 64) +
    e.role.code.toNat * 2 ^ (8 * cfg.n + cfg.lenWidth + 66)

/-- The reason a 2-bit code denotes (R103). -/
def Reason.ofCode (k : BitVec 2) : Reason :=
  if k = 0 then .terminator else if k = 1 then .controlByte else if k = 2 then .lengthExceeded else .interByteTimeout

/-- The role a 1-bit code denotes (R104). -/
def Role.ofCode (k : BitVec 1) : Role := if k = 0 then .m else .nd

/-- The entry a slot word holds, read at the bit positions of R106. -/
def Entry.ofSlotWord (cfg : Config) (w : Nat) : Entry :=
  { role := Role.ofCode (BitVec.ofNat 1 (w / 2 ^ (8 * cfg.n + cfg.lenWidth + 66)))
    reason := Reason.ofCode (BitVec.ofNat 2 (w / 2 ^ (8 * cfg.n + cfg.lenWidth + 64)))
    ts := BitVec.ofNat 64 (w / 2 ^ (8 * cfg.n + cfg.lenWidth))
    data := (List.range (w / 2 ^ (8 * cfg.n) % 2 ^ cfg.lenWidth)).map (fun i => BitVec.ofNat 8 (w / 256 ^ i)) }

/-- The configured `NAK` under which a key's row is enabled (R114): the table lists the NAK row once for each value. -/
def nakOfKey (k : Key) (nak : NakByte) : NakByte :=
  if k = 0x3015 then .x15 else if k = 0x3021 then .x21 else nak

/-- The operand kind of an operation code (R100, R112), read from the bits above the key word. -/
def operandOfBits (cfg : Config) (op : BitVec 3) (above : Nat) : Operand :=
  if op = 1 then .time (BitVec.ofNat 64 above)
  else if op = 2 then .time (BitVec.ofNat 64 above)
  else if op = 6 then .entry (Entry.ofSlotWord cfg above)
  else .none

/-- An instruction given as one number, bit 0 the key word's least significant bit: the key word in bits 15 to 0 and the operand
(`ts` or `now`, or the slot word of PUSH's entry) above it. -/
def codeOfBits (cfg : Config) (w : Nat) : Code :=
  { key := BitVec.ofNat 16 w, operand := operandOfBits cfg (keyOp (BitVec.ofNat 16 w)) (w / 65536) }

/-- What the decoder reads from an instruction whose bits are `w` (spec/opcode_table.json's numbering); every bit from `nbits`
up is 0. A NAK row is read under the configuration that enables it. -/
def decodeTableWord (nbits w : Nat) : Option Instr :=
  let code := codeOfBits Config.standard (w % 2 ^ nbits)
  match decode (nakOfKey code.key .x15) code with
  | .ok i => some i
  | .error _ => none

end Sys2Proof
end

