-- ==== Sys2Proof/Machine/State.lean ====
section
/-!
DEFINITION. The state of the capture block (10_state.md R30 to R43), the reasons a step can stop, and the state after reset (R51).
-/

namespace Sys2Proof.Machine

/-- The reasons a step can stop with a fault. The block itself traps nothing (R240): each of these is an access that no
reachable state makes (R37, R52, R74), so each is safe. -/
inductive Fault where
  /-- Raised by a BYTE whose channel has `len >= N`: its append would store outside `buf[c][0 .. N-1]` (R74 a). Safe: no state
  with `len <= N-1` (R37 c) raises it. -/
  | bufIndexOutOfRange
  /-- Raised when a frame completes over a `buf` cell nothing has written (R39, R52). Safe. -/
  | bufCellUnwritten
  /-- Raised by a POP that would take `slot[head]` though some field of it was never written (R40, R52, R75). Safe. -/
  | slotUnwritten
  /-- Refinement level: raised by a fill that names `data[i]` with `i >= N`, a cell no slot has (R74, R106). Safe. -/
  | slotFieldOutOfRange
  deriving DecidableEq, Repr

/-- The reasons a step is refused. -/
inductive Refusal where
  /-- No meaning yet: rejected by name in exec's arm. Safe. -/
  | notModelled (mnemonic : String)
  /-- Raised by exec on a BYTE row in a state whose channel does not select that row (the rule's Condition fails, or the byte is
  another row's, or the NAK row is not enabled): the spec gives the row no meaning there (R114, R115). Safe. -/
  | rowNotSelected
  /-- Raised by step when the key formed from the event and the phase names no row: a Node in ADDR, CMD or PARAM_Q
  (R115 c, U6: "refuse"). Safe. -/
  | reservedKey
  /-- Raised by step on a PUSH that an agent outside the block presents (R115 b, U6: "refuse"). Safe. -/
  | pushFromOutside
  /-- Raised by step on a POP by another agent than the single consumer (R219, R290, U4: "refuse"). Safe. -/
  | popNotByConsumer
  /-- Raised by step on a BYTE, TICK or RESET that is not issued by the agent R6 and R100 give it. Safe. -/
  | foreignIssuer
  /-- Refinement level: raised by a reserve of a producer whose previous PUSH is not over (R285, U3: "refuse"). Safe. -/
  | producerBusy
  /-- Refinement level: raised by a fill or publish of a producer that holds no reserved slot (R224). Safe. -/
  | nothingReserved
  /-- Refinement level: raised by a publish before the last field is written (R224, R291). Safe. -/
  | publishBeforeFill
  deriving DecidableEq, Repr

/-- The registers and the payload buffer of one channel (R30, R32 to R36, R39). -/
structure Channel where
  /-- `ph[c]` (R32) -/
  ph : Phase
  /-- `cnt[c]` (R33) -/
  cnt : BitVec 2
  /-- `len[c]` (R34) -/
  len : Nat
  /-- `start_ts[c]` (R35) -/
  startTs : Timestamp
  /-- `last_ts[c]` (R36) -/
  lastTs : Timestamp
  /-- `buf[c]` (R39): the cells that have been written, by index -/
  buf : List Host.Cell
  deriving DecidableEq, Repr

/-- The content of one ring slot, field by field (R40, R106): a field that nothing has written since the slot was last freed has
no value (R40 "an unspecified value that no rule reads"). -/
structure Slot where
  role : Option Role
  reason : Option Reason
  ts : Option Timestamp
  len : Option Nat
  /-- the bytes of `data` that have been written, by index -/
  data : List Host.Cell
  deriving DecidableEq, Repr

/-- A PUSH in progress at the refinement level (R213 to R215): the slot reserved, and the entry whose fields go into it. Which of
them are written is seen in the slot itself. -/
structure Fill where
  slot : Nat
  entry : Entry
  deriving DecidableEq, Repr

/-- The whole state. `cfg` is constant (R9); `inbox`, `emitted` and `choice` are the model's own fields. -/
structure State where
  /-- the parameters of the run (R9, R31) -/
  cfg : Config
  /-- the Master channel -/
  m : Channel
  /-- the Node channel -/
  nd : Channel
  /-- `slot[0 .. QCAP-1]` (R40): the slots in which something has been written, by index -/
  slots : List (Nat × Slot)
  /-- `head` (R41) -/
  head : Nat
  /-- `count` (R41) -/
  count : Nat
  /-- `drops` (R42) -/
  drops : DropCount
  /-- `rsv` (R43) -/
  rsv : Nat
  /-- `pub[k]` for each slot `k` (R43) -/
  pub : List Bool
  /-- the Master producer's PUSH in progress, at the refinement level only (R213 to R215) -/
  fillM : Option Fill
  /-- the Node producer's PUSH in progress, at the refinement level only (R213 to R215) -/
  fillNd : Option Fill
  /-- what the agents present and the block has not yet taken: one list per step, its requests presented together (R7) -/
  inbox : List (List Request)
  /-- the results returned so far, oldest first (R8, R12) -/
  emitted : List Result
  /-- how many free choices of order have been taken (R7) -/
  choice : Nat
  deriving DecidableEq, Repr

/-- A channel after RESET (R51). DESIGN CHOICE (log entry 3): `start_ts` and `last_ts`, which R51 leaves unspecified, hold 0. -/
def Channel.reset : Channel :=
  { ph := .idle, cnt := 0, len := 0, startTs := 0, lastTs := 0, buf := [] }

/-- The machine after RESET under given parameters (R51, R280), with nothing presented to it and nothing returned by it. -/
def State.resetWith (cfg : Config) : State :=
  { cfg := cfg, m := Channel.reset, nd := Channel.reset, slots := [], head := 0, count := 0, drops := 0, rsv := 0,
    pub := List.replicate cfg.qcap false, fillM := none, fillNd := none, inbox := [], emitted := [], choice := 0 }

/-- The machine right after reset (R51, R280). -/
def State.reset : State := State.resetWith Config.standard

end Sys2Proof.Machine
end

