-- ==== Sys2Proof/Machine/Memory.lean ====
section
/-!
DEFINITION. The block's private memories (20_memory.md R70, R74, R75): cells by index, in one canonical form. A cell that nothing
has written is not listed and has no value (R39, R40, R52); log entry 4.
-/

namespace Sys2Proof.Machine

/-- The canonical form: indices strictly rising. An unlisted cell has no value, so no listed cell equals what it reads as. -/
def Memory.wf {α : Type} : List (Nat × α) → Bool
  | [] => true
  | [_] => true
  | a :: b :: rest => decide (a.1 < b.1) && Memory.wf (b :: rest)

/-- The value of a cell: `none` where nothing has written it. -/
def Memory.read {α : Type} : List (Nat × α) → Nat → Option α
  | [], _ => none
  | (b, w) :: rest, a => if a = b then some w else Memory.read rest a

/-- Write one whole cell (R75), keeping the canonical form. -/
def Memory.write {α : Type} : List (Nat × α) → Nat → α → List (Nat × α)
  | [], a, v => [(a, v)]
  | (b, w) :: rest, a, v =>
    if a < b then (a, v) :: (b, w) :: rest
    else if a = b then (a, v) :: rest
    else (b, w) :: Memory.write rest a v

/-- A cell whose content becomes unspecified (R207, R40) is no longer listed. -/
def Memory.erase {α : Type} : List (Nat × α) → Nat → List (Nat × α)
  | [], _ => []
  | (b, w) :: rest, a => if a = b then rest else (b, w) :: Memory.erase rest a

/-- The cells `0 .. n-1` in index order (R72, R75): `none` if nothing has written one of them. -/
def Memory.readUpTo {α : Type} (mem : List (Nat × α)) : Nat → Option (List α)
  | 0 => some []
  | n + 1 =>
    match Memory.readUpTo mem n, Memory.read mem n with
    | some vs, some v => some (vs ++ [v])
    | _, _ => none

/-- Every listed cell lies inside an array of `n` cells (R74). -/
def Memory.inside {α : Type} (n : Nat) (mem : List (Nat × α)) : Bool :=
  mem.all (fun c => decide (c.1 < n))

end Sys2Proof.Machine
end

