-- ==== Sys2Proof/Machine/Slot.lean ====
section
/-!
DEFINITION. A ring slot as the fields of an entry (10_state.md R40, 30_encoding.md R106): written whole by the atomic PUSH
(20_memory.md R75), field by field at the refinement level (41_encoder_queue.md R214), read whole by POP.
-/

namespace Sys2Proof.Machine

/-- A slot in which nothing has been written. -/
def Slot.blank : Slot := { role := none, reason := none, ts := none, len := none, data := [] }

/-- The fields of an entry (R106): what a producer has to write (R214). -/
def entryFields (e : Entry) : List Field :=
  (List.range e.len).map Field.data ++ [.len, .ts, .reason, .role]

/-- A field every slot has (R106: `data[i]`, `i` in `0 .. N-1`). -/
def fieldInSlot (cfg : Config) : Field → Bool
  | .data i => decide (i < cfg.n)
  | .len => true
  | .ts => true
  | .reason => true
  | .role => true

/-- A slot after one field of entry `e` has been written into it. A data byte at or above `len`, which R106 leaves unspecified and
no rule reads, leaves no trace (log entry 16). -/
def Slot.put (sl : Slot) (e : Entry) : Field → Slot
  | .data i =>
    match e.data[i]? with
    | some b => { sl with data := Memory.write sl.data i b }
    | none => sl
  | .len => { sl with len := some e.len }
  | .ts => { sl with ts := some e.ts }
  | .reason => { sl with reason := some e.reason }
  | .role => { sl with role := some e.role }

/-- A field of the slot has been written. -/
def Slot.has (sl : Slot) : Field → Bool
  | .data i => (Memory.read sl.data i).isSome
  | .len => sl.len.isSome
  | .ts => sl.ts.isSome
  | .reason => sl.reason.isSome
  | .role => sl.role.isSome

/-- The slot an entry fills (R106). -/
def entrySlot (e : Entry) : Slot :=
  { role := some e.role, reason := some e.reason, ts := some e.ts, len := some e.len, data := (List.range e.len).zip e.data }

/-- The entry a slot holds, once every field of it has been written (R75). -/
def Slot.entry (sl : Slot) : Option Entry :=
  match sl.role, sl.reason, sl.ts, sl.len with
  | some role, some reason, some ts, some len =>
    match Memory.readUpTo sl.data len with
    | some data => some { role := role, reason := reason, ts := ts, data := data }
    | none => none
  | _, _, _, _ => none

/-- The content of slot `k`, blank where nothing has been written. -/
def State.slotAt (s : State) (k : Nat) : Slot := (Memory.read s.slots k).getD Slot.blank

/-- `slot[k]` read as a whole entry (R12). -/
def State.entryAt (s : State) (k : Nat) : Option Entry := (s.slotAt k).entry

end Sys2Proof.Machine
end

