-- ==== Sys2Proof/Machine/Flags.lean ====
section
/-!
DEFINITION. The block's flag-like values (10_state.md R44): `full`, `empty`, the inter-byte timeout test
(40_capture_assembler.md R142, R171) and the `last` bit (30_encoding.md R113).
-/

namespace Sys2Proof.Machine

/-- `full`: `count = QCAP` (R44 b). A `count` above QCAP, which no reachable state holds (R212), is full too. -/
def State.full (s : State) : Bool := decide (s.cfg.qcap ≤ s.count)

/-- `empty`: `count = 0` (R44 c). -/
def State.empty (s : State) : Bool := decide (s.count = 0)

/-- Elapsed time `(t2 - t1) mod 2^TSW` (R171). -/
def elapsed (t1 t2 : Timestamp) : Timestamp := t2 - t1

/-- The timeout test of R142 and R167: the channel is not idle and `T_IB` or more has passed since its last byte, compared
unsigned. In IDLE the test is not made. -/
def Channel.timedOut (cfg : Config) (ch : Channel) (now : Timestamp) : Bool :=
  decide (ch.ph ≠ .idle) && decide (cfg.tIb ≤ elapsed ch.lastTs now)

/-- The phases of four bytes, which count their bytes (R33, R113). -/
def phaseCounted : Phase → Bool
  | .idle => false
  | .addr => true
  | .cmd => false
  | .paramV => true
  | .paramQ => true
  | .value => false
  | .cksum => false

/-- `last`: the byte now arriving is the fourth byte of a four-byte phase (R113). -/
def lastByte (ph : Phase) (cnt : BitVec 2) : Bool := phaseCounted ph && cnt == 3

end Sys2Proof.Machine
end

