-- ==== Sys2Proof/Machine/Operands.lean ====
section
/-!
DEFINITION. The operands of an event: the channel a role names, the phase a byte is accepted in, and the code (key word and
operand) formed from an event and the state (30_encoding.md R110 to R113).
-/

namespace Sys2Proof.Machine

/-- The channel of a role (R30). -/
def State.chan (s : State) : Role → Channel
  | .m => s.m
  | .nd => s.nd

/-- Write all of a channel's registers. -/
def State.setChan (s : State) (c : Role) (ch : Channel) : State :=
  match c with
  | .m => { s with m := ch }
  | .nd => { s with nd := ch }

/-- A channel as `complete` leaves it (R146): `ph`, `cnt`, `len` cleared, the rest as it is. -/
def Channel.idled (ch : Channel) : Channel := { ch with ph := .idle, cnt := 0, len := 0 }

/-- The channel a byte is accepted in: after the timeout pre-check has run (R142, R110 "the phase the byte is actually
accepted in"). -/
def Channel.afterCheck (cfg : Config) (ch : Channel) (ts : Timestamp) : Channel :=
  if ch.timedOut cfg ts then ch.idled else ch

/-- The code of a byte on a channel: role, `last`, phase and byte (R110, R113). -/
def Channel.byteCode (c : Role) (ch : Channel) (b : Byte) (ts : Timestamp) : Code :=
  Sys2Proof.byteCode c (lastByte ch.ph ch.cnt) ch.ph b ts

/-- The code of an event in a state (R110 to R113). -/
def codeOf (ev : Event) (s : State) : Code :=
  match ev with
  | .reset => plainCode 0 0 .none
  | .byte c b ts => ((s.chan c).afterCheck s.cfg ts).byteCode c b ts
  | .tick c now => plainCode 2 c.code (.time now)
  | .pop => plainCode 3 0 .none
  | .rddrop => plainCode 4 0 .none
  | .rdlen => plainCode 5 0 .none
  | .push e => plainCode 6 0 (.entry e)

/-- The instruction an event selects in a state: its code, decoded under the configured `NAK` (R114). -/
def fetch (ev : Event) (s : State) : Except DecodeError Instr := decode s.cfg.nak (codeOf ev s)

end Sys2Proof.Machine
end

