-- ==== Sys2Proof/Machine/Encoder.lean ====
section
/-!
DEFINITION. The Packet Encoder (41_encoder_queue.md R200 to R204): a pure mapping from a Frame to an entry, and the Capture
Record an entry stands for (30_encoding.md R105, R107).
-/

namespace Sys2Proof.Machine

/-- `encode(f)` (R200): role, reason, start time and payload, unmodified (R203, R204). -/
def encodeFrame (f : Frame) : Entry :=
  { role := f.role, reason := f.reason, ts := f.startTimestamp, data := f.payload }

/-- A Capture Record (R105). -/
structure CaptureRecord where
  /-- capture timestamp, seconds -/
  sec : Nat
  /-- capture timestamp, microseconds -/
  usec : Nat
  /-- pseudo source address -/
  src : Address
  /-- pseudo destination address -/
  dst : Address
  /-- fixed port -/
  port : Nat
  payload : List Byte
  deriving DecidableEq, Repr

/-- `src(role)` (R201). -/
def srcAddress (cfg : Config) : Role → Address
  | .m => cfg.addrLoop
  | .nd => cfg.addrPeer

/-- `dst(role)` (R201). -/
def dstAddress (cfg : Config) : Role → Address
  | .m => cfg.addrPeer
  | .nd => cfg.addrLoop

/-- The Capture Record an entry stands for (R200), with the split of R107. -/
def captureRecord (cfg : Config) (e : Entry) : CaptureRecord :=
  { sec := e.ts.toNat / 1000000
    usec := e.ts.toNat % 1000000
    src := srcAddress cfg e.role
    dst := dstAddress cfg e.role
    port := Config.port
    payload := e.data }

end Sys2Proof.Machine
end

