-- ==== Sys2Proof/Machine/Ops.lean ====
section
/-!
DEFINITION. The named operations of the block: the Output Queue's push and pop (41_encoder_queue.md R205 to R208), results
(00_scope.md R12), `complete`, which stands where an exception's entry would (40_capture_assembler.md R146, 60_exceptions.md R247),
and the steps every BYTE and TICK is made of (R141 to R145, R167, R169).
-/

namespace Sys2Proof.Machine

/-- `emit(x)` (R12): `x` is the result the operation returns. -/
def State.emit (s : State) (r : Result) : State := { s with emitted := s.emitted ++ [r] }

/-- The tail index `(head + count) mod QCAP` (R41, R217). -/
def State.tail (s : State) : Nat := (s.head + s.count) % s.cfg.qcap

/-- `push(e)`, queue not full (R205). `rsv` and `pub` follow, so that `rsv = count` and `pub[k] = 1` on the occupied slots (R43). -/
def State.store (s : State) (e : Entry) : State :=
  { s with
    slots := Memory.write s.slots s.tail (entrySlot e)
    count := s.count + 1
    rsv := s.rsv + 1
    pub := s.pub.set s.tail true }

/-- `push(e)`, queue full (R206): the entry is discarded, the drop counter rises by one modulo 2^32. -/
def State.drop (s : State) : State := { s with drops := s.drops + 1 }

/-- `push(e)` (R205, R206). It has no result and never waits. -/
def State.push (s : State) (e : Entry) : State := if s.full then s.drop else s.store e

/-- The state after a POP has taken `slot[head]` (R207): the slot is free and its content unspecified (R40); `rsv` and `pub`
follow (R43). -/
def State.release (s : State) : State :=
  { s with
    slots := Memory.erase s.slots s.head
    head := (s.head + 1) % s.cfg.qcap
    count := s.count - 1
    rsv := s.rsv - 1
    pub := s.pub.set s.head false }

/-- The payload under assembly: `buf[c][0 .. len[c]-1]` (R146). -/
def Channel.payload (ch : Channel) : Option (List Byte) := Memory.readUpTo ch.buf ch.len

/-- The Frame a channel holds, once its payload has been read (R146). -/
def Channel.frame (c : Role) (ch : Channel) (payload : List Byte) (reason : Reason) : Frame :=
  { role := c, payload := payload, startTimestamp := ch.startTs, reason := reason }

/-- `complete(c, reason)` with the payload read (R146): push the encoded Frame, then clear `ph`, `cnt`, `len`. Whether the push
stores or drops makes no difference to the channel. -/
def State.completed (s : State) (c : Role) (reason : Reason) (payload : List Byte) : State :=
  (s.push (encodeFrame ((s.chan c).frame c payload reason))).setChan c (s.chan c).idled

/-- `complete(c, reason)` (R146, R247): what stands for taking an exception. A payload cell that nothing has written, which no
reachable state has (R52), is a fault. -/
def complete (c : Role) (reason : Reason) (s : State) : Except Fault State :=
  match (s.chan c).payload with
  | none => .error .bufCellUnwritten
  | some p => .ok (s.completed c reason p)

/-- The timeout test and its completion: step 1 of R141 (R142), and all of TICK (R167, R168). -/
def timeoutCheck (c : Role) (now : Timestamp) (s : State) : Except Fault State :=
  if (s.chan c).timedOut s.cfg now then complete c .interByteTimeout s else .ok s

/-- Steps 2 and 3 of R141 on a channel (R143, R144): a byte accepted in IDLE starts a frame; every byte is appended. -/
def Channel.accept (ch : Channel) (b : Byte) (ts : Timestamp) : Channel :=
  { ch with
    startTs := if ch.ph = .idle then ts else ch.startTs
    buf := Memory.write ch.buf ch.len b
    len := ch.len + 1
    lastTs := ts }

/-- Steps 2 and 3 of R141. A store outside `buf[c]`, which no reachable state makes (R74 a), is a fault. -/
def append (c : Role) (b : Byte) (ts : Timestamp) (s : State) : Except Fault State :=
  if (s.chan c).len < s.cfg.n then .ok (s.setChan c ((s.chan c).accept b ts))
  else .error .bufIndexOutOfRange

/-- Step 5 of R141 (R145, R169): a natural end completes with its own reason; otherwise a full payload completes with
LengthExceeded; otherwise the phase advances. -/
def conclude (c : Role) (outcome : RowOutcome) (s : State) : Except Fault State :=
  match outcome with
  | .done reason => complete c reason s
  | .next ph cnt =>
    if (s.chan c).len = s.cfg.n then complete c .lengthExceeded s
    else .ok (s.setChan c { s.chan c with ph := ph, cnt := cnt })

/-- An operation that cannot be refused, as a step's outcome. -/
def settle (r : Except Fault State) : Host.Outcome State Fault Refusal :=
  match r with
  | .error f => .fault f
  | .ok s => .next s

/-- BYTE.c (R141) for one row of the table: the timeout pre-check, then, if the channel selects this row, append, and the row's
outcome. `selected` is the row's Condition and `row` its phase decision, both read after the pre-check and before the append. -/
def byteRow (c : Role) (b : Byte) (ts : Timestamp) (selected : Channel → Bool) (row : Channel → RowOutcome) (s : State) :
    Host.Outcome State Fault Refusal :=
  match timeoutCheck c ts s with
  | .error f => .fault f
  | .ok s1 =>
    if selected (s1.chan c) then
      match append c b ts s1 with
      | .error f => .fault f
      | .ok s2 => settle (conclude c (row (s1.chan c)) s2)
    else .refused .rowNotSelected

end Sys2Proof.Machine
end

