-- ==== Sys2Proof/Machine/ByteM.lean ====
section
/-!
DEFINITION. The Master rows of the transition table (40_capture_assembler.md R147 to R158), each BYTE.M (R141) with its own Condition and
phase decision.
-/

namespace Sys2Proof.Machine

/-- BYTE.M.IDLE (R147): in IDLE, any byte is byte 0 of the address. -/
def execByteMIdle (b : Byte) (ts : Timestamp) (s : State) : Host.Outcome State Fault Refusal :=
  byteRow .m b ts (fun ch => decide (ch.ph = .idle)) (fun _ => .next .addr 1) s

/-- BYTE.M.ADDR (R148): an address byte that is not the fourth. -/
def execByteMAddr (b : Byte) (ts : Timestamp) (s : State) : Host.Outcome State Fault Refusal :=
  byteRow .m b ts (fun ch => decide (ch.ph = .addr) && !lastByte ch.ph ch.cnt) (fun ch => .next .addr (ch.cnt + 1)) s

/-- BYTE.M.ADDR.L (R149): the fourth address byte. -/
def execByteMAddrL (b : Byte) (ts : Timestamp) (s : State) : Host.Outcome State Fault Refusal :=
  byteRow .m b ts (fun ch => decide (ch.ph = .addr) && lastByte ch.ph ch.cnt) (fun _ => .next .cmd 0) s

/-- BYTE.M.CMD.WR (R150): the command byte `CMD_WRITE`. -/
def execByteMCmdWr (ts : Timestamp) (s : State) : Host.Outcome State Fault Refusal :=
  byteRow .m Config.cmdWrite ts (fun ch => decide (ch.ph = .cmd)) (fun _ => .next .paramV 0) s

/-- BYTE.M.CMD.QRY (R151): every other command byte. -/
def execByteMCmdQry (b : Byte) (ts : Timestamp) (s : State) : Host.Outcome State Fault Refusal :=
  byteRow .m b ts (fun ch => decide (ch.ph = .cmd) && b != Config.cmdWrite) (fun _ => .next .paramQ 0) s

/-- BYTE.M.PARV (R152): a parameter byte of a write that is not the fourth. -/
def execByteMParv (b : Byte) (ts : Timestamp) (s : State) : Host.Outcome State Fault Refusal :=
  byteRow .m b ts (fun ch => decide (ch.ph = .paramV) && !lastByte ch.ph ch.cnt) (fun ch => .next .paramV (ch.cnt + 1)) s

/-- BYTE.M.PARV.L (R153): the fourth parameter byte of a write. -/
def execByteMParvL (b : Byte) (ts : Timestamp) (s : State) : Host.Outcome State Fault Refusal :=
  byteRow .m b ts (fun ch => decide (ch.ph = .paramV) && lastByte ch.ph ch.cnt) (fun _ => .next .value 0) s

/-- BYTE.M.PARQ (R154): a parameter byte of a query that is not the fourth. -/
def execByteMParq (b : Byte) (ts : Timestamp) (s : State) : Host.Outcome State Fault Refusal :=
  byteRow .m b ts (fun ch => decide (ch.ph = .paramQ) && !lastByte ch.ph ch.cnt) (fun ch => .next .paramQ (ch.cnt + 1)) s

/-- BYTE.M.PARQ.L (R155): the fourth parameter byte of a query ends the frame. -/
def execByteMParqL (b : Byte) (ts : Timestamp) (s : State) : Host.Outcome State Fault Refusal :=
  byteRow .m b ts (fun ch => decide (ch.ph = .paramQ) && lastByte ch.ph ch.cnt) (fun _ => .done .terminator) s

/-- BYTE.M.VAL.TERM (R156): the first `TERM` of the value phase. -/
def execByteMValTerm (ts : Timestamp) (s : State) : Host.Outcome State Fault Refusal :=
  byteRow .m Config.term ts (fun ch => decide (ch.ph = .value)) (fun _ => .next .cksum 0) s

/-- BYTE.M.VAL (R157): a value byte other than `TERM`. -/
def execByteMVal (b : Byte) (ts : Timestamp) (s : State) : Host.Outcome State Fault Refusal :=
  byteRow .m b ts (fun ch => decide (ch.ph = .value) && b != Config.term) (fun _ => .next .value 0) s

/-- BYTE.M.CKSUM (R158): the checksum byte, whatever it is, ends the frame. -/
def execByteMCksum (b : Byte) (ts : Timestamp) (s : State) : Host.Outcome State Fault Refusal :=
  byteRow .m b ts (fun ch => decide (ch.ph = .cksum)) (fun _ => .done .terminator) s

end Sys2Proof.Machine
end

