-- ==== Sys2Proof/Machine/ByteNd.lean ====
section
/-!
DEFINITION. The Node rows of the transition table (40_capture_assembler.md R159 to R166), each BYTE.Nd (R141) with its own Condition and
phase decision.
-/

namespace Sys2Proof.Machine

/-- BYTE.Nd.IDLE.ACK (R159): a first byte `ACK` is a frame of its own. -/
def execByteNdIdleAck (ts : Timestamp) (s : State) : Host.Outcome State Fault Refusal :=
  byteRow .nd Config.ack ts (fun ch => decide (ch.ph = .idle)) (fun _ => .done .controlByte) s

/-- BYTE.Nd.IDLE.NAK with `NAK = 0x15` (R160): selected only while that row is enabled (R114). -/
def execByteNdIdleNak15 (ts : Timestamp) (s : State) : Host.Outcome State Fault Refusal :=
  byteRow .nd NakByte.x15.byte ts (fun ch => decide (ch.ph = .idle) && s.cfg.nak == .x15) (fun _ => .done .controlByte) s

/-- BYTE.Nd.IDLE.NAK with `NAK = 0x21` (R160): selected only while that row is enabled (R114). -/
def execByteNdIdleNak21 (ts : Timestamp) (s : State) : Host.Outcome State Fault Refusal :=
  byteRow .nd NakByte.x21.byte ts (fun ch => decide (ch.ph = .idle) && s.cfg.nak == .x21) (fun _ => .done .controlByte) s

/-- BYTE.Nd.IDLE (R161): a first byte that is neither `ACK` nor `NAK` is byte 0 of the parameter. -/
def execByteNdIdle (b : Byte) (ts : Timestamp) (s : State) : Host.Outcome State Fault Refusal :=
  byteRow .nd b ts (fun ch => decide (ch.ph = .idle) && b != Config.ack && b != s.cfg.nak.byte) (fun _ => .next .paramV 1) s

/-- BYTE.Nd.PARV (R162): a parameter byte that is not the fourth. -/
def execByteNdParv (b : Byte) (ts : Timestamp) (s : State) : Host.Outcome State Fault Refusal :=
  byteRow .nd b ts (fun ch => decide (ch.ph = .paramV) && !lastByte ch.ph ch.cnt) (fun ch => .next .paramV (ch.cnt + 1)) s

/-- BYTE.Nd.PARV.L (R163): the fourth parameter byte. -/
def execByteNdParvL (b : Byte) (ts : Timestamp) (s : State) : Host.Outcome State Fault Refusal :=
  byteRow .nd b ts (fun ch => decide (ch.ph = .paramV) && lastByte ch.ph ch.cnt) (fun _ => .next .value 0) s

/-- BYTE.Nd.VAL.TERM (R164): the first `TERM` of the value phase. -/
def execByteNdValTerm (ts : Timestamp) (s : State) : Host.Outcome State Fault Refusal :=
  byteRow .nd Config.term ts (fun ch => decide (ch.ph = .value)) (fun _ => .next .cksum 0) s

/-- BYTE.Nd.VAL (R165): a value byte other than `TERM`. -/
def execByteNdVal (b : Byte) (ts : Timestamp) (s : State) : Host.Outcome State Fault Refusal :=
  byteRow .nd b ts (fun ch => decide (ch.ph = .value) && b != Config.term) (fun _ => .next .value 0) s

/-- BYTE.Nd.CKSUM (R166): the checksum byte, whatever it is, ends the frame. -/
def execByteNdCksum (b : Byte) (ts : Timestamp) (s : State) : Host.Outcome State Fault Refusal :=
  byteRow .nd b ts (fun ch => decide (ch.ph = .cksum)) (fun _ => .done .terminator) s

end Sys2Proof.Machine
end

