-- ==== Sys2Proof/Machine/Queue.lean ====
section
/-!
DEFINITION. The operations on the Output Queue and on the whole block: POP, RDDROP, RDLEN, PUSH (41_encoder_queue.md R205 to
R210) and RESET (70_reset_and_hazards.md R280).
-/

namespace Sys2Proof.Machine

/-- POP (R207, R208): the oldest entry leaves the queue and is returned; on an empty queue `none` is returned and nothing
changes. A `slot[head]` that is not wholly written though `count > 0`, which no reachable state has (R52), is a fault. -/
def execPop (s : State) : Host.Outcome State Fault Refusal :=
  if s.empty then .next (s.emit .none)
  else
    match s.entryAt s.head with
    | none => .fault .slotUnwritten
    | some e => .next (s.release.emit (.entry e))

/-- RDDROP (R209): returns `drops`, changes nothing. -/
def execRddrop (s : State) : Host.Outcome State Fault Refusal := .next (s.emit (.dropCount s.drops))

/-- RDLEN (R210): returns `count`, changes nothing. -/
def execRdlen (s : State) : Host.Outcome State Fault Refusal := .next (s.emit (.length s.count))

/-- PUSH (R205, R206): stores the entry, or drops it and counts. -/
def execPush (e : Entry) (s : State) : Host.Outcome State Fault Refusal := .next (s.push e)

/-- RESET (R280, R281): every piece of the block's state to its reset value (R51). The parameters (R51 "keeps the value the run
was given"), what the agents still present and what they have been given already are not the block's to reset (log entry 10). -/
def execReset (s : State) : Host.Outcome State Fault Refusal :=
  .next { State.resetWith s.cfg with inbox := s.inbox, emitted := s.emitted, choice := s.choice }

end Sys2Proof.Machine
end

