-- ==== Sys2Proof/Machine/Tick.lean ====
section
/-!
DEFINITION. The TICK operations (40_capture_assembler.md R167, R168).
-/

namespace Sys2Proof.Machine

/-- TICK.M (R167): the timeout check on the Master channel. -/
def execTickM (now : Timestamp) (s : State) : Host.Outcome State Fault Refusal :=
  settle (timeoutCheck .m now s)

/-- TICK.Nd (R168): the timeout check on the Node channel. -/
def execTickNd (now : Timestamp) (s : State) : Host.Outcome State Fault Refusal :=
  settle (timeoutCheck .nd now s)

end Sys2Proof.Machine
end

