-- ==== Sys2Proof/Machine/Dispatch.lean ====
section
/-!
DEFINITION. One arm per row of the operation table (30_encoding.md R116).
-/

namespace Sys2Proof.Machine

def exec (i : Instr) (s : State) : Host.Outcome State Fault Refusal :=
  match i with
  | .reset => Sys2Proof.Machine.execReset s
  | .byteMIdle b ts => Sys2Proof.Machine.execByteMIdle b ts s
  | .byteMAddr b ts => Sys2Proof.Machine.execByteMAddr b ts s
  | .byteMAddrL b ts => Sys2Proof.Machine.execByteMAddrL b ts s
  | .byteMCmdWr ts => Sys2Proof.Machine.execByteMCmdWr ts s
  | .byteMCmdQry b ts => Sys2Proof.Machine.execByteMCmdQry b ts s
  | .byteMParv b ts => Sys2Proof.Machine.execByteMParv b ts s
  | .byteMParvL b ts => Sys2Proof.Machine.execByteMParvL b ts s
  | .byteMParq b ts => Sys2Proof.Machine.execByteMParq b ts s
  | .byteMParqL b ts => Sys2Proof.Machine.execByteMParqL b ts s
  | .byteMValTerm ts => Sys2Proof.Machine.execByteMValTerm ts s
  | .byteMVal b ts => Sys2Proof.Machine.execByteMVal b ts s
  | .byteMCksum b ts => Sys2Proof.Machine.execByteMCksum b ts s
  | .byteNdIdleAck ts => Sys2Proof.Machine.execByteNdIdleAck ts s
  | .byteNdIdleNak15 ts => Sys2Proof.Machine.execByteNdIdleNak15 ts s
  | .byteNdIdleNak21 ts => Sys2Proof.Machine.execByteNdIdleNak21 ts s
  | .byteNdIdle b ts => Sys2Proof.Machine.execByteNdIdle b ts s
  | .byteNdParv b ts => Sys2Proof.Machine.execByteNdParv b ts s
  | .byteNdParvL b ts => Sys2Proof.Machine.execByteNdParvL b ts s
  | .byteNdValTerm ts => Sys2Proof.Machine.execByteNdValTerm ts s
  | .byteNdVal b ts => Sys2Proof.Machine.execByteNdVal b ts s
  | .byteNdCksum b ts => Sys2Proof.Machine.execByteNdCksum b ts s
  | .tickM now => Sys2Proof.Machine.execTickM now s
  | .tickNd now => Sys2Proof.Machine.execTickNd now s
  | .pop => Sys2Proof.Machine.execPop s
  | .rddrop => Sys2Proof.Machine.execRddrop s
  | .rdlen => Sys2Proof.Machine.execRdlen s
  | .push e => Sys2Proof.Machine.execPush e s

end Sys2Proof.Machine
end

