-- ==== Sys2Proof/Machine/Inbox.lean ====
section
/-!
DEFINITION. How the next instruction comes to the block: the requests presented to it (00_scope.md R6, R7), the order of those
presented together, the refusal of what no agent may present (93_implementation_defined.md U4, U6), and the placing of one
instruction so that the next step runs it.
-/

namespace Sys2Proof.Machine

/-- The refusal of an event presented by an agent that may not issue it (U6 for PUSH, U4 for POP). -/
def refuseIssuer : Event → Refusal
  | .push _ => .pushFromOutside
  | .pop => .popNotByConsumer
  | .reset => .foreignIssuer
  | .byte _ _ _ => .foreignIssuer
  | .tick _ _ => .foreignIssuer
  | .rddrop => .foreignIssuer
  | .rdlen => .foreignIssuer

/-- Serve one request: the event's code is formed, decoded and executed as one atomic event (R7). -/
def serve (r : Request) (s : State) : Host.Outcome State Fault Refusal :=
  if r.issuer.mayIssue r.event then
    match fetch r.event s with
    | .error _ => .refused .reservedKey
    | .ok i => exec i s
  else .refused (refuseIssuer r.event)

/-- Take the request at index `k` (modulo the number of requests) out of a batch of at least one. -/
def takeRequest (k : Nat) (r : Request) (rest : List Request) : Request × List Request :=
  let i := k % (rest.length + 1)
  ((r :: rest).getD i r, (r :: rest).eraseIdx i)

/-- One step: nothing presented leaves the block as it is; of requests presented together one is taken, which one being left
open (R7, R246, `Config.order`); the rest of the batch stays presented. -/
def stepInbox (s : State) : Host.Outcome State Fault Refusal :=
  match s.inbox with
  | [] => .next s
  | [] :: later => .next { s with inbox := later }
  | [r] :: later => serve r { s with inbox := later }
  | (r :: r' :: rest) :: later =>
    let taken := takeRequest (Config.order s.choice) r (r' :: rest)
    serve taken.1 { s with inbox := taken.2 :: later, choice := s.choice + 1 }

/-- The agent that issues an event (R6, R100). -/
def issuerOf : Event → Agent
  | .reset => .resetSource
  | .byte .m _ _ => .masterProducer
  | .byte .nd _ _ => .nodeProducer
  | .tick _ _ => .timer
  | .pop => .consumer
  | .rddrop => .consumer
  | .rdlen => .consumer
  | .push _ => .block

/-- An event presented by its own agent. -/
def requestOf (ev : Event) : Request := { issuer := issuerOf ev, event := ev }

/-- The event whose code a decoded instruction has (R100). -/
def eventOf : Instr → Event
  | .reset => .reset
  | .byteMIdle b t => .byte .m b t
  | .byteMAddr b t => .byte .m b t
  | .byteMAddrL b t => .byte .m b t
  | .byteMCmdWr t => .byte .m Config.cmdWrite t
  | .byteMCmdQry b t => .byte .m b t
  | .byteMParv b t => .byte .m b t
  | .byteMParvL b t => .byte .m b t
  | .byteMParq b t => .byte .m b t
  | .byteMParqL b t => .byte .m b t
  | .byteMValTerm t => .byte .m Config.term t
  | .byteMVal b t => .byte .m b t
  | .byteMCksum b t => .byte .m b t
  | .byteNdIdleAck t => .byte .nd Config.ack t
  | .byteNdIdleNak15 t => .byte .nd NakByte.x15.byte t
  | .byteNdIdleNak21 t => .byte .nd NakByte.x21.byte t
  | .byteNdIdle b t => .byte .nd b t
  | .byteNdParv b t => .byte .nd b t
  | .byteNdParvL b t => .byte .nd b t
  | .byteNdValTerm t => .byte .nd Config.term t
  | .byteNdVal b t => .byte .nd b t
  | .byteNdCksum b t => .byte .nd b t
  | .tickM t => .tick .m t
  | .tickNd t => .tick .nd t
  | .pop => .pop
  | .rddrop => .rddrop
  | .rdlen => .rdlen
  | .push e => .push e

/-- The phase and in-phase counter in which a BYTE row is selected (R116), the least that fits (R37); none for the other rows. -/
def rowPosition : RowName → Option (Role × Phase × BitVec 2 × Nat)
  | .byteMIdle => some (.m, .idle, 0, 0)
  | .byteMAddr => some (.m, .addr, 1, 1)
  | .byteMAddrL => some (.m, .addr, 3, 3)
  | .byteMCmdWr => some (.m, .cmd, 0, 4)
  | .byteMCmdQry => some (.m, .cmd, 0, 4)
  | .byteMParv => some (.m, .paramV, 0, 5)
  | .byteMParvL => some (.m, .paramV, 3, 8)
  | .byteMParq => some (.m, .paramQ, 0, 5)
  | .byteMParqL => some (.m, .paramQ, 3, 8)
  | .byteMValTerm => some (.m, .value, 0, 9)
  | .byteMVal => some (.m, .value, 0, 9)
  | .byteMCksum => some (.m, .cksum, 0, 10)
  | .byteNdIdleAck => some (.nd, .idle, 0, 0)
  | .byteNdIdleNak15 => some (.nd, .idle, 0, 0)
  | .byteNdIdleNak21 => some (.nd, .idle, 0, 0)
  | .byteNdIdle => some (.nd, .idle, 0, 0)
  | .byteNdParv => some (.nd, .paramV, 1, 1)
  | .byteNdParvL => some (.nd, .paramV, 3, 3)
  | .byteNdValTerm => some (.nd, .value, 0, 4)
  | .byteNdVal => some (.nd, .value, 0, 4)
  | .byteNdCksum => some (.nd, .cksum, 0, 5)
  | .reset => none
  | .tickM => none
  | .tickNd => none
  | .pop => none
  | .rddrop => none
  | .rdlen => none
  | .push => none

/-- A channel that has accepted `len` bytes, all 0x00, the last of them at time `t`, and stands in the given phase. -/
def channelAt (ph : Phase) (cnt : BitVec 2) (len : Nat) (t : Timestamp) : Channel :=
  { ph := ph, cnt := cnt, len := len, startTs := t, lastTs := t, buf := (List.range len).map (fun i => (i, 0)) }

/-- Bring the row's channel to where the row is selected, unless the present state selects it already. -/
def placeChannel (i : Instr) (s : State) : State :=
  if fetch (eventOf i) s = .ok i then s
  else
    match rowPosition i.row, (encode i).operand with
    | some (c, ph, cnt, len), .time t => s.setChan c (channelAt ph cnt len t)
    | _, _ => s

/-- Present one instruction, given as an encoded code, as the very next event, by its own agent, in a state that selects its
row: the configured NAK enables it and its channel stands in its phase. A code that names no instruction presents nothing. -/
def placeCode (code : Code) (s : State) : State :=
  let s1 := { s with cfg := s.cfg.withNak (nakOfKey code.key s.cfg.nak) }
  match decode s1.cfg.nak code with
  | .error _ => s
  | .ok i =>
    let s2 := placeChannel i s1
    { s2 with inbox := [requestOf (eventOf i)] :: s2.inbox }

end Sys2Proof.Machine
end

