-- ==== Sys2Proof/Machine/Step.lean ====
section
/-!
DEFINITION. One step of the machine: the next presented event (00_scope.md R7), and the placing of an instruction where the step
takes its next one.
-/

namespace Sys2Proof.Machine

/-- One step (R7): take the next presented event, form its code, decode it and execute it. -/
def step (s : State) : Host.Outcome State Fault Refusal := stepInbox s

/-- `s` with the instruction whose bits are `w` presented as the very next event (log entry 5). -/
def State.withFetchWord (s : State) (nbits w : Nat) : State :=
  placeCode (codeOfBits s.cfg (w % 2 ^ nbits)) s

end Sys2Proof.Machine
end

