-- ==== Sys2Proof/Machine/Fine.lean ====
section
/-!
DEFINITION. The fine-grained queue protocol (41_encoder_queue.md R213 to R216, R224): a PUSH is a reserve, fills of the slot's
fields in any order, and a publish; a POP looks at the first published slot. The steps of the two producers and of the consumer
may interleave between these steps. 20_memory.md R80 makes the reserve, the count of a drop and the release by a POP indivisible;
that a whole POP is one step is the model's choice (log entry 29).
-/

namespace Sys2Proof.Machine

/-- The steps of the fine level. -/
inductive FineOp where
  /-- producer `c` starts its PUSH of `e` (R213) -/
  | reserve (c : Role) (e : Entry)
  /-- producer `c` writes fields of the slot it reserved, as one of any number of steps (R214) -/
  | fill (c : Role) (fs : List Field)
  /-- producer `c` publishes the slot it filled (R215) -/
  | publish (c : Role)
  /-- the consumer's POP (R216) -/
  | pop
  deriving DecidableEq, Repr

/-- The producer that takes a step, none for the consumer's POP. -/
def FineOp.producer : FineOp → Option Role
  | .reserve c _ => some c
  | .fill c _ => some c
  | .publish c => some c
  | .pop => none

/-- The PUSH in progress of a producer. -/
def State.fillOf (s : State) : Role → Option Fill
  | .m => s.fillM
  | .nd => s.fillNd

/-- Set the PUSH in progress of a producer. -/
def State.setFill (s : State) (c : Role) (f : Option Fill) : State :=
  match c with
  | .m => { s with fillM := f }
  | .nd => { s with fillNd := f }

/-- `reserve()` (R213): fullness is judged here, on the reserved slots. The atomic level's `count` moves with `rsv`: each PUSH
takes effect at its reserve step (R223; log entry 12). -/
def fineReserve (c : Role) (e : Entry) (s : State) : Host.Outcome State Fault Refusal :=
  match s.fillOf c with
  | some _ => .refused .producerBusy
  | none =>
    if s.cfg.qcap ≤ s.rsv then .next { s with drops := s.drops + 1 }
    else
      .next
        (({ s with rsv := s.rsv + 1, count := s.count + 1 }).setFill c
          (some { slot := (s.head + s.rsv) % s.cfg.qcap, entry := e }))

/-- One field of the reserved slot written (R214). -/
def State.writeField (w : Fill) (s : State) (f : Field) : State :=
  if f ∈ entryFields w.entry then { s with slots := Memory.write s.slots w.slot ((s.slotAt w.slot).put w.entry f) } else s

/-- A step of the fill (R214): some fields of the reserved slot are written, in the order listed. A field may be written again,
and a data byte at or above `len` may be written too: neither is forbidden, and neither shows. -/
def fineFill (c : Role) (fs : List Field) (s : State) : Host.Outcome State Fault Refusal :=
  match s.fillOf c with
  | none => .refused .nothingReserved
  | some w => if fs.all (fieldInSlot s.cfg) then .next (fs.foldl (State.writeField w) s) else .fault .slotFieldOutOfRange

/-- Every field of the entry has been written into the reserved slot. -/
def State.filled (s : State) (w : Fill) : Bool := (entryFields w.entry).all (s.slotAt w.slot).has

/-- Publish (R215): allowed only when every field is written (R224, R291). -/
def finePublish (c : Role) (s : State) : Host.Outcome State Fault Refusal :=
  match s.fillOf c with
  | none => .refused .nothingReserved
  | some w =>
    if s.filled w then .next ({ s with pub := s.pub.set w.slot true }.setFill c none)
    else .refused .publishBeforeFill

/-- POP at this level (R216): it stops at the first unpublished slot, even if a later one is published. DESIGN CHOICE (log entry
29): the read of `pub[head]`, the reads of the slot's fields and the release are one step, with no producer's step between them;
R216 and R80 c make only the release indivisible. -/
def finePop (s : State) : Host.Outcome State Fault Refusal :=
  if s.rsv = 0 ∨ s.pub.getD s.head false = false then .next (s.emit .none)
  else
    match s.entryAt s.head with
    | none => .fault .slotUnwritten
    | some e => .next (s.release.emit (.entry e))

/-- One step of the fine level. -/
def fineStep (op : FineOp) (s : State) : Host.Outcome State Fault Refusal :=
  match op with
  | .reserve c e => fineReserve c e s
  | .fill c fs => fineFill c fs s
  | .publish c => finePublish c s
  | .pop => finePop s

/-- A sequence of fine-level steps, stopping at the first fault or refusal. -/
def fineRun : List FineOp → State → Host.Outcome State Fault Refusal
  | [], s => .next s
  | op :: ops, s =>
    match fineStep op s with
    | .next t => fineRun ops t
    | .fault f => .fault f
    | .refused r => .refused r

end Sys2Proof.Machine
end

