-- ==== Sys2Proof/Machine/Layout.lean ====
section
/-!
DEFINITION. The four message shapes and the offsets of their fields in a Frame's payload (30_encoding.md R109).
-/

namespace Sys2Proof.Machine

/-- A well-formed field-bus message (R109), its fields in order. Address and parameter are four bytes each. -/
inductive Message where
  | masterWrite (address parameter : Vector Byte 4) (value : List Byte) (checksum : Byte)
  | masterQuery (address : Vector Byte 4) (command : Byte) (parameter : Vector Byte 4)
  | nodeControl (b : Byte)
  | nodeResponse (parameter : Vector Byte 4) (value : List Byte) (checksum : Byte)
  deriving DecidableEq, Repr

/-- The channel a message arrives on. -/
def messageRole : Message → Role
  | .masterWrite _ _ _ _ => .m
  | .masterQuery _ _ _ => .m
  | .nodeControl _ => .nd
  | .nodeResponse _ _ _ => .nd

/-- The bytes of a message in arrival order (R109). -/
def messageBytes : Message → List Byte
  | .masterWrite address parameter value checksum =>
    address.toList ++ [Config.cmdWrite] ++ parameter.toList ++ value ++ [Config.term, checksum]
  | .masterQuery address command parameter => address.toList ++ [command] ++ parameter.toList
  | .nodeControl b => [b]
  | .nodeResponse parameter value checksum => parameter.toList ++ value ++ [Config.term, checksum]

/-- The reason its Frame completes with (R155, R158 to R160, R166). -/
def messageReason : Message → Reason
  | .masterWrite _ _ _ _ => .terminator
  | .masterQuery _ _ _ => .terminator
  | .nodeControl _ => .controlByte
  | .nodeResponse _ _ _ => .terminator

/-- The conditions of R109: no value byte equals TERM, a query's command is not CMD_WRITE, a control byte is ACK or NAK, and byte
0 of a response is neither. -/
def messageWellFormed (nak : NakByte) : Message → Bool
  | .masterWrite _ _ value _ => value.all (fun b => b != Config.term)
  | .masterQuery _ command _ => command != Config.cmdWrite
  | .nodeControl b => b == Config.ack || b == nak.byte
  | .nodeResponse parameter value _ =>
    parameter[0] != Config.ack && parameter[0] != nak.byte && value.all (fun b => b != Config.term)

/-- The bytes `lo .. lo + n - 1` of a payload. -/
def slice (payload : List Byte) (lo n : Nat) : List Byte := (payload.drop lo).take n

/-- The fields a reader finds in a payload at the offsets of R109. -/
structure MessageFields where
  address : List Byte
  command : List Byte
  parameter : List Byte
  value : List Byte
  terminator : List Byte
  checksum : List Byte
  deriving DecidableEq, Repr

/-- The fields of a payload at the fixed offsets of R109, chosen by role and, for a Master, by the command byte. -/
def readFields (nak : NakByte) (c : Role) (p : List Byte) : MessageFields :=
  match c with
  | .m =>
    if slice p 4 1 = [Config.cmdWrite] then
      { address := slice p 0 4, command := slice p 4 1, parameter := slice p 5 4, value := slice p 9 (p.length - 11),
        terminator := slice p (p.length - 2) 1, checksum := slice p (p.length - 1) 1 }
    else
      { address := slice p 0 4, command := slice p 4 1, parameter := slice p 5 4, value := [], terminator := [], checksum := [] }
  | .nd =>
    if p = [Config.ack] ∨ p = [nak.byte] then
      { address := [], command := slice p 0 1, parameter := [], value := [], terminator := [], checksum := [] }
    else
      { address := [], command := [], parameter := slice p 0 4, value := slice p 4 (p.length - 6),
        terminator := slice p (p.length - 2) 1, checksum := slice p (p.length - 1) 1 }

/-- The fields a message was built from. A control byte is given as its command. -/
def messageFields : Message → MessageFields
  | .masterWrite address parameter value checksum =>
    { address := address.toList, command := [Config.cmdWrite], parameter := parameter.toList, value := value,
      terminator := [Config.term], checksum := [checksum] }
  | .masterQuery address command parameter =>
    { address := address.toList, command := [command], parameter := parameter.toList, value := [], terminator := [],
      checksum := [] }
  | .nodeControl b => { address := [], command := [b], parameter := [], value := [], terminator := [], checksum := [] }
  | .nodeResponse parameter value checksum =>
    { address := [], command := [], parameter := parameter.toList, value := value, terminator := [Config.term],
      checksum := [checksum] }

end Sys2Proof.Machine
end

