-- ==== Sys2Proof/Machine/Ports.lean ====
section
/-!
DEFINITION. The block's ports (30_encoding.md R120): the strobes of one step as the requests they present together, and the
outputs as functions of the state. The pseudo-operations FEED, FLUSH and DRAIN of R119, as the events they expand to.
-/

namespace Sys2Proof.Machine

/-- The input ports of R120 in one step. `cfg_t_ib` and `cfg_nak` are held constant during a run: they are `State.cfg`. -/
structure InputPorts where
  rst : Bool
  mValid : Bool
  mByte : Byte
  mTs : Timestamp
  nValid : Bool
  nByte : Byte
  nTs : Timestamp
  mTick : Bool
  nTick : Bool
  now : Timestamp
  popReq : Bool
  deriving DecidableEq, Repr

/-- One request if the strobe is asserted. -/
def strobe (asserted : Bool) (ev : Event) : List Request := if asserted then [requestOf ev] else []

/-- The requests of one step: strobes asserted together present simultaneous events (R120, R7). -/
def portRequests (p : InputPorts) : List Request :=
  strobe p.rst .reset ++ strobe p.mValid (.byte .m p.mByte p.mTs) ++ strobe p.nValid (.byte .nd p.nByte p.nTs) ++
    strobe p.mTick (.tick .m p.now) ++ strobe p.nTick (.tick .nd p.now) ++ strobe p.popReq .pop

/-- `drop_count`, readable at any time (R120, R45). -/
def dropCountPort (s : State) : DropCount := s.drops

/-- `q_len`, readable at any time (R120, R45). -/
def qLenPort (s : State) : Nat := s.count

/-- `pop_valid` and `pop_entry` of a POP's result (R120): `pop_valid = 0` is `none`. -/
def popPort : Result → Option Entry
  | .entry e => some e
  | .none => none
  | .dropCount _ => none
  | .length _ => none

/-- Present events one after the other, each in a step of its own, after what is presented already. -/
def present (evs : List Event) (s : State) : State :=
  { s with inbox := s.inbox ++ evs.map (fun ev => [requestOf ev]) }

/-- `FEED.c @t0 +d : b0 b1 ... bk` (R119). -/
def feed (c : Role) (d : Timestamp) : Timestamp → List Byte → List Event
  | _, [] => []
  | t, b :: bs => .byte c b t :: feed c d (t + d) bs

/-- BYTE events on one channel, each byte with its own timestamp. -/
def bytesAt (c : Role) (ts : List Timestamp) (bs : List Byte) : List Event := List.zipWith (fun b t => Event.byte c b t) bs ts

/-- `FLUSH.c @t`: another spelling of TICK.c (R119). -/
def flush (c : Role) (t : Timestamp) : Event := .tick c t

/-- `DRAIN` (R119) of a queue that holds `n` entries: POP until a POP returns `none`, that one included. -/
def drain (n : Nat) : List Event := List.replicate (n + 1) .pop

end Sys2Proof.Machine
end

