-- ==== Sys2Proof/Machine/Table.lean ====
section
/-!
DEFINITION. The transition table as ONE pure function of `(phase, role, byte)` (40_capture_assembler.md section 9, 10_state.md
R38) and the BYTE event of R141 written over it: the reference that the rows of exec, one by one, must agree with.
-/

namespace Sys2Proof.Machine

/-- `row(c, ph, cnt, b)` (R141 step 4; the summary of section 9): `none` in the cells section 9 calls unreachable (R115 c). -/
def transition (nak : NakByte) (c : Role) (ph : Phase) (cnt : BitVec 2) (b : Byte) : Option RowOutcome :=
  match c, ph with
  | .m, .idle => some (.next .addr 1)
  | .m, .addr => some (if cnt = 3 then .next .cmd 0 else .next .addr (cnt + 1))
  | .m, .cmd => some (if b = Config.cmdWrite then .next .paramV 0 else .next .paramQ 0)
  | .m, .paramV => some (if cnt = 3 then .next .value 0 else .next .paramV (cnt + 1))
  | .m, .paramQ => some (if cnt = 3 then .done .terminator else .next .paramQ (cnt + 1))
  | .m, .value => some (if b = Config.term then .next .cksum 0 else .next .value 0)
  | .m, .cksum => some (.done .terminator)
  | .nd, .idle => some (if b = Config.ack ∨ b = nak.byte then .done .controlByte else .next .paramV 1)
  | .nd, .addr => none
  | .nd, .cmd => none
  | .nd, .paramV => some (if cnt = 3 then .next .value 0 else .next .paramV (cnt + 1))
  | .nd, .paramQ => none
  | .nd, .value => some (if b = Config.term then .next .cksum 0 else .next .value 0)
  | .nd, .cksum => some (.done .terminator)

/-- BYTE.c as R141 writes it, its five steps in order, over the transition function. -/
def byteEvent (c : Role) (b : Byte) (ts : Timestamp) (s : State) : Host.Outcome State Fault Refusal :=
  match timeoutCheck c ts s with
  | .error f => .fault f
  | .ok s1 =>
    match transition s.cfg.nak c (s1.chan c).ph (s1.chan c).cnt b with
    | none => .refused .reservedKey
    | some outcome =>
      match append c b ts s1 with
      | .error f => .fault f
      | .ok s2 => settle (conclude c outcome s2)

end Sys2Proof.Machine
end

