-- ==== Sys2Proof/Machine/Trace.lean ====
section
/-!
DEFINITION. The trace syntax (30_encoding.md R118): one operation per line, a byte in hexadecimal, a timestamp in decimal after @.
It has no behaviour.
-/

namespace Sys2Proof.Machine

/-- A hexadecimal digit in capitals. -/
def hexDigit (n : Nat) : String :=
  if n < 10 then toString n else String.singleton (Char.ofNat (55 + n))

/-- A byte as two hexadecimal digits. -/
def hexByte (b : Byte) : String := hexDigit (b.toNat / 16) ++ hexDigit (b.toNat % 16)

/-- A role as a mnemonic's suffix writes it. -/
def roleSuffix : Role → String
  | .m => "M"
  | .nd => "Nd"

/-- A reason by its name (R103). -/
def reasonName : Reason → String
  | .terminator => "Terminator"
  | .controlByte => "ControlByte"
  | .lengthExceeded => "LengthExceeded"
  | .interByteTimeout => "InterByteTimeout"

/-- An entry written as R118 writes it; the two braces are characters 123 and 125. -/
def entryText (e : Entry) : String :=
  String.singleton (Char.ofNat 123) ++ "role=" ++ roleSuffix e.role ++ ", reason=" ++ reasonName e.reason ++
    ", ts=" ++ toString e.ts.toNat ++ ", len=" ++ toString e.len ++ ", data=[" ++
    String.intercalate " " (e.data.map hexByte) ++ "]" ++ String.singleton (Char.ofNat 125)

/-- An event's trace line (R118). -/
def eventText : Event → String
  | .reset => "RESET"
  | .byte c b ts => "BYTE." ++ roleSuffix c ++ " 0x" ++ hexByte b ++ " @" ++ toString ts.toNat
  | .tick c now => "TICK." ++ roleSuffix c ++ " @" ++ toString now.toNat
  | .pop => "POP"
  | .rddrop => "RDDROP"
  | .rdlen => "RDLEN"
  | .push e => "PUSH " ++ entryText e

/-- A result as R118 writes it after the arrow. -/
def resultText : Result → String
  | .entry e => "-> " ++ entryText e
  | .none => "-> none"
  | .dropCount d => "-> " ++ toString d.toNat
  | .length n => "-> " ++ toString n

end Sys2Proof.Machine
end

