-- ==== Sys2Proof/Safety.lean ====
section
/-!
DEFINITION. What claims about the block are stated in: the invariants of 10_state.md R37, R41, R43, R52 and
41_encoder_queue.md R212, the queue as a list of entries (R211), quiescence (70_reset_and_hazards.md R297), and the good runs of
60_exceptions.md R255.
-/

namespace Sys2Proof.Machine

/-- A channel's phase, in-phase counter and payload length fit together: R37 a, b, d, e, f, g, h. -/
def positionOk (c : Role) (ph : Phase) (cnt : BitVec 2) (len : Nat) : Bool :=
  match c, ph with
  | _, .idle => decide (len = 0) && cnt == 0
  | .m, .addr => decide (1 ≤ len) && decide (len ≤ 3) && decide (cnt.toNat = len)
  | .m, .cmd => decide (len = 4) && cnt == 0
  | .m, .paramV => decide (5 ≤ len) && decide (len ≤ 8) && decide (cnt.toNat = len - 5)
  | .m, .paramQ => decide (5 ≤ len) && decide (len ≤ 8) && decide (cnt.toNat = len - 5)
  | .m, .value => decide (9 ≤ len) && cnt == 0
  | .m, .cksum => decide (9 ≤ len) && cnt == 0
  | .nd, .addr => false
  | .nd, .cmd => false
  | .nd, .paramV => decide (1 ≤ len) && decide (len ≤ 3) && decide (cnt.toNat = len)
  | .nd, .paramQ => false
  | .nd, .value => decide (4 ≤ len) && cnt == 0
  | .nd, .cksum => decide (4 ≤ len) && cnt == 0

/-- A channel between events: R37 a to h, its buffer in canonical form and inside `0 .. N-1` (R74), and every cell below `len`
written (R39, R52). -/
abbrev ChannelInv (cfg : Config) (c : Role) (ch : Channel) : Prop :=
  positionOk c ch.ph ch.cnt ch.len = true ∧ ch.len < cfg.n ∧ Memory.wf ch.buf = true ∧ Memory.inside cfg.n ch.buf = true ∧
    ∀ i < ch.len, (Memory.read ch.buf i).isSome = true

/-- The slot index of the `i`-th entry held, oldest first (R41). -/
def State.slotIndex (s : State) (i : Nat) : Nat := (s.head + i) % s.cfg.qcap

/-- Slot `k` is occupied (R41): one of `slot[(head + i) mod QCAP]`, `i` in `0 .. count-1`. -/
abbrev State.occupied (s : State) (k : Nat) : Prop := ∃ i < s.count, s.slotIndex i = k

/-- The entries held, oldest first: the queue as a list (R211). -/
def State.contents (s : State) : List (Option Entry) :=
  (List.range s.count).map (fun i => s.entryAt (s.slotIndex i))

/-- A slot that is being filled by a producer. -/
abbrev State.filling (s : State) (k : Nat) : Prop :=
  (∃ w ∈ s.fillM, w.slot = k) ∨ (∃ w ∈ s.fillNd, w.slot = k)

/-- The queue's registers and slots (R40, R41, R43, R212), for both levels: `rsv = count <= QCAP`, `head` in range, the slot
array in canonical form and inside `0 .. QCAP-1`, and for every slot: published exactly when it is occupied and no producer is
filling it; a published slot holds a whole entry of R106; in an unoccupied slot nothing is written. -/
abbrev QueueInv (s : State) : Prop :=
  s.count ≤ s.cfg.qcap ∧ s.head < s.cfg.qcap ∧ s.rsv = s.count ∧ s.pub.length = s.cfg.qcap ∧
    Memory.wf s.slots = true ∧ Memory.inside s.cfg.qcap s.slots = true ∧
    ∀ k < s.cfg.qcap,
      (s.pub.getD k false = true ↔ s.occupied k ∧ ¬ s.filling k) ∧
      (s.pub.getD k false = true →
        ∃ e ∈ s.entryAt k, e.wellFormed s.cfg = true ∧ Memory.read s.slots k = some (entrySlot e)) ∧
      (¬ s.occupied k → Memory.read s.slots k = none)

/-- No producer is inside a PUSH: the atomic level (R223). -/
abbrev State.atomicLevel (s : State) : Prop := s.fillM = none ∧ s.fillNd = none

/-- Something is written in the slot, and all that is written in it are fields of `e` (R214). -/
def Slot.partOf (sl : Slot) (e : Entry) : Bool :=
  sl != Slot.blank && (sl.role.isNone || sl.role == some e.role) && (sl.reason.isNone || sl.reason == some e.reason) &&
    (sl.ts.isNone || sl.ts == some e.ts) && (sl.len.isNone || sl.len == some e.len) && Memory.wf sl.data &&
    sl.data.all (fun c => e.data[c.1]? == some c.2)

/-- A producer's PUSH in progress is of a slot that is occupied, of an entry of R106, and nothing but fields of that entry is
written in the slot (R77, R213, R214). -/
abbrev State.fillOk (s : State) (w : Fill) : Prop :=
  s.occupied w.slot ∧ w.slot < s.cfg.qcap ∧ w.entry.wellFormed s.cfg = true ∧
    ∀ sl ∈ Memory.read s.slots w.slot, sl.partOf w.entry = true

/-- Each producer's PUSH in progress is as `fillOk` says, and the two are of different slots (R77). -/
abbrev FillInv (s : State) : Prop :=
  (∀ w ∈ s.fillM, s.fillOk w) ∧ (∀ w ∈ s.fillNd, s.fillOk w) ∧ ∀ w ∈ s.fillM, ∀ v ∈ s.fillNd, w.slot ≠ v.slot

/-- The invariant of the fine level. -/
abbrev FineInv (s : State) : Prop := QueueInv s ∧ FillInv s

/-- The invariant of the block between atomic events. -/
abbrev Inv (s : State) : Prop :=
  ChannelInv s.cfg .m s.m ∧ ChannelInv s.cfg .nd s.nd ∧ QueueInv s ∧ s.atomicLevel

/-- What the agents present is what R6 and R100 let them present. -/
abbrev InboxOk (s : State) : Prop := ∀ batch ∈ s.inbox, ∀ r ∈ batch, r.wellFormed s.cfg = true

/-- Quiescence (R297): both assemblers idle and the queue empty. -/
abbrev State.quiescent (s : State) : Prop := s.m.ph = .idle ∧ s.nd.ph = .idle ∧ s.count = 0

/-- "No frame was lost" between two states of a run (R255): `drops` unchanged. -/
abbrev noFrameLost (s t : State) : Prop := t.drops = s.drops

/-- "Every frame was well-formed" (R255), of one popped entry: its reason is one of the two normal ones (R241). -/
def entryWellEnded (e : Entry) : Bool := e.reason == .terminator || e.reason == .controlByte

/-- The bytes of channel `c` that an event presents (R173). -/
def bytesOf (c : Role) : Event → List Byte
  | .byte c' b _ => if c' = c then [b] else []
  | .reset => []
  | .tick _ _ => []
  | .pop => []
  | .rddrop => []
  | .rdlen => []
  | .push _ => []

/-- The payload under assembly of channel `c`, where it is readable (R173: `buf[c][0 .. len[c]-1]`). -/
def State.partialOf (s : State) (c : Role) : List Byte := (s.chan c).payload.getD []

/-- The payloads of channel `c`'s entries, one after the other (R173). -/
def payloadsOf (c : Role) (es : List Entry) : List Byte :=
  (es.filter (fun e => e.role == c)).flatMap Entry.data

/-- Serve events one after the other, each presented by its own agent (R6, R7). -/
def runEvents : List Event → State → Host.Outcome State Fault Refusal
  | [], s => .next s
  | ev :: evs, s =>
    match serve (requestOf ev) s with
    | .next t => runEvents evs t
    | .fault f => .fault f
    | .refused r => .refused r

/-- Execute instructions one after the other. -/
def runInstrs : List Instr → State → Host.Outcome State Fault Refusal
  | [], s => .next s
  | i :: is, s =>
    match exec i s with
    | .next t => runInstrs is t
    | .fault f => .fault f
    | .refused r => .refused r

/-- An event of a run that an agent outside the block presents, RESET apart: a run holds none (00_scope.md section 6, "Run"). -/
def withinRun : Event → Bool
  | .byte _ _ _ => true
  | .tick _ _ => true
  | .pop => true
  | .rddrop => true
  | .rdlen => true
  | .reset => false
  | .push _ => false

/-- The entries among results, in order: what the consumer has received. -/
def entriesOf (rs : List Result) : List Entry := rs.filterMap popPort

/-- A byte can be accepted on channel `c` at time `ts` without a timeout: the pre-check of R142 finds none, and the payload has
room (R37 c). -/
abbrev State.ready (s : State) (c : Role) (ts : Timestamp) : Prop :=
  (s.chan c).timedOut s.cfg ts = false ∧ (s.chan c).len < s.cfg.n

/-- In this state the event's key word matches `(pattern, mask)`, and the table reads the event as the instruction `i`
(R110, R114). -/
abbrev State.selects (s : State) (ev : Event) (pattern mask : Key) (i : Instr) : Prop :=
  (codeOf ev s).key &&& mask = pattern ∧ fetch ev s = .ok i

/-- What a BYTE does once its row has spoken (R141 steps 2, 3 and 5), where the pre-check found no timeout and the bytes under
assembly are `p`: the byte is appended; a natural end completes with its reason, the byte included; otherwise a payload that has
reached `N` bytes completes with LengthExceeded; otherwise the phase advances. -/
def State.afterRow (s : State) (c : Role) (b : Byte) (ts : Timestamp) (p : List Byte) (row : RowOutcome) : State :=
  let ch := s.chan c
  let taken : Channel :=
    { ch with
      startTs := if ch.ph = .idle then ts else ch.startTs
      buf := Memory.write ch.buf ch.len b
      len := ch.len + 1
      lastTs := ts }
  let ended (reason : Reason) : State :=
    (s.push { role := c, reason := reason, ts := taken.startTs, data := p ++ [b] }).setChan c
      { taken with ph := .idle, cnt := 0, len := 0 }
  match row with
  | .done reason => ended reason
  | .next ph cnt =>
    if ch.len + 1 = s.cfg.n then ended .lengthExceeded else s.setChan c { taken with ph := ph, cnt := cnt }

/-- "No gap between its bytes reaches `T_IB`" (95_test_vectors.md S1): each timestamp is less than `T_IB` after the one before. -/
def gapsBelow (tIb : Timestamp) : List Timestamp → Bool
  | [] => true
  | [_] => true
  | a :: b :: rest => decide (elapsed a b < tIb) && gapsBelow tIb (b :: rest)

/-- Push entries one after the other (R205, R206). -/
def pushAll (es : List Entry) (s : State) : State := es.foldl State.push s

/-- The queue's part of two states is the same. -/
abbrev sameQueue (s t : State) : Prop :=
  t.slots = s.slots ∧ t.head = s.head ∧ t.count = s.count ∧ t.drops = s.drops ∧ t.rsv = s.rsv ∧ t.pub = s.pub ∧
    t.fillM = s.fillM ∧ t.fillNd = s.fillNd

/-- The parameters and the model's own fields of two states are the same: nothing but `emitted` may differ between events. -/
abbrev sameSurround (s t : State) : Prop :=
  t.cfg = s.cfg ∧ t.inbox = s.inbox ∧ t.choice = s.choice

end Sys2Proof.Machine
end

