-- ==== Sys2Proof/Certificates/Slice0/Obligations.lean ====
section
/-!
DEFINITION. The statements of this row, from the numbered rules of spec/. Each docstring names the rule it formalises.
-/

open Sys2Proof Sys2Proof.Machine

/-! ### The key word and the table -/

/-- Words of 95_test_vectors.md section 2.8 and of R116, decoded. -/
def Obligations.TableWordsDecode : Prop :=
  ∀ t : Timestamp,
    decode .x15 { key := 0x2202, operand := .time t } = .ok (.byteMCmdWr t) ∧
    decode .x15 { key := 0x2203, operand := .time t } = .ok (.byteMCmdQry 0x03 t) ∧
    decode .x15 { key := 0x2503, operand := .time t } = .ok (.byteMValTerm t) ∧
    decode .x15 { key := 0x2C44, operand := .time t } = .ok (.byteMParqL 0x44 t) ∧
    decode .x15 { key := 0x3006, operand := .time t } = .ok (.byteNdIdleAck t) ∧
    decode .x15 { key := 0x3B43, operand := .time t } = .ok (.byteNdParvL 0x43 t) ∧
    decode .x15 { key := 0x3015, operand := .time t } = .ok (.byteNdIdleNak15 t) ∧
    decode .x21 { key := 0x3015, operand := .time t } = .ok (.byteNdIdle 0x15 t) ∧
    decode .x15 { key := 0x5000, operand := .time t } = .ok (.tickNd t) ∧
    decode .x15 { key := 0x6000, operand := .none } = .ok .pop ∧
    decode .x15 { key := 0xE000, operand := .none } = .error .reservedOperation ∧
    decode .x15 { key := 0x3100, operand := .time t } = .error .reservedKey ∧
    decode .x15 { key := 0x2A00, operand := .time t } = .error .reservedKey

/-- R110 to R116: no bit of an encoding is dropped, for every well-formed instruction and every configuration. -/
def Obligations.DecodeOfEncode : Prop :=
  ∀ (cfg : Config) (i : Instr), i.wellFormed cfg = true → decode cfg.nak (encode i) = .ok i

/-- R114: the decoded row matches the key and is enabled; every other row that does so has fewer mask bits, and is one of the
overlaps R114 lists; of the NAK rows exactly the one whose byte is the configured NAK is enabled. -/
def Obligations.MostSpecificRowWins : Prop :=
  ∀ (nak : NakByte) (code : Code) (i : Instr), decode nak code = .ok i →
    code.key &&& i.row.pattern.2 = i.row.pattern.1 ∧
    (i.row = .byteNdIdleNak15 → nak.byte = 0x15) ∧ (i.row = .byteNdIdleNak21 → nak.byte = 0x21) ∧
    ∀ r : RowName, r ≠ i.row → code.key &&& r.pattern.2 = r.pattern.1 →
      (r = .byteNdIdleNak15 → nak.byte = 0x15) → (r = .byteNdIdleNak21 → nak.byte = 0x21) →
      r.maskBits < i.row.maskBits ∧
        ((i.row, r) = (.byteMCmdWr, .byteMCmdQry) ∨ (i.row, r) = (.byteMValTerm, .byteMVal) ∨
          (i.row, r) = (.byteNdValTerm, .byteNdVal) ∨ (i.row, r) = (.byteNdIdleAck, .byteNdIdle) ∨
          (i.row, r) = (.byteNdIdleNak15, .byteNdIdle) ∨ (i.row, r) = (.byteNdIdleNak21, .byteNdIdle))

/-- R115 a and c: operation code 7 and the unreachable BYTE keys name no instruction, whatever the operand. -/
def Obligations.ReservedKeysAreRefused : Prop :=
  ∀ (nak : NakByte) (operand : Operand) (role : BitVec 1) (last : Bool) (ph : BitVec 3) (b : Byte),
    decode nak { key := keyWord 7 role last ph b, operand := operand } = .error .reservedOperation ∧
    ((ph = 7 ∨ (role = 1 ∧ (ph = 1 ∨ ph = 2 ∨ ph = 4)) ∨ (last = true ∧ (ph = 0 ∨ ph = 2 ∨ ph = 5 ∨ ph = 6))) →
      decode nak { key := keyWord 1 role last ph b, operand := operand } = .error .reservedKey)

/-- R115: every byte value is legal in every reachable role and phase; the instruction it selects is well formed and is a row of
that channel's BYTE with that byte and timestamp. -/
def Obligations.EveryByteSelectsARow : Prop :=
  ∀ (cfg : Config) (c : Role) (ph : Phase) (cnt : BitVec 2) (len : Nat) (b : Byte) (ts : Timestamp),
    positionOk c ph cnt len = true →
    ∃ i, decode cfg.nak (byteCode c (lastByte ph cnt) ph b ts) = .ok i ∧ i.wellFormed cfg = true ∧
      eventOf i = .byte c b ts

/-- R106: an entry is read back from its slot word at the bit positions of the table, whatever fills the unspecified bytes. -/
def Obligations.SlotWordRoundTrip : Prop :=
  ∀ (cfg : Config) (dead : Nat → Byte) (e : Entry), e.len ≤ cfg.n →
    Entry.ofSlotWord cfg (e.slotWord cfg dead) = e

/-! ### One step -/

/-- R7, R110: one presented event is decoded under the configured NAK and executed; with nothing presented the block stays as it
is; an empty batch is a step with no strobe. -/
def Obligations.StepRunsTheDecodedInstruction : Prop :=
  (∀ (s : State) (r : Request) (later : List (List Request)) (i : Instr),
    s.inbox = [r] :: later → r.issuer.mayIssue r.event = true → decode s.cfg.nak (codeOf r.event s) = .ok i →
    step s = exec i { s with inbox := later }) ∧
  (∀ s : State, s.inbox = [] → step s = .next s) ∧
  (∀ (s : State) (later : List (List Request)), s.inbox = [] :: later → step s = .next { s with inbox := later })

/-- R7, R246: of events presented together one is served, and the others stay presented; which one is left open. -/
def Obligations.SimultaneousEventsInSomeOrder : Prop :=
  ∀ (s : State) (batch : List Request) (later : List (List Request)), s.inbox = batch :: later → 2 ≤ batch.length →
    ∃ (k : Nat) (hk : k < batch.length),
      step s = serve batch[k] { s with inbox := batch.eraseIdx k :: later, choice := s.choice + 1 }

/-- R115 b, R219, R290, U4, U6 (log entry 7): a PUSH from outside and a POP by another agent than the consumer are refused, and
so is a BYTE, TICK or RESET from an agent that R6 does not give it. -/
def Obligations.ForbiddenIssuersAreRefused : Prop :=
  ∀ (s : State) (a : Agent) (ev : Event) (later : List (List Request)), s.inbox = [{ issuer := a, event := ev }] :: later →
    (∀ e, ev = .push e → a ≠ .block → step s = .refused .pushFromOutside) ∧
    (ev = .pop → a ≠ .consumer → step s = .refused .popNotByConsumer) ∧
    (∀ b ts, ev = .byte .m b ts → a ≠ .masterProducer → step s = .refused .foreignIssuer) ∧
    (∀ b ts, ev = .byte .nd b ts → a ≠ .nodeProducer → step s = .refused .foreignIssuer) ∧
    (∀ c now, ev = .tick c now → a ≠ .timer → step s = .refused .foreignIssuer) ∧
    (ev = .reset → a ≠ .resetSource → step s = .refused .foreignIssuer)

/-! ### The BYTE rows -/

/-- R148, R149: the address bytes of a Master frame after its first. -/
def Obligations.MasterAddressBytes : Prop :=
  ∀ (s : State) (b : Byte) (ts : Timestamp) (p : List Byte), s.ready .m ts → s.m.payload = some p → s.m.ph = .addr →
    (s.m.cnt ≠ 3 → s.selects (.byte .m b ts) 0x2100 0xFF00 (.byteMAddr b ts) ∧
      exec (.byteMAddr b ts) s = .next (s.afterRow .m b ts p (.next .addr (s.m.cnt + 1)))) ∧
    (s.m.cnt = 3 → s.selects (.byte .m b ts) 0x2900 0xFF00 (.byteMAddrL b ts) ∧
      exec (.byteMAddrL b ts) s = .next (s.afterRow .m b ts p (.next .cmd 0)))

/-- R150: the command byte 2 denotes a write. -/
def Obligations.MasterWriteCommand : Prop :=
  ∀ (s : State) (ts : Timestamp) (p : List Byte), s.ready .m ts → s.m.payload = some p → s.m.ph = .cmd →
    s.selects (.byte .m 0x02 ts) 0x2202 0xFFFF (.byteMCmdWr ts) ∧
    exec (.byteMCmdWr ts) s = .next (s.afterRow .m 0x02 ts p (.next .paramV 0))

/-- R152, R153, R154: the parameter bytes of a Master frame, but for the last of a query. -/
def Obligations.MasterParameterBytes : Prop :=
  ∀ (s : State) (b : Byte) (ts : Timestamp) (p : List Byte), s.ready .m ts → s.m.payload = some p →
    (s.m.ph = .paramV → s.m.cnt ≠ 3 → s.selects (.byte .m b ts) 0x2300 0xFF00 (.byteMParv b ts) ∧
      exec (.byteMParv b ts) s = .next (s.afterRow .m b ts p (.next .paramV (s.m.cnt + 1)))) ∧
    (s.m.ph = .paramV → s.m.cnt = 3 → s.selects (.byte .m b ts) 0x2B00 0xFF00 (.byteMParvL b ts) ∧
      exec (.byteMParvL b ts) s = .next (s.afterRow .m b ts p (.next .value 0))) ∧
    (s.m.ph = .paramQ → s.m.cnt ≠ 3 → s.selects (.byte .m b ts) 0x2400 0xFF00 (.byteMParq b ts) ∧
      exec (.byteMParq b ts) s = .next (s.afterRow .m b ts p (.next .paramQ (s.m.cnt + 1))))

/-- R156, R158: the terminator and the checksum of a Master write. -/
def Obligations.MasterTerminatorAndChecksum : Prop :=
  ∀ (s : State) (b : Byte) (ts : Timestamp) (p : List Byte), s.ready .m ts → s.m.payload = some p →
    (s.m.ph = .value → s.selects (.byte .m 0x03 ts) 0x2503 0xFFFF (.byteMValTerm ts) ∧
      exec (.byteMValTerm ts) s = .next (s.afterRow .m 0x03 ts p (.next .cksum 0))) ∧
    (s.m.ph = .cksum → s.selects (.byte .m b ts) 0x2600 0xFF00 (.byteMCksum b ts) ∧
      exec (.byteMCksum b ts) s = .next (s.afterRow .m b ts p (.done .terminator)))

/-- R159, R160, R161: the first byte of a Node frame. -/
def Obligations.NodeFirstByte : Prop :=
  ∀ (s : State) (b : Byte) (ts : Timestamp) (p : List Byte), s.ready .nd ts → s.nd.payload = some p → s.nd.ph = .idle →
    (s.selects (.byte .nd 0x06 ts) 0x3006 0xFFFF (.byteNdIdleAck ts) ∧
      exec (.byteNdIdleAck ts) s = .next (s.afterRow .nd 0x06 ts p (.done .controlByte))) ∧
    (s.cfg.nak = .x15 → s.selects (.byte .nd 0x15 ts) 0x3015 0xFFFF (.byteNdIdleNak15 ts) ∧
      exec (.byteNdIdleNak15 ts) s = .next (s.afterRow .nd 0x15 ts p (.done .controlByte))) ∧
    (s.cfg.nak = .x21 → s.selects (.byte .nd 0x21 ts) 0x3021 0xFFFF (.byteNdIdleNak21 ts) ∧
      exec (.byteNdIdleNak21 ts) s = .next (s.afterRow .nd 0x21 ts p (.done .controlByte))) ∧
    (b ≠ 0x06 → b ≠ s.cfg.nak.byte → s.selects (.byte .nd b ts) 0x3000 0xFF00 (.byteNdIdle b ts) ∧
      exec (.byteNdIdle b ts) s = .next (s.afterRow .nd b ts p (.next .paramV 1)))

/-- R162, R163: the parameter phase of a Node response. -/
def Obligations.NodeParameterPhase : Prop :=
  ∀ (s : State) (b : Byte) (ts : Timestamp) (p : List Byte), s.ready .nd ts → s.nd.payload = some p → s.nd.ph = .paramV →
    (s.nd.cnt ≠ 3 → s.selects (.byte .nd b ts) 0x3300 0xFF00 (.byteNdParv b ts) ∧
      exec (.byteNdParv b ts) s = .next (s.afterRow .nd b ts p (.next .paramV (s.nd.cnt + 1)))) ∧
    (s.nd.cnt = 3 → s.selects (.byte .nd b ts) 0x3B00 0xFF00 (.byteNdParvL b ts) ∧
      exec (.byteNdParvL b ts) s = .next (s.afterRow .nd b ts p (.next .value 0)))

/-- R165, R166: the value bytes and the checksum of a Node response. -/
def Obligations.NodeValueAndChecksum : Prop :=
  ∀ (s : State) (b : Byte) (ts : Timestamp) (p : List Byte), s.ready .nd ts → s.nd.payload = some p →
    (s.nd.ph = .value → b ≠ 0x03 → s.selects (.byte .nd b ts) 0x3500 0xFF00 (.byteNdVal b ts) ∧
      exec (.byteNdVal b ts) s = .next (s.afterRow .nd b ts p (.next .value 0))) ∧
    (s.nd.ph = .cksum → s.selects (.byte .nd b ts) 0x3600 0xFF00 (.byteNdCksum b ts) ∧
      exec (.byteNdCksum b ts) s = .next (s.afterRow .nd b ts p (.done .terminator)))

/-- The rows that the spec marks as its own decisions (92_eei_decisions.md): no first Master byte is special (D28: "Any byte
received in `IDLE` on the Master channel is address byte 0"), every command but 2 is a query (D10), a query ends with Terminator
(D11), the value phase has no bound but N (D13), a Node response ends at its terminator and one byte (D14). -/
def Obligations.RowsTheSpecDecides : Prop :=
  ∀ (s : State) (b : Byte) (ts : Timestamp) (p q : List Byte),
    (s.ready .m ts → s.m.payload = some p →
      (s.m.ph = .idle → s.selects (.byte .m b ts) 0x2000 0xFF00 (.byteMIdle b ts) ∧
        exec (.byteMIdle b ts) s = .next (s.afterRow .m b ts p (.next .addr 1))) ∧
      (s.m.ph = .cmd → b ≠ 0x02 → s.selects (.byte .m b ts) 0x2200 0xFF00 (.byteMCmdQry b ts) ∧
        exec (.byteMCmdQry b ts) s = .next (s.afterRow .m b ts p (.next .paramQ 0))) ∧
      (s.m.ph = .paramQ → s.m.cnt = 3 → s.selects (.byte .m b ts) 0x2C00 0xFF00 (.byteMParqL b ts) ∧
        exec (.byteMParqL b ts) s = .next (s.afterRow .m b ts p (.done .terminator))) ∧
      (s.m.ph = .value → b ≠ 0x03 → s.selects (.byte .m b ts) 0x2500 0xFF00 (.byteMVal b ts) ∧
        exec (.byteMVal b ts) s = .next (s.afterRow .m b ts p (.next .value 0)))) ∧
    (s.ready .nd ts → s.nd.payload = some q →
      (s.nd.ph = .value → s.selects (.byte .nd 0x03 ts) 0x3503 0xFFFF (.byteNdValTerm ts) ∧
        exec (.byteNdValTerm ts) s = .next (s.afterRow .nd 0x03 ts q (.next .cksum 0))))

/-- R142 with its decisions D8 ("a gap of exactly `T_IB` is a timeout") and D9: a byte that comes `T_IB` or more after its
predecessor completes the old frame without itself and is then handled from IDLE: the row runs on the state in which that frame
has been completed. In IDLE the test is not made: `last_ts` is not read. -/
def Obligations.LateByteStartsANewFrame : Prop :=
  ∀ (s : State) (i : Instr) (c : Role) (b : Byte) (ts : Timestamp), eventOf i = .byte c b ts →
    (∀ p, (s.chan c).ph ≠ .idle → s.cfg.tIb ≤ ts - (s.chan c).lastTs → (s.chan c).payload = some p →
      (s.completed c .interByteTimeout p).chan c = { s.chan c with ph := .idle, cnt := 0, len := 0 } ∧
      sameQueue (s.push { role := c, reason := .interByteTimeout, ts := (s.chan c).startTs, data := p })
        (s.completed c .interByteTimeout p) ∧
      exec i s = exec i (s.completed c .interByteTimeout p)) ∧
    (∀ x, (s.chan c).ph = .idle → exec i (s.setChan c { s.chan c with lastTs := x }) = exec i s)

/-- R141: serving a BYTE event, row by row through the table and exec, is the five steps of R141 over the pure transition
function of section 9, in every state, faults and refusals included. -/
def Obligations.ByteIsTheTransitionTable : Prop :=
  ∀ (s : State) (c : Role) (b : Byte) (ts : Timestamp), serve (requestOf (.byte c b ts)) s = byteEvent c b ts s

/-- R143, R144: what a BYTE leaves in its own channel's registers and buffer. The byte is stored at the length the
channel has after the timeout pre-check, every other cell reads as before, the timestamps are as the rules say, and the length
has grown by one or the frame has completed. -/
def Obligations.ByteChannelFrame : Prop :=
  ∀ (s t : State) (i : Instr) (c : Role) (b : Byte) (ts : Timestamp),
    eventOf i = .byte c b ts → exec i s = .next t →
    let before := (s.chan c).afterCheck s.cfg ts
    (t.chan c).lastTs = ts ∧
    (t.chan c).startTs = (if before.ph = .idle then ts else (s.chan c).startTs) ∧
    Memory.read (t.chan c).buf before.len = some b ∧
    (∀ a, a ≠ before.len → Memory.read (t.chan c).buf a = Memory.read (s.chan c).buf a) ∧
    (((t.chan c).len = before.len + 1) ∨ ((t.chan c).ph = .idle ∧ (t.chan c).cnt = 0 ∧ (t.chan c).len = 0))

/-- The model's stop (log entry 11, DEDUCED from R114 and R115): where no timeout has passed, a BYTE row that the event does not
select in this state is refused by name, whatever its operands. -/
def Obligations.RowNotSelectedIsRefused : Prop :=
  ∀ (s : State) (i : Instr) (c : Role) (b : Byte) (ts : Timestamp), eventOf i = .byte c b ts →
    (s.chan c).timedOut s.cfg ts = false → fetch (.byte c b ts) s ≠ .ok i → exec i s = .refused .rowNotSelected

/-- R167, R168 with decision D9 ("The event is the spec's device for a timer that D00 implies but does not describe"): a TICK of
a channel whose timeout has passed completes its frame with InterByteTimeout; any other TICK changes nothing. -/
def Obligations.TickCompletesTimedOutFrames : Prop :=
  ∀ (s : State) (now : Timestamp) (p q : List Byte),
    s.selects (.tick .m now) 0x4000 0xF000 (.tickM now) ∧ s.selects (.tick .nd now) 0x5000 0xF000 (.tickNd now) ∧
    (s.m.ph ≠ .idle → s.cfg.tIb ≤ now - s.m.lastTs → s.m.payload = some p →
      exec (.tickM now) s =
        .next ((s.push { role := .m, reason := .interByteTimeout, ts := s.m.startTs, data := p }).setChan .m
          { s.m with ph := .idle, cnt := 0, len := 0 })) ∧
    (s.m.ph = .idle ∨ now - s.m.lastTs < s.cfg.tIb → exec (.tickM now) s = .next s) ∧
    (s.nd.ph ≠ .idle → s.cfg.tIb ≤ now - s.nd.lastTs → s.nd.payload = some q →
      exec (.tickNd now) s =
        .next ((s.push { role := .nd, reason := .interByteTimeout, ts := s.nd.startTs, data := q }).setChan .nd
          { s.nd with ph := .idle, cnt := 0, len := 0 })) ∧
    (s.nd.ph = .idle ∨ now - s.nd.lastTs < s.cfg.tIb → exec (.tickNd now) s = .next s)

/-- R171: the elapsed-time test is unsigned and modulo 2^64; it is the true elapsed time when time does not go backwards, and
`2^64 - (t1 - t2)` when it does. -/
def Obligations.ElapsedTimeIsModular : Prop :=
  ∀ (cfg : Config) (ch : Channel) (t2 : Timestamp), ch.ph ≠ .idle →
    (ch.timedOut cfg t2 = true ↔ cfg.tIb.toNat ≤ (t2.toNat + 2 ^ 64 - ch.lastTs.toNat) % 2 ^ 64) ∧
    (ch.lastTs.toNat ≤ t2.toNat → (ch.timedOut cfg t2 = true ↔ cfg.tIb.toNat ≤ t2.toNat - ch.lastTs.toNat)) ∧
    (t2.toNat < ch.lastTs.toNat → cfg.tIb.toNat ≤ 2 ^ 64 - (ch.lastTs.toNat - t2.toNat) → ch.timedOut cfg t2 = true)

/-! ### The queue, the encoder, RESET -/

/-- R205: PUSH on a queue that is not full stores the entry at the tail; `head`, `drops` and every other slot are unchanged. -/
def Obligations.PushStoresAtTheTail : Prop :=
  ∀ (s : State) (e : Entry), s.count < s.cfg.qcap →
    ∃ t, s.selects (.push e) 0xC000 0xE000 (.push e) ∧ exec (.push e) s = .next t ∧
      t.entryAt ((s.head + s.count) % s.cfg.qcap) = some e ∧
      (∀ k, k ≠ (s.head + s.count) % s.cfg.qcap → Memory.read t.slots k = Memory.read s.slots k) ∧
      t.count = s.count + 1 ∧ t.head = s.head ∧ t.drops = s.drops ∧ t.m = s.m ∧ t.nd = s.nd ∧ t.emitted = s.emitted ∧
      t.fillM = s.fillM ∧ t.fillNd = s.fillNd ∧ sameSurround s t ∧
      t.empty = false ∧ (t.full = true ↔ t.count = t.cfg.qcap)

/-- R206 with its decisions D17 (drop-newest) and D18 (the counter wraps), and R208 with its decision D30 ("Returns `none` at
once; no state change"): PUSH on a full queue drops the incoming entry and counts it; POP on an empty queue returns `none`. -/
def Obligations.FullQueueDropsEmptyQueueReturnsNone : Prop :=
  ∀ (s : State) (e : Entry),
    s.selects (.push e) 0xC000 0xE000 (.push e) ∧ s.selects .pop 0x6000 0xE000 .pop ∧
    (s.count = s.cfg.qcap → exec (.push e) s = .next { s with drops := s.drops + 1 }) ∧
    (s.count = 0 → exec .pop s = .next { s with emitted := s.emitted ++ [.none] })

/-- R207: POP returns the oldest entry and frees its slot; `drops` and the other slots are unchanged. -/
def Obligations.PopReturnsTheOldest : Prop :=
  ∀ (s : State) (e : Entry), 0 < s.count → s.entryAt s.head = some e →
    ∃ t, s.selects .pop 0x6000 0xE000 .pop ∧ exec .pop s = .next t ∧
      t.head = (s.head + 1) % s.cfg.qcap ∧ t.count = s.count - 1 ∧ t.emitted = s.emitted ++ [.entry e] ∧
      (∀ k, k ≠ s.head → Memory.read t.slots k = Memory.read s.slots k) ∧
      t.drops = s.drops ∧ t.m = s.m ∧ t.nd = s.nd ∧ t.fillM = s.fillM ∧ t.fillNd = s.fillNd ∧ sameSurround s t ∧
      (s.count ≤ s.cfg.qcap → t.full = false) ∧ (t.empty = true ↔ t.count = 0)

/-- The model's own reading (log entries 12 and 15, DEDUCED from R43 and U8): at the atomic level `rsv` and `pub` follow PUSH and
POP, and a freed slot holds no entry. -/
def Obligations.ReservationsFollowTheQueue : Prop :=
  (∀ (s : State) (e : Entry), s.count < s.cfg.qcap →
    ∃ t, exec (.push e) s = .next t ∧ t.rsv = s.rsv + 1 ∧ t.pub = s.pub.set ((s.head + s.count) % s.cfg.qcap) true) ∧
  (∀ (s : State) (e : Entry), 0 < s.count → s.entryAt s.head = some e → Memory.wf s.slots = true →
    ∃ t, exec .pop s = .next t ∧ t.rsv = s.rsv - 1 ∧ t.pub = s.pub.set s.head false ∧ Memory.read t.slots s.head = none)

/-- R209: RDDROP, issued by any agent, returns `drops` and changes nothing. -/
def Obligations.ReadDropCounter : Prop :=
  ∀ (s : State) (a : Agent),
    s.selects .rddrop 0x8000 0xE000 .rddrop ∧
    exec .rddrop s = .next { s with emitted := s.emitted ++ [.dropCount s.drops] } ∧
    serve { issuer := a, event := .rddrop } s = .next { s with emitted := s.emitted ++ [.dropCount s.drops] }

/-- R210 with what it derives from R212 ("the result is always in `0 .. QCAP`"): RDLEN returns `count`, changes nothing. -/
def Obligations.ReadLength : Prop :=
  ∀ (s : State),
    s.selects .rdlen 0xA000 0xE000 .rdlen ∧
    exec .rdlen s = .next { s with emitted := s.emitted ++ [.length s.count] } ∧
    (Inv s → ∃ n ≤ s.cfg.qcap, exec .rdlen s = .next { s with emitted := s.emitted ++ [.length n] })

/-- R280 with the values R51 gives (decision D20: "The table of `10_state.md` rule R51"); the cells R51 calls unspecified are not spoken of. The parameters, the events still
presented and the results already returned are kept (R51 for the parameters; log entry 10 for the rest). -/
def Obligations.ResetWritesTheStatedValues : Prop :=
  ∀ (s : State), ∃ t, s.selects .reset 0x0000 0xE000 .reset ∧ exec .reset s = .next t ∧
    t.m.ph = .idle ∧ t.nd.ph = .idle ∧ t.m.cnt = 0 ∧ t.nd.cnt = 0 ∧ t.m.len = 0 ∧ t.nd.len = 0 ∧
    t.head = 0 ∧ t.count = 0 ∧ t.drops = 0 ∧ t.rsv = 0 ∧ (∀ k, t.pub.getD k false = false) ∧
    t.cfg = s.cfg ∧ t.inbox = s.inbox ∧ t.emitted = s.emitted ∧ t.choice = s.choice

/-- R280's example and R281: from any state, RESET, then RDLEN, RDDROP and POP return 0, 0 and `none`. -/
def Obligations.AfterResetTheQueueIsEmpty : Prop :=
  ∀ (s : State), ∃ t, runInstrs [.reset, .rdlen, .rddrop, .pop] s = .next t ∧
    t.emitted = s.emitted ++ [.length 0, .dropCount 0, .none] ∧ t.quiescent

/-- R200, R201, R202, R203, R204, R105, R107: the entry of a Frame and the Capture Record it stands for. -/
def Obligations.CaptureRecordOfAFrame : Prop :=
  ∀ (cfg : Config) (f : Frame),
    let e := encodeFrame f
    let r := captureRecord cfg e
    e.role = f.role ∧ e.reason = f.reason ∧ e.ts = f.startTimestamp ∧ e.data = f.payload ∧ e.len = f.payload.length ∧
    r.payload = f.payload ∧ r.port = 422 ∧
    r.usec ≤ 999999 ∧ r.sec * 1000000 + r.usec = f.startTimestamp.toNat ∧
    r.src = (if f.role = .m then cfg.addrLoop else cfg.addrPeer) ∧
    r.dst = (if f.role = .m then cfg.addrPeer else cfg.addrLoop) ∧ r.src ≠ r.dst

/-! ### What each event touches -/

/-- R175: an event of one channel neither reads nor writes the other channel: replacing the other channel's whole state changes
nothing but that state. -/
def Obligations.ChannelsAreIndependent : Prop :=
  ∀ (s t : State) (i : Instr) (c d : Role) (ch : Channel), d ≠ c →
    ((∃ b ts, eventOf i = .byte c b ts) ∨ (∃ now, eventOf i = .tick c now)) → exec i s = .next t →
    t.chan d = s.chan d ∧ exec i (s.setChan d ch) = .next (t.setChan d ch)

/-- R47, with PUSH performed inside BYTE and TICK: which instruction may write which state. -/
def Obligations.OnlyOwnersWrite : Prop :=
  ∀ (s t : State) (i : Instr), exec i s = .next t → i ≠ .reset →
    (∀ c, (∀ b ts, eventOf i ≠ .byte c b ts) → (∀ now, eventOf i ≠ .tick c now) → t.chan c = s.chan c) ∧
    (i ≠ .pop → t.head = s.head) ∧
    (i ≠ .pop → t.count = s.count ∨ t.count = s.count + 1 ∨ t.count = s.count + 2) ∧
    (i = .pop ∨ i = .rddrop ∨ i = .rdlen → t.drops = s.drops) ∧
    (i = .rddrop ∨ i = .rdlen → t.count = s.count ∧ t.slots = s.slots) ∧
    (i ≠ .pop → i ≠ .rddrop → i ≠ .rdlen → t.emitted = s.emitted) ∧
    t.fillM = s.fillM ∧ t.fillNd = s.fillNd ∧ sameSurround s t

/-- R141, R146, R205, R296: a BYTE pushes at most two entries and a TICK at most one, and pushes are all that happens to the
queue: every slot but the tails they store at reads as before. -/
def Obligations.ByteAndTickQueueFrame : Prop :=
  ∀ (s t : State) (i : Instr) (c : Role), exec i s = .next t →
    ((∃ b ts, eventOf i = .byte c b ts) ∨ (∃ now, eventOf i = .tick c now)) →
    ∃ es : List Entry, es.length ≤ 2 ∧ ((∃ now, eventOf i = .tick c now) → es.length ≤ 1) ∧
      (∀ e ∈ es, e.role = c) ∧ sameQueue (pushAll es s) t ∧
      ∀ k, (∀ j < es.length, k ≠ (s.head + s.count + j) % s.cfg.qcap) → Memory.read t.slots k = Memory.read s.slots k

/-- R9, R82: the parameters are constant: no step changes them, in any state. -/
def Obligations.ParametersAreConstant : Prop :=
  ∀ (s t : State), step s = .next t → t.cfg = s.cfg

/-! ### Invariants of the block -/

/-- The invariant holds after reset, whatever the parameters. -/
def Obligations.InvariantAtReset : Prop :=
  ∀ cfg : Config, Inv (State.resetWith cfg) ∧ InboxOk (State.resetWith cfg)

/-- R37 a to h, R41, R43, R52, R74, R212: every step keeps the invariant, from every state that has it. -/
def Obligations.StepKeepsTheInvariant : Prop :=
  ∀ (s t : State), Inv s → InboxOk s → step s = .next t → Inv t ∧ InboxOk t

/-- R240: "every operation is total on every reachable state": no step faults and none is refused. -/
def Obligations.NothingTraps : Prop :=
  ∀ (s : State), Inv s → InboxOk s → ∃ t, step s = .next t

/-- R212, R41: the queue never exceeds its capacity, in any state that starts within it. -/
def Obligations.QueueNeverOverCapacity : Prop :=
  ∀ (s t : State), s.count ≤ s.cfg.qcap → step s = .next t → t.count ≤ t.cfg.qcap

/-- The memories, the bytes written in each slot among them, keep their canonical form through every step, in any state. -/
def Obligations.MemoriesStayCanonical : Prop :=
  ∀ (s t : State), Memory.wf s.m.buf = true → Memory.wf s.nd.buf = true → Memory.wf s.slots = true →
    (∀ c ∈ s.slots, Memory.wf c.2.data = true) → step s = .next t →
    Memory.wf t.m.buf = true ∧ Memory.wf t.nd.buf = true ∧ Memory.wf t.slots = true ∧
      ∀ c ∈ t.slots, Memory.wf c.2.data = true

/-- R102, R106, R204: every entry a POP returns holds a Frame of 1 to `N` bytes. -/
def Obligations.PoppedEntriesAreWholeFrames : Prop :=
  ∀ (s : State), Inv s → 0 < s.count →
    ∃ t e, exec .pop s = .next t ∧ t.emitted = s.emitted ++ [.entry e] ∧ 1 ≤ e.len ∧ e.len ≤ s.cfg.n

/-! ### Laws of the whole machine -/

/-- R211: the queue as a list. A PUSH that is not a drop appends, a drop leaves the list, a POP takes the first. -/
def Obligations.QueueIsAFifo : Prop :=
  ∀ (s : State), QueueInv s → s.atomicLevel →
    (∀ e, s.count < s.cfg.qcap → (s.push e).contents = s.contents ++ [some e]) ∧
    (∀ e, s.count = s.cfg.qcap → (s.push e).contents = s.contents) ∧
    (0 < s.count → ∃ t e, exec .pop s = .next t ∧ s.contents = some e :: t.contents ∧
      t.emitted = s.emitted ++ [.entry e])

/-- R222: a burst into an empty queue keeps the first `QCAP` entries in order and drops the rest, each counted. -/
def Obligations.BurstKeepsTheFirst : Prop :=
  ∀ (s : State) (es : List Entry), QueueInv s → s.atomicLevel → s.count = 0 →
    ∃ t, runInstrs (es.map Instr.push) s = .next t ∧
      t.contents = (es.take s.cfg.qcap).map some ∧ t.drops = s.drops + BitVec.ofNat 32 (es.length - s.cfg.qcap)

/-- R172, R173 for one event: the payloads of the frames an event completes, followed by what is then under assembly, are what
was under assembly followed by the byte the event presented. -/
def Obligations.EventConservesBytes : Prop :=
  ∀ (s t : State) (i : Instr) (c : Role), Inv s → exec i s = .next t →
    ((∃ b ts, eventOf i = .byte c b ts) ∨ (∃ now, eventOf i = .tick c now)) →
    ∃ es : List Entry, es.length ≤ 2 ∧ sameQueue (pushAll es s) t ∧ (∀ e ∈ es, e.role = c ∧ e.wellFormed s.cfg = true) ∧
      es.flatMap Entry.data ++ t.partialOf c = s.partialOf c ++ bytesOf c (eventOf i)

/-- R173, R211, R221, for every run of events of the agents: every byte presented on a channel is in exactly one completed frame
or still under assembly, in order; every completed frame was stored or dropped, each drop counted; the consumer has received, in
order, the stored entries that the queue no longer holds. -/
def Obligations.RunConservesBytesAndFrames : Prop :=
  ∀ (s : State) (evs : List Event), Inv s → s.inbox = [] → evs.all withinRun = true →
    ∃ (t : State) (es stored : List Entry) (rs : List Result),
      Host.Core.run Sys2Proof.core evs.length (present evs s) = .next t ∧ Inv t ∧ t.inbox = [] ∧
      (∀ c, payloadsOf c es ++ t.partialOf c = s.partialOf c ++ evs.flatMap (bytesOf c)) ∧
      (∀ e ∈ es, e.wellFormed s.cfg = true) ∧ stored.Sublist es ∧ t.drops = s.drops + BitVec.ofNat 32 (es.length - stored.length) ∧
      t.emitted = s.emitted ++ rs ∧
      s.contents ++ stored.map some = (entriesOf rs).map some ++ t.contents

/-- R246: a TICK and a BYTE of one channel at the same instant give the same result in either order, in every state. -/
def Obligations.TickAndByteCommute : Prop :=
  ∀ (s : State) (c : Role) (b : Byte) (ts : Timestamp),
    runEvents [.tick c ts, .byte c b ts] s = runEvents [.byte c b ts, .tick c ts] s ∧
    runEvents [.tick c ts, .byte c b ts] s = runEvents [.byte c b ts] s

/-- R109, R117, R172 (S1, S2; decisions D10, D11, D14): a well-formed message that fits, fed byte by byte to an idle channel at
any times whose gaps are below `T_IB` ("no gap between its bytes reaches `T_IB`"), is captured as one entry with exactly its bytes,
its first byte's timestamp and its natural reason. FEED (R119) is the case of equally spaced times. -/
def Obligations.WellFormedMessagesAreCaptured : Prop :=
  (∀ (s : State) (msg : Message) (t0 : Timestamp) (later : List Timestamp), Inv s → messageWellFormed s.cfg.nak msg = true →
    (messageBytes msg).length ≤ s.cfg.n → (t0 :: later).length = (messageBytes msg).length →
    gapsBelow s.cfg.tIb (t0 :: later) = true → (s.chan (messageRole msg)).ph = .idle →
    ∃ t, runEvents (bytesAt (messageRole msg) (t0 :: later) (messageBytes msg)) s = .next t ∧
      sameQueue
        (s.push { role := messageRole msg, reason := messageReason msg, ts := t0, data := messageBytes msg }) t ∧
      (t.chan (messageRole msg)).ph = .idle ∧ (t.chan (messageRole msg)).len = 0 ∧ Inv t) ∧
  ∀ (c : Role) (d t0 : Timestamp) (bs : List Byte),
    feed c d t0 bs = bytesAt c ((List.range bs.length).map (fun k => t0 + BitVec.ofNat 64 k * d)) bs

/-- R109, R204 (S3): the fields read at the fixed offsets from the Capture Record's payload are those of the message. -/
def Obligations.FieldsSurviveTheCapture : Prop :=
  ∀ (cfg : Config) (msg : Message) (ts : Timestamp), messageWellFormed cfg.nak msg = true →
    readFields cfg.nak (messageRole msg)
      (captureRecord cfg
        (encodeFrame { role := messageRole msg, payload := messageBytes msg, startTimestamp := ts,
                       reason := messageReason msg })).payload = messageFields msg

/-- R289, R297: once each channel is idle or its timeout has passed, a TICK of each and a DRAIN bring the block to quiescence. -/
def Obligations.TicksAndDrainReachQuiescence : Prop :=
  ∀ (s : State) (tm tn : Timestamp), Inv s →
    (s.m.ph = .idle ∨ s.cfg.tIb ≤ tm - s.m.lastTs) → (s.nd.ph = .idle ∨ s.cfg.tIb ≤ tn - s.nd.lastTs) →
    ∃ t, runEvents ([flush .m tm, flush .nd tn] ++ drain s.cfg.qcap) s = .next t ∧ t.quiescent

/-- R120 (decision D2): "A strobe asserted for one step presents one event": an event is presented exactly when its strobe is
asserted, once, by its own agent, with the operands at its ports, and no other event is; the outputs are the results of RDDROP and
RDLEN, and of POP, where no valid entry is `none`. -/
def Obligations.PortsPresentTheirOwnAgents : Prop :=
  (∀ (cfg : Config) (p : InputPorts),
    (requestOf .reset ∈ portRequests p ↔ p.rst = true) ∧
    (∀ b ts, requestOf (.byte .m b ts) ∈ portRequests p ↔ p.mValid = true ∧ b = p.mByte ∧ ts = p.mTs) ∧
    (∀ b ts, requestOf (.byte .nd b ts) ∈ portRequests p ↔ p.nValid = true ∧ b = p.nByte ∧ ts = p.nTs) ∧
    (∀ now, requestOf (.tick .m now) ∈ portRequests p ↔ p.mTick = true ∧ now = p.now) ∧
    (∀ now, requestOf (.tick .nd now) ∈ portRequests p ↔ p.nTick = true ∧ now = p.now) ∧
    (requestOf .pop ∈ portRequests p ↔ p.popReq = true) ∧
    (∀ r ∈ portRequests p, r.wellFormed cfg = true ∧ r = requestOf r.event ∧
      r.event ≠ .rddrop ∧ r.event ≠ .rdlen ∧ ∀ e, r.event ≠ .push e) ∧
    (portRequests p).Nodup ∧ (portRequests p).length ≤ 6) ∧
  ∀ s : State,
    exec .rddrop s = .next (s.emit (.dropCount (dropCountPort s))) ∧ exec .rdlen s = .next (s.emit (.length (qLenPort s))) ∧
    (s.count = 0 → ∃ r, exec .pop s = .next (s.emit r) ∧ popPort r = none) ∧
    (∀ e, 0 < s.count → s.entryAt s.head = some e →
      ∃ t r, exec .pop s = .next t ∧ t.emitted = s.emitted ++ [r] ∧ popPort r = some e)

/-! ### The fine level -/

/-- R213: the reserve judges fullness on the reserved slots and claims the tail, or drops and counts. A producer inside a PUSH
does not reserve again (R285). -/
def Obligations.ReserveClaimsTheTail : Prop :=
  ∀ (s : State) (c : Role) (e : Entry), s.fillOf c = none →
    (s.rsv = s.cfg.qcap → fineStep (.reserve c e) s = .next { s with drops := s.drops + 1 }) ∧
    (s.rsv < s.cfg.qcap → ∃ t w, fineStep (.reserve c e) s = .next t ∧
      t.fillOf c = some w ∧ w.slot = (s.head + s.rsv) % s.cfg.qcap ∧ w.entry = e ∧ t.rsv = s.rsv + 1 ∧
      (∀ d, d ≠ c → t.fillOf d = s.fillOf d) ∧ t.slots = s.slots ∧ t.pub = s.pub ∧ t.head = s.head ∧ t.drops = s.drops ∧
      t.m = s.m ∧ t.nd = s.nd ∧ t.emitted = s.emitted ∧ sameSurround s t)

/-- R214, R215, R216, as the model renders them. After its reserve a producer writes fields of its slot, in any order and in any
number of steps: each step puts the entry's values into those of the fields it names that the entry has, whether they were written
before or not, and touches nothing else; meanwhile no step of another agent changes the slot, and a POP that meets it does not
read it. The publish, allowed once every field is written, sets the slot's `pub`, and whoever sees it set sees the whole entry.
The form of a fill step is log entry 13; that a named `data[i]` with `len <= i < N`, a byte R106 and U8 only call unspecified,
leaves no trace is log entry 16; that a POP is one step is log entry 29. -/
def Obligations.FillAndPublishASlot : Prop :=
  (∀ (s : State) (c : Role) (w : Fill) (fs : List Field), s.fillOf c = some w → (∀ i, Field.data i ∈ fs → i < s.cfg.n) →
    ∃ t, fineStep (.fill c fs) s = .next t ∧
      (t.slotAt w.slot).role = (if Field.role ∈ fs then some w.entry.role else (s.slotAt w.slot).role) ∧
      (t.slotAt w.slot).reason = (if Field.reason ∈ fs then some w.entry.reason else (s.slotAt w.slot).reason) ∧
      (t.slotAt w.slot).ts = (if Field.ts ∈ fs then some w.entry.ts else (s.slotAt w.slot).ts) ∧
      (t.slotAt w.slot).len = (if Field.len ∈ fs then some w.entry.len else (s.slotAt w.slot).len) ∧
      (∀ i, Memory.read (t.slotAt w.slot).data i =
        if Field.data i ∈ fs ∧ i < w.entry.len then w.entry.data[i]? else Memory.read (s.slotAt w.slot).data i) ∧
      (∀ k, k ≠ w.slot → Memory.read t.slots k = Memory.read s.slots k) ∧ t = { s with slots := t.slots }) ∧
  (∀ (s t : State) (c : Role) (w : Fill) (op : FineOp), FineInv s → s.fillOf c = some w → op.producer ≠ some c →
    fineStep op s = .next t →
    Memory.read t.slots w.slot = Memory.read s.slots w.slot ∧ t.fillOf c = some w ∧
      (op = .pop → s.head = w.slot → t = { s with emitted := s.emitted ++ [.none] })) ∧
  (∀ (s : State) (c : Role) (w : Fill), FineInv s → s.fillOf c = some w →
    (∀ f ∈ entryFields w.entry, (s.slotAt w.slot).has f = true) →
    ∃ t, fineStep (.publish c) s = .next t ∧ t.pub.getD w.slot false = true ∧ t.entryAt w.slot = some w.entry ∧
      (∀ k, k ≠ w.slot → t.pub.getD k false = s.pub.getD k false) ∧ t.fillOf c = none ∧
      (∀ d, d ≠ c → t.fillOf d = s.fillOf d) ∧ t.slots = s.slots ∧ t.head = s.head ∧ t.count = s.count ∧ t.rsv = s.rsv ∧
      t.drops = s.drops ∧ t.m = s.m ∧ t.nd = s.nd ∧ t.emitted = s.emitted ∧ sameSurround s t)

/-- R216: the fine-level POP stops at the first unpublished slot; otherwise it takes `slot[head]`, clears its `pub` and frees it. -/
def Obligations.FinePopTakesAPublishedSlot : Prop :=
  ∀ (s : State),
    (s.rsv = 0 ∨ s.pub.getD s.head false = false →
      fineStep .pop s = .next { s with emitted := s.emitted ++ [.none] }) ∧
    (∀ e, 0 < s.rsv → s.pub.getD s.head false = true → s.entryAt s.head = some e →
      ∃ t, fineStep .pop s = .next t ∧ t.pub = s.pub.set s.head false ∧ t.head = (s.head + 1) % s.cfg.qcap ∧
        t.rsv = s.rsv - 1 ∧ t.emitted = s.emitted ++ [.entry e] ∧
        (∀ k, k ≠ s.head → Memory.read t.slots k = Memory.read s.slots k) ∧
        t.drops = s.drops ∧ t.m = s.m ∧ t.nd = s.nd ∧ t.fillM = s.fillM ∧ t.fillNd = s.fillNd ∧ sameSurround s t)

/-- R213, R214, R215, R223: from an atomic-level state a reserve, fill steps that between them write every field of the entry, in
any order, in any number of steps and any field more than once, and a publish make exactly the atomic PUSH; on a full queue the
reserve alone does. -/
def Obligations.ReserveFillPublishIsPush : Prop :=
  ∀ (s : State) (c : Role) (e : Entry) (fills : List (List Field)), Inv s →
    (∀ f ∈ entryFields e, f ∈ fills.flatten) → (∀ i, Field.data i ∈ fills.flatten → i < s.cfg.n) →
    (s.count < s.cfg.qcap →
      fineRun (.reserve c e :: (fills.map (FineOp.fill c) ++ [.publish c])) s = .next (s.push e)) ∧
    (s.count = s.cfg.qcap → fineRun [.reserve c e] s = .next (s.push e))

/-- R214, R223, R248: a PUSH of the other producer nested anywhere between this one's reserve and its publish, each filling its
slot in any number of steps, leaves the queue as two atomic PUSHes in the order of the reservations. -/
def Obligations.NestedPushesKeepReservationOrder : Prop :=
  ∀ (s : State) (c d : Role) (e e' : Entry) (before after fills : List (List Field)), Inv s → d ≠ c →
    (∀ f ∈ entryFields e, f ∈ (before ++ after).flatten) → (∀ f ∈ entryFields e', f ∈ fills.flatten) →
    (∀ i, Field.data i ∈ (before ++ after ++ fills).flatten → i < s.cfg.n) → s.count + 2 ≤ s.cfg.qcap →
    fineRun
      (.reserve c e :: (before.map (FineOp.fill c) ++
        (.reserve d e' :: (fills.map (FineOp.fill d) ++ [.publish d])) ++
        after.map (FineOp.fill c) ++ [.publish c])) s = .next ((s.push e).push e')

/-- R216, R223: with no producer inside a PUSH, the fine-level POP is the atomic POP. -/
def Obligations.FinePopAgrees : Prop :=
  ∀ (s : State), Inv s → fineStep .pop s = exec .pop s

/-- R43, R77, R213 to R216: every fine-level step keeps the fine level's invariant, whatever the interleaving. -/
def Obligations.FineStepsKeepTheInvariant : Prop :=
  ∀ (s t : State) (op : FineOp), FineInv s → (∀ c e, op = .reserve c e → e.wellFormed s.cfg = true) →
    fineStep op s = .next t → FineInv t

/-- R216, R79, R291: "the consumer never observes a partially written record": a fine-level POP never stops, and returns either
`none` or a whole entry from a slot no producer is filling. -/
def Obligations.ConsumerSeesOnlyWholeRecords : Prop :=
  ∀ (s : State), FineInv s →
    ∃ t, fineStep .pop s = .next t ∧
      (t.emitted = s.emitted ++ [.none] ∧ sameQueue s t ∨
        ∃ e, t.emitted = s.emitted ++ [.entry e] ∧ Memory.read s.slots s.head = some (entrySlot e) ∧ e.wellFormed s.cfg = true ∧
          ¬ s.filling s.head)

/-- R224, R285, R291: what the protocol forbids stops by name: a second reserve of a producer inside its PUSH (U3), a write or a
publish without a reserved slot, a publish before the last field is written. That each of these is a refusal, and that a fill of
`data[i]` with `i >= N`, a cell R106 gives no slot, is a fault, is the model's own choice (log entry 14). -/
def Obligations.ForbiddenFineStepsAreRefused : Prop :=
  ∀ (s : State) (c : Role) (e : Entry) (fs : List Field) (w : Fill),
    (s.fillOf c = some w → fineStep (.reserve c e) s = .refused .producerBusy) ∧
    (s.fillOf c = none → fineStep (.fill c fs) s = .refused .nothingReserved) ∧
    (s.fillOf c = none → fineStep (.publish c) s = .refused .nothingReserved) ∧
    (∀ i, s.fillOf c = some w → Field.data i ∈ fs → s.cfg.n ≤ i → fineStep (.fill c fs) s = .fault .slotFieldOutOfRange) ∧
    (∀ f, s.fillOf c = some w → f ∈ entryFields w.entry → (s.slotAt w.slot).has f = false →
      fineStep (.publish c) s = .refused .publishBeforeFill)
end

