-- ==== Sys2Proof/Laws/Memory.lean ====
section
/-!
SUPPORT. The laws of the memories: a read after a write, other cells left alone, and that every operation keeps the canonical
form and the bounds.
-/

namespace Sys2Proof.Machine

variable {α : Type}

@[simp] theorem Memory.read_nil (a : Nat) : Memory.read ([] : List (Nat × α)) a = none := rfl

/-- A cell reads as the value just written. -/
@[simp] theorem Memory.read_write_same (mem : List (Nat × α)) (a : Nat) (v : α) :
    Memory.read (Memory.write mem a v) a = some v := by
  induction mem with
  | nil => simp [Memory.write, Memory.read]
  | cons cell rest ih =>
    obtain ⟨b, w⟩ := cell
    by_cases h1 : a < b
    · simp [Memory.write, Memory.read, h1]
    · by_cases h2 : a = b
      · simp [Memory.write, Memory.read, h2]
      · simp [Memory.write, Memory.read, h1, h2, ih]

/-- A write leaves every other cell alone. -/
theorem Memory.read_write_other (mem : List (Nat × α)) (a b : Nat) (v : α) (h : b ≠ a) :
    Memory.read (Memory.write mem a v) b = Memory.read mem b := by
  induction mem with
  | nil => simp [Memory.write, Memory.read, h]
  | cons cell rest ih =>
    obtain ⟨k, w⟩ := cell
    by_cases h1 : a < k
    · simp [Memory.write, Memory.read, h1, h]
    · by_cases h2 : a = k
      · subst h2; simp [Memory.write, Memory.read, h]
      · simp [Memory.write, Memory.read, h1, h2, ih]

/-- Every index listed in `mem` is above `a`. -/
def Memory.above (a : Nat) (mem : List (Nat × α)) : Prop := ∀ c ∈ mem, a < c.1

/-- The canonical form, cell by cell: the first index is below all the others. -/
theorem Memory.wf_cons (a : Nat) (v : α) (rest : List (Nat × α)) :
    Memory.wf ((a, v) :: rest) = true ↔ Memory.above a rest ∧ Memory.wf rest = true := by
  induction rest generalizing a v with
  | nil => simp [Memory.wf, Memory.above]
  | cons cell rest ih =>
    obtain ⟨b, w⟩ := cell
    simp only [Memory.wf, Bool.and_eq_true, decide_eq_true_eq]
    constructor
    · rintro ⟨h1, h2⟩
      refine ⟨?_, h2⟩
      intro c hc
      rcases List.mem_cons.mp hc with rfl | hc
      · exact h1
      · exact Nat.lt_trans h1 (((ih b w).mp h2).1 c hc)
    · rintro ⟨h1, h2⟩
      exact ⟨h1 (b, w) (by simp), h2⟩

/-- A cell not above `a` is not listed in a memory above `a`. -/
theorem Memory.read_of_above {a k : Nat} {mem : List (Nat × α)} (h : Memory.above a mem) (hk : k ≤ a) :
    Memory.read mem k = none := by
  induction mem with
  | nil => rfl
  | cons cell rest ih =>
    obtain ⟨b, w⟩ := cell
    have hb : a < b := h (b, w) (by simp)
    have : k ≠ b := by omega
    simp only [Memory.read, if_neg this]
    exact ih (fun c hc => h c (by simp [hc]))

theorem Memory.above_write {a k : Nat} {v : α} {mem : List (Nat × α)} (h : Memory.above a mem) (hk : a < k) :
    Memory.above a (Memory.write mem k v) := by
  induction mem with
  | nil => intro c hc; simp [Memory.write] at hc; subst hc; exact hk
  | cons cell rest ih =>
    obtain ⟨b, w⟩ := cell
    have hrest : Memory.above a rest := fun c hc => h c (by simp [hc])
    have hb : a < b := h (b, w) (by simp)
    intro c hc
    unfold Memory.write at hc
    split at hc
    · rcases List.mem_cons.mp hc with rfl | hc
      · exact hk
      · exact h c hc
    · split at hc
      · rcases List.mem_cons.mp hc with rfl | hc
        · exact hk
        · exact hrest c hc
      · rcases List.mem_cons.mp hc with rfl | hc
        · exact hb
        · exact ih hrest c hc

/-- A write keeps the canonical form. -/
theorem Memory.wf_write (mem : List (Nat × α)) (a : Nat) (v : α) (h : Memory.wf mem = true) :
    Memory.wf (Memory.write mem a v) = true := by
  induction mem with
  | nil => rfl
  | cons cell rest ih =>
    obtain ⟨b, w⟩ := cell
    have ⟨hab, hwf⟩ := (Memory.wf_cons b w rest).mp h
    unfold Memory.write
    split
    · rename_i hlt
      refine (Memory.wf_cons a v _).mpr ⟨?_, h⟩
      intro c hc
      rcases List.mem_cons.mp hc with rfl | hc
      · exact hlt
      · exact Nat.lt_trans hlt (hab c hc)
    · split
      · rename_i heq
        subst heq
        exact (Memory.wf_cons a v rest).mpr ⟨hab, hwf⟩
      · exact (Memory.wf_cons b w _).mpr ⟨Memory.above_write hab (by omega), ih hwf⟩

theorem Memory.mem_erase {a : Nat} {mem : List (Nat × α)} {c : Nat × α} (h : c ∈ Memory.erase mem a) : c ∈ mem := by
  induction mem with
  | nil => simp [Memory.erase] at h
  | cons cell rest ih =>
    unfold Memory.erase at h
    split at h
    · exact List.mem_cons_of_mem _ h
    · rcases List.mem_cons.mp h with rfl | h
      · simp
      · exact List.mem_cons_of_mem _ (ih h)

/-- An erase keeps the canonical form. -/
theorem Memory.wf_erase (mem : List (Nat × α)) (a : Nat) (h : Memory.wf mem = true) :
    Memory.wf (Memory.erase mem a) = true := by
  induction mem with
  | nil => rfl
  | cons cell rest ih =>
    obtain ⟨b, w⟩ := cell
    have ⟨hab, hwf⟩ := (Memory.wf_cons b w rest).mp h
    unfold Memory.erase
    split
    · exact hwf
    · exact (Memory.wf_cons b w _).mpr ⟨fun c hc => hab c (Memory.mem_erase hc), ih hwf⟩

/-- An erased cell of a canonical memory has no value. -/
theorem Memory.read_erase_same (mem : List (Nat × α)) (a : Nat) (h : Memory.wf mem = true) :
    Memory.read (Memory.erase mem a) a = none := by
  induction mem with
  | nil => rfl
  | cons cell rest ih =>
    obtain ⟨b, w⟩ := cell
    have ⟨hab, hwf⟩ := (Memory.wf_cons b w rest).mp h
    unfold Memory.erase
    split
    · rename_i heq
      subst heq
      exact Memory.read_of_above hab (Nat.le_refl a)
    · rename_i hne
      simp [Memory.read, hne, ih hwf]

/-- An erase leaves every other cell alone. -/
theorem Memory.read_erase_other (mem : List (Nat × α)) (a b : Nat) (h : b ≠ a) :
    Memory.read (Memory.erase mem a) b = Memory.read mem b := by
  induction mem with
  | nil => rfl
  | cons cell rest ih =>
    obtain ⟨k, w⟩ := cell
    unfold Memory.erase
    split
    · rename_i heq
      subst heq
      simp [Memory.read, h]
    · by_cases hk : b = k
      · simp [Memory.read, hk]
      · simp [Memory.read, hk, ih]

/-- A write at an index inside the array keeps every cell inside it (R74). -/
theorem Memory.inside_write (n : Nat) (mem : List (Nat × α)) (a : Nat) (v : α) (h : Memory.inside n mem = true) (ha : a < n) :
    Memory.inside n (Memory.write mem a v) = true := by
  induction mem with
  | nil => simp [Memory.write, Memory.inside, ha]
  | cons cell rest ih =>
    obtain ⟨b, w⟩ := cell
    simp only [Memory.inside, List.all_cons, Bool.and_eq_true, decide_eq_true_eq] at h ih ⊢
    unfold Memory.write
    split
    · simp [ha, h]
    · split
      · simp [ha, h.2]
      · simp only [List.all_cons, Bool.and_eq_true, decide_eq_true_eq]
        exact ⟨h.1, ih h.2⟩

/-- An erase keeps every cell inside the array (R74). -/
theorem Memory.inside_erase (n : Nat) (mem : List (Nat × α)) (a : Nat) (h : Memory.inside n mem = true) :
    Memory.inside n (Memory.erase mem a) = true := by
  simp only [Memory.inside, List.all_eq_true] at h ⊢
  exact fun c hc => h c (Memory.mem_erase hc)

/-- Cells below `n` read alike in two memories, so their first `n` cells do. -/
theorem Memory.readUpTo_congr {mem mem' : List (Nat × α)} {n : Nat} (h : ∀ i < n, Memory.read mem i = Memory.read mem' i) :
    Memory.readUpTo mem n = Memory.readUpTo mem' n := by
  induction n with
  | zero => rfl
  | succ n ih =>
    have h1 := ih (fun i hi => h i (by omega))
    have h2 := h n (by omega)
    simp [Memory.readUpTo, h1, h2]

/-- Appending at the end of the first `n` cells (R144, R172). -/
theorem Memory.readUpTo_append {mem : List (Nat × α)} {n : Nat} {vs : List α} (v : α) (h : Memory.readUpTo mem n = some vs) :
    Memory.readUpTo (Memory.write mem n v) (n + 1) = some (vs ++ [v]) := by
  have h1 : Memory.readUpTo (Memory.write mem n v) n = some vs := by
    rw [← h]
    exact Memory.readUpTo_congr (fun i hi => Memory.read_write_other mem n i v (by omega))
  simp [Memory.readUpTo, h1]

/-- The first `n` cells read as `n` values. -/
theorem Memory.length_readUpTo {mem : List (Nat × α)} {n : Nat} {vs : List α} (h : Memory.readUpTo mem n = some vs) :
    vs.length = n := by
  induction n generalizing vs with
  | zero => simp [Memory.readUpTo] at h; simp [← h]
  | succ n ih =>
    unfold Memory.readUpTo at h
    split at h
    · rename_i ws w hws hw
      have := ih hws
      simp only [Option.some.injEq] at h
      simp [← h, this]
    · cases h

/-- The first `n` cells can be read when each of them has been written (R52). -/
theorem Memory.readUpTo_isSome {mem : List (Nat × α)} {n : Nat} (h : ∀ i < n, (Memory.read mem i).isSome = true) :
    ∃ vs, Memory.readUpTo mem n = some vs := by
  induction n with
  | zero => exact ⟨[], rfl⟩
  | succ n ih =>
    obtain ⟨vs, hvs⟩ := ih (fun i hi => h i (by omega))
    obtain ⟨v, hv⟩ := Option.isSome_iff_exists.mp (h n (by omega))
    exact ⟨vs ++ [v], by simp [Memory.readUpTo, hvs, hv]⟩

end Sys2Proof.Machine
end

