-- ==== Sys2Proof/Laws/State.lean ====
section
/-!
SUPPORT. One lemma per field per update of the state, so that no later proof unfolds a record update.
-/

namespace Sys2Proof.Machine

variable (s : State) (c : Role) (ch : Channel) (e : Entry) (r : Result) (f : Option Fill)

/-! ### setChan -/

@[simp] theorem setChan_cfg : (s.setChan c ch).cfg = s.cfg := by cases c <;> rfl
@[simp] theorem setChan_slots : (s.setChan c ch).slots = s.slots := by cases c <;> rfl
@[simp] theorem setChan_head : (s.setChan c ch).head = s.head := by cases c <;> rfl
@[simp] theorem setChan_count : (s.setChan c ch).count = s.count := by cases c <;> rfl
@[simp] theorem setChan_drops : (s.setChan c ch).drops = s.drops := by cases c <;> rfl
@[simp] theorem setChan_rsv : (s.setChan c ch).rsv = s.rsv := by cases c <;> rfl
@[simp] theorem setChan_pub : (s.setChan c ch).pub = s.pub := by cases c <;> rfl
@[simp] theorem setChan_fillM : (s.setChan c ch).fillM = s.fillM := by cases c <;> rfl
@[simp] theorem setChan_fillNd : (s.setChan c ch).fillNd = s.fillNd := by cases c <;> rfl
@[simp] theorem setChan_inbox : (s.setChan c ch).inbox = s.inbox := by cases c <;> rfl
@[simp] theorem setChan_emitted : (s.setChan c ch).emitted = s.emitted := by cases c <;> rfl
@[simp] theorem setChan_choice : (s.setChan c ch).choice = s.choice := by cases c <;> rfl
@[simp] theorem setChan_m_m : (s.setChan .m ch).m = ch := rfl
@[simp] theorem setChan_m_nd : (s.setChan .m ch).nd = s.nd := rfl
@[simp] theorem setChan_nd_m : (s.setChan .nd ch).m = s.m := rfl
@[simp] theorem setChan_nd_nd : (s.setChan .nd ch).nd = ch := rfl
@[simp] theorem chan_m : s.chan .m = s.m := rfl
@[simp] theorem chan_nd : s.chan .nd = s.nd := rfl
@[simp] theorem chan_setChan_same : (s.setChan c ch).chan c = ch := by cases c <;> rfl
theorem chan_setChan_other (c' : Role) (h : c' ≠ c) : (s.setChan c ch).chan c' = s.chan c' := by
  cases c <;> cases c' <;> first | rfl | exact absurd rfl h
@[simp] theorem setChan_chan : s.setChan c (s.chan c) = s := by cases c <;> rfl
@[simp] theorem setChan_setChan (ch' : Channel) : (s.setChan c ch).setChan c ch' = s.setChan c ch' := by cases c <;> rfl

/-! ### emit, drop, store, release -/

@[simp] theorem emit_cfg : (s.emit r).cfg = s.cfg := rfl
@[simp] theorem emit_m : (s.emit r).m = s.m := rfl
@[simp] theorem emit_nd : (s.emit r).nd = s.nd := rfl
@[simp] theorem emit_slots : (s.emit r).slots = s.slots := rfl
@[simp] theorem emit_head : (s.emit r).head = s.head := rfl
@[simp] theorem emit_count : (s.emit r).count = s.count := rfl
@[simp] theorem emit_drops : (s.emit r).drops = s.drops := rfl
@[simp] theorem emit_rsv : (s.emit r).rsv = s.rsv := rfl
@[simp] theorem emit_pub : (s.emit r).pub = s.pub := rfl
@[simp] theorem emit_fillM : (s.emit r).fillM = s.fillM := rfl
@[simp] theorem emit_fillNd : (s.emit r).fillNd = s.fillNd := rfl
@[simp] theorem emit_inbox : (s.emit r).inbox = s.inbox := rfl
@[simp] theorem emit_emitted : (s.emit r).emitted = s.emitted ++ [r] := rfl
@[simp] theorem emit_choice : (s.emit r).choice = s.choice := rfl
@[simp] theorem emit_chan : (s.emit r).chan c = s.chan c := by cases c <;> rfl
@[simp] theorem drop_cfg : (s.drop).cfg = s.cfg := rfl
@[simp] theorem drop_m : (s.drop).m = s.m := rfl
@[simp] theorem drop_nd : (s.drop).nd = s.nd := rfl
@[simp] theorem drop_slots : (s.drop).slots = s.slots := rfl
@[simp] theorem drop_head : (s.drop).head = s.head := rfl
@[simp] theorem drop_count : (s.drop).count = s.count := rfl
@[simp] theorem drop_drops : (s.drop).drops = s.drops + 1 := rfl
@[simp] theorem drop_rsv : (s.drop).rsv = s.rsv := rfl
@[simp] theorem drop_pub : (s.drop).pub = s.pub := rfl
@[simp] theorem drop_fillM : (s.drop).fillM = s.fillM := rfl
@[simp] theorem drop_fillNd : (s.drop).fillNd = s.fillNd := rfl
@[simp] theorem drop_inbox : (s.drop).inbox = s.inbox := rfl
@[simp] theorem drop_emitted : (s.drop).emitted = s.emitted := rfl
@[simp] theorem drop_choice : (s.drop).choice = s.choice := rfl
@[simp] theorem drop_chan : (s.drop).chan c = s.chan c := by cases c <;> rfl
@[simp] theorem store_cfg : (s.store e).cfg = s.cfg := rfl
@[simp] theorem store_m : (s.store e).m = s.m := rfl
@[simp] theorem store_nd : (s.store e).nd = s.nd := rfl
@[simp] theorem store_slots : (s.store e).slots = Memory.write s.slots s.tail (entrySlot e) := rfl
@[simp] theorem store_head : (s.store e).head = s.head := rfl
@[simp] theorem store_count : (s.store e).count = s.count + 1 := rfl
@[simp] theorem store_drops : (s.store e).drops = s.drops := rfl
@[simp] theorem store_rsv : (s.store e).rsv = s.rsv + 1 := rfl
@[simp] theorem store_pub : (s.store e).pub = s.pub.set s.tail true := rfl
@[simp] theorem store_fillM : (s.store e).fillM = s.fillM := rfl
@[simp] theorem store_fillNd : (s.store e).fillNd = s.fillNd := rfl
@[simp] theorem store_inbox : (s.store e).inbox = s.inbox := rfl
@[simp] theorem store_emitted : (s.store e).emitted = s.emitted := rfl
@[simp] theorem store_choice : (s.store e).choice = s.choice := rfl
@[simp] theorem store_chan : (s.store e).chan c = s.chan c := by cases c <;> rfl
@[simp] theorem release_cfg : (s.release).cfg = s.cfg := rfl
@[simp] theorem release_m : (s.release).m = s.m := rfl
@[simp] theorem release_nd : (s.release).nd = s.nd := rfl
@[simp] theorem release_slots : (s.release).slots = Memory.erase s.slots s.head := rfl
@[simp] theorem release_head : (s.release).head = (s.head + 1) % s.cfg.qcap := rfl
@[simp] theorem release_count : (s.release).count = s.count - 1 := rfl
@[simp] theorem release_drops : (s.release).drops = s.drops := rfl
@[simp] theorem release_rsv : (s.release).rsv = s.rsv - 1 := rfl
@[simp] theorem release_pub : (s.release).pub = s.pub.set s.head false := rfl
@[simp] theorem release_fillM : (s.release).fillM = s.fillM := rfl
@[simp] theorem release_fillNd : (s.release).fillNd = s.fillNd := rfl
@[simp] theorem release_inbox : (s.release).inbox = s.inbox := rfl
@[simp] theorem release_emitted : (s.release).emitted = s.emitted := rfl
@[simp] theorem release_choice : (s.release).choice = s.choice := rfl
@[simp] theorem release_chan : (s.release).chan c = s.chan c := by cases c <;> rfl

/-! ### push -/

@[simp] theorem push_cfg : (s.push e).cfg = s.cfg := by unfold State.push; split <;> rfl
@[simp] theorem push_m : (s.push e).m = s.m := by unfold State.push; split <;> rfl
@[simp] theorem push_nd : (s.push e).nd = s.nd := by unfold State.push; split <;> rfl
@[simp] theorem push_head : (s.push e).head = s.head := by unfold State.push; split <;> rfl
@[simp] theorem push_fillM : (s.push e).fillM = s.fillM := by unfold State.push; split <;> rfl
@[simp] theorem push_fillNd : (s.push e).fillNd = s.fillNd := by unfold State.push; split <;> rfl
@[simp] theorem push_inbox : (s.push e).inbox = s.inbox := by unfold State.push; split <;> rfl
@[simp] theorem push_emitted : (s.push e).emitted = s.emitted := by unfold State.push; split <;> rfl
@[simp] theorem push_choice : (s.push e).choice = s.choice := by unfold State.push; split <;> rfl
@[simp] theorem push_chan : (s.push e).chan c = s.chan c := by cases c <;> simp

/-- PUSH on a queue that is not full stores (R205). -/
theorem push_of_lt (h : s.count < s.cfg.qcap) : s.push e = s.store e := by
  have : s.full = false := by simp [State.full, h]
  simp [State.push, this]

/-- PUSH on a full queue drops (R206). -/
theorem push_of_full (h : s.cfg.qcap ≤ s.count) : s.push e = s.drop := by
  have : s.full = true := by simp [State.full, h]
  simp [State.push, this]

/-! ### setFill -/

@[simp] theorem setFill_cfg : (s.setFill c f).cfg = s.cfg := by cases c <;> rfl
@[simp] theorem setFill_m : (s.setFill c f).m = s.m := by cases c <;> rfl
@[simp] theorem setFill_nd : (s.setFill c f).nd = s.nd := by cases c <;> rfl
@[simp] theorem setFill_slots : (s.setFill c f).slots = s.slots := by cases c <;> rfl
@[simp] theorem setFill_head : (s.setFill c f).head = s.head := by cases c <;> rfl
@[simp] theorem setFill_count : (s.setFill c f).count = s.count := by cases c <;> rfl
@[simp] theorem setFill_drops : (s.setFill c f).drops = s.drops := by cases c <;> rfl
@[simp] theorem setFill_rsv : (s.setFill c f).rsv = s.rsv := by cases c <;> rfl
@[simp] theorem setFill_pub : (s.setFill c f).pub = s.pub := by cases c <;> rfl
@[simp] theorem setFill_inbox : (s.setFill c f).inbox = s.inbox := by cases c <;> rfl
@[simp] theorem setFill_emitted : (s.setFill c f).emitted = s.emitted := by cases c <;> rfl
@[simp] theorem setFill_choice : (s.setFill c f).choice = s.choice := by cases c <;> rfl
@[simp] theorem setFill_m_fillM : (s.setFill .m f).fillM = f := rfl
@[simp] theorem setFill_m_fillNd : (s.setFill .m f).fillNd = s.fillNd := rfl
@[simp] theorem setFill_nd_fillM : (s.setFill .nd f).fillM = s.fillM := rfl
@[simp] theorem setFill_nd_fillNd : (s.setFill .nd f).fillNd = f := rfl
@[simp] theorem fillOf_setFill : (s.setFill c f).fillOf c = f := by cases c <;> rfl

/-! ### completed -/

variable (reason : Reason) (p : List Byte)

@[simp] theorem completed_cfg : (s.completed c reason p).cfg = s.cfg := by simp [State.completed]
@[simp] theorem completed_head : (s.completed c reason p).head = s.head := by simp [State.completed]
@[simp] theorem completed_fillM : (s.completed c reason p).fillM = s.fillM := by simp [State.completed]
@[simp] theorem completed_fillNd : (s.completed c reason p).fillNd = s.fillNd := by simp [State.completed]
@[simp] theorem completed_inbox : (s.completed c reason p).inbox = s.inbox := by simp [State.completed]
@[simp] theorem completed_emitted : (s.completed c reason p).emitted = s.emitted := by simp [State.completed]
@[simp] theorem completed_choice : (s.completed c reason p).choice = s.choice := by simp [State.completed]
@[simp] theorem completed_chan : (s.completed c reason p).chan c = (s.chan c).idled := by simp [State.completed]
theorem completed_chan_other (c' : Role) (h : c' ≠ c) : (s.completed c reason p).chan c' = s.chan c' := by
  simp [State.completed, chan_setChan_other, h]

end Sys2Proof.Machine
end

