-- ==== Sys2Proof/Laws/Ops.lean ====
section
/-!
SUPPORT. One lemma for each shared operation, saying once everything it can do.
-/

namespace Sys2Proof.Machine

/-- All that `complete` can do (R146). -/
theorem complete_ok {c : Role} {reason : Reason} {s t : State} :
    complete c reason s = .ok t ↔ ∃ p, (s.chan c).payload = some p ∧ t = s.completed c reason p := by
  unfold complete
  cases (s.chan c).payload with
  | none => simp
  | some p => simp [eq_comm]

/-- All that the timeout check can do (R142, R167, R168). -/
theorem timeoutCheck_ok {c : Role} {now : Timestamp} {s t : State} :
    timeoutCheck c now s = .ok t ↔
      ((s.chan c).timedOut s.cfg now = false ∧ t = s) ∨
      ((s.chan c).timedOut s.cfg now = true ∧
        ∃ p, (s.chan c).payload = some p ∧ t = s.completed c .interByteTimeout p) := by
  unfold timeoutCheck
  cases h : (s.chan c).timedOut s.cfg now with
  | false => simp [eq_comm]
  | true => simp [complete_ok]

/-- All that the append can do (R143, R144). -/
theorem append_ok {c : Role} {b : Byte} {ts : Timestamp} {s t : State} :
    append c b ts s = .ok t ↔ (s.chan c).len < s.cfg.n ∧ t = s.setChan c ((s.chan c).accept b ts) := by
  unfold append
  split <;> simp_all [eq_comm]

/-- All that step 5 of a BYTE can do (R145, R169). -/
theorem conclude_ok {c : Role} {outcome : RowOutcome} {s t : State} :
    conclude c outcome s = .ok t ↔
      (∃ reason, outcome = .done reason ∧ complete c reason s = .ok t) ∨
      (∃ ph cnt, outcome = .next ph cnt ∧ (s.chan c).len = s.cfg.n ∧ complete c .lengthExceeded s = .ok t) ∨
      (∃ ph cnt, outcome = .next ph cnt ∧ (s.chan c).len ≠ s.cfg.n ∧
        t = s.setChan c { s.chan c with ph := ph, cnt := cnt }) := by
  cases outcome with
  | done reason => simp [conclude]
  | next ph cnt =>
    by_cases h : (s.chan c).len = s.cfg.n
    · simp [conclude, h]
    · simp only [conclude, if_neg h, Except.ok.injEq]
      constructor
      · rintro rfl
        exact .inr (.inr ⟨ph, cnt, rfl, h, rfl⟩)
      · rintro (⟨r, h1, -⟩ | ⟨_, _, -, h1, -⟩ | ⟨_, _, h1, -, rfl⟩)
        · cases h1
        · exact absurd h1 h
        · cases h1; rfl

/-- A step's outcome is a next state exactly when the operation ran. -/
theorem settle_next {r : Except Fault State} {t : State} : settle r = .next t ↔ r = .ok t := by
  cases r <;> simp [settle]

/-- All that a BYTE row can do (R141). -/
theorem byteRow_next {c : Role} {b : Byte} {ts : Timestamp} {selected : Channel → Bool} {row : Channel → RowOutcome}
    {s t : State} :
    byteRow c b ts selected row s = .next t ↔
      ∃ s1 s2, timeoutCheck c ts s = .ok s1 ∧ selected (s1.chan c) = true ∧ append c b ts s1 = .ok s2 ∧
        conclude c (row (s1.chan c)) s2 = .ok t := by
  unfold byteRow
  cases h1 : timeoutCheck c ts s with
  | error f => simp
  | ok s1 =>
    by_cases h2 : selected (s1.chan c) = true
    · cases h3 : append c b ts s1 with
      | error f => simp [h2, h3]
      | ok s2 => simp [h2, h3, settle_next]
    · simp [h2]

/-- A channel's payload grows by the accepted byte (R144, R172). -/
theorem payload_accept {ch : Channel} {p : List Byte} (b : Byte) (ts : Timestamp) (h : ch.payload = some p) :
    (ch.accept b ts).payload = some (p ++ [b]) :=
  Memory.readUpTo_append b h

/-- The channel a byte is accepted in is the channel the timeout check leaves (R110, R142). -/
theorem timeoutCheck_chan {c : Role} {now : Timestamp} {s t : State} (h : timeoutCheck c now s = .ok t) :
    t.chan c = (s.chan c).afterCheck s.cfg now := by
  rcases timeoutCheck_ok.mp h with ⟨h1, rfl⟩ | ⟨h1, p, -, rfl⟩
  · simp [Channel.afterCheck, h1]
  · simp [Channel.afterCheck, h1]

/-- The timeout check keeps the parameters. -/
theorem timeoutCheck_cfg {c : Role} {now : Timestamp} {s t : State} (h : timeoutCheck c now s = .ok t) : t.cfg = s.cfg := by
  rcases timeoutCheck_ok.mp h with ⟨-, rfl⟩ | ⟨-, p, -, rfl⟩ <;> simp

/-- An idle channel passes the timeout check unchanged (R142: "In `IDLE` the test is not made"). -/
theorem timeoutCheck_of_idle {c : Role} {now : Timestamp} {s : State} (h : (s.chan c).ph = .idle) :
    timeoutCheck c now s = .ok s :=
  timeoutCheck_ok.mpr (.inl ⟨by simp [Channel.timedOut, h], rfl⟩)

/-- All that a POP can do (R207, R208). -/
theorem execPop_next {s t : State} :
    execPop s = .next t ↔
      (s.count = 0 ∧ t = s.emit .none) ∨
      (s.count ≠ 0 ∧ ∃ e, s.entryAt s.head = some e ∧ t = s.release.emit (.entry e)) := by
  unfold execPop State.empty
  by_cases h : s.count = 0
  · simp [h, eq_comm]
  · cases hr : s.entryAt s.head with
    | none => simp [h]
    | some e => simp [h, eq_comm]

/-- The memories of the reset state are in canonical form. -/
theorem reset_memory_wf (cfg : Config) :
    Memory.wf (State.resetWith cfg).m.buf = true ∧ Memory.wf (State.resetWith cfg).nd.buf = true ∧
      Memory.wf (State.resetWith cfg).slots = true :=
  ⟨rfl, rfl, rfl⟩

/-- The ranges of R9 hold of every configuration (U12). -/
theorem Config_n_pos (cfg : Config) : 1 ≤ cfg.n := by
  have := cfg.legal
  simp [Config.inRange] at this
  omega

theorem Config_qcap_pos (cfg : Config) : 1 ≤ cfg.qcap := by
  have := cfg.legal
  simp [Config.inRange] at this
  omega

end Sys2Proof.Machine
end

