-- ==== Sys2Proof/Laws/PerInstr.lean ====
section
/-!
SUPPORT. One lemma per constructor of Instr: the encoder's key word stands in the row of the operation table that the
instruction's mnemonic names (30_encoding.md R114, R116).
-/

namespace Sys2Proof.Laws.Encoding

/-- The key of the instruction's code has the fixed bits of its row. -/
def Statement (i : Instr) : Prop := (encode i).key &&& i.row.pattern.2 = i.row.pattern.1

theorem reset : Statement (.reset) := by
  show keyWord 0 0 false 0 0 &&& 0xE000 = 0x0000
  decide

theorem byteMIdle (b : Byte) (ts : Timestamp) : Statement (.byteMIdle b ts) := by
  show keyWord 1 (Role.code .m) false (Phase.code .idle) b &&& 0xFF00 = 0x2000
  revert b; decide

theorem byteMAddr (b : Byte) (ts : Timestamp) : Statement (.byteMAddr b ts) := by
  show keyWord 1 (Role.code .m) false (Phase.code .addr) b &&& 0xFF00 = 0x2100
  revert b; decide

theorem byteMAddrL (b : Byte) (ts : Timestamp) : Statement (.byteMAddrL b ts) := by
  show keyWord 1 (Role.code .m) true (Phase.code .addr) b &&& 0xFF00 = 0x2900
  revert b; decide

theorem byteMCmdWr (ts : Timestamp) : Statement (.byteMCmdWr ts) := by
  show keyWord 1 (Role.code .m) false (Phase.code .cmd) Config.cmdWrite &&& 0xFFFF = 0x2202
  decide

theorem byteMCmdQry (b : Byte) (ts : Timestamp) : Statement (.byteMCmdQry b ts) := by
  show keyWord 1 (Role.code .m) false (Phase.code .cmd) b &&& 0xFF00 = 0x2200
  revert b; decide

theorem byteMParv (b : Byte) (ts : Timestamp) : Statement (.byteMParv b ts) := by
  show keyWord 1 (Role.code .m) false (Phase.code .paramV) b &&& 0xFF00 = 0x2300
  revert b; decide

theorem byteMParvL (b : Byte) (ts : Timestamp) : Statement (.byteMParvL b ts) := by
  show keyWord 1 (Role.code .m) true (Phase.code .paramV) b &&& 0xFF00 = 0x2B00
  revert b; decide

theorem byteMParq (b : Byte) (ts : Timestamp) : Statement (.byteMParq b ts) := by
  show keyWord 1 (Role.code .m) false (Phase.code .paramQ) b &&& 0xFF00 = 0x2400
  revert b; decide

theorem byteMParqL (b : Byte) (ts : Timestamp) : Statement (.byteMParqL b ts) := by
  show keyWord 1 (Role.code .m) true (Phase.code .paramQ) b &&& 0xFF00 = 0x2C00
  revert b; decide

theorem byteMValTerm (ts : Timestamp) : Statement (.byteMValTerm ts) := by
  show keyWord 1 (Role.code .m) false (Phase.code .value) Config.term &&& 0xFFFF = 0x2503
  decide

theorem byteMVal (b : Byte) (ts : Timestamp) : Statement (.byteMVal b ts) := by
  show keyWord 1 (Role.code .m) false (Phase.code .value) b &&& 0xFF00 = 0x2500
  revert b; decide

theorem byteMCksum (b : Byte) (ts : Timestamp) : Statement (.byteMCksum b ts) := by
  show keyWord 1 (Role.code .m) false (Phase.code .cksum) b &&& 0xFF00 = 0x2600
  revert b; decide

theorem byteNdIdleAck (ts : Timestamp) : Statement (.byteNdIdleAck ts) := by
  show keyWord 1 (Role.code .nd) false (Phase.code .idle) Config.ack &&& 0xFFFF = 0x3006
  decide

theorem byteNdIdleNak15 (ts : Timestamp) : Statement (.byteNdIdleNak15 ts) := by
  show keyWord 1 (Role.code .nd) false (Phase.code .idle) NakByte.x15.byte &&& 0xFFFF = 0x3015
  decide

theorem byteNdIdleNak21 (ts : Timestamp) : Statement (.byteNdIdleNak21 ts) := by
  show keyWord 1 (Role.code .nd) false (Phase.code .idle) NakByte.x21.byte &&& 0xFFFF = 0x3021
  decide

theorem byteNdIdle (b : Byte) (ts : Timestamp) : Statement (.byteNdIdle b ts) := by
  show keyWord 1 (Role.code .nd) false (Phase.code .idle) b &&& 0xFF00 = 0x3000
  revert b; decide

theorem byteNdParv (b : Byte) (ts : Timestamp) : Statement (.byteNdParv b ts) := by
  show keyWord 1 (Role.code .nd) false (Phase.code .paramV) b &&& 0xFF00 = 0x3300
  revert b; decide

theorem byteNdParvL (b : Byte) (ts : Timestamp) : Statement (.byteNdParvL b ts) := by
  show keyWord 1 (Role.code .nd) true (Phase.code .paramV) b &&& 0xFF00 = 0x3B00
  revert b; decide

theorem byteNdValTerm (ts : Timestamp) : Statement (.byteNdValTerm ts) := by
  show keyWord 1 (Role.code .nd) false (Phase.code .value) Config.term &&& 0xFFFF = 0x3503
  decide

theorem byteNdVal (b : Byte) (ts : Timestamp) : Statement (.byteNdVal b ts) := by
  show keyWord 1 (Role.code .nd) false (Phase.code .value) b &&& 0xFF00 = 0x3500
  revert b; decide

theorem byteNdCksum (b : Byte) (ts : Timestamp) : Statement (.byteNdCksum b ts) := by
  show keyWord 1 (Role.code .nd) false (Phase.code .cksum) b &&& 0xFF00 = 0x3600
  revert b; decide

theorem tickM (now : Timestamp) : Statement (.tickM now) := by
  show keyWord 2 0 false 0 0 &&& 0xF000 = 0x4000
  decide

theorem tickNd (now : Timestamp) : Statement (.tickNd now) := by
  show keyWord 2 1 false 0 0 &&& 0xF000 = 0x5000
  decide

theorem pop : Statement (.pop) := by
  show keyWord 3 0 false 0 0 &&& 0xE000 = 0x6000
  decide

theorem rddrop : Statement (.rddrop) := by
  show keyWord 4 0 false 0 0 &&& 0xE000 = 0x8000
  decide

theorem rdlen : Statement (.rdlen) := by
  show keyWord 5 0 false 0 0 &&& 0xE000 = 0xA000
  decide

theorem push (e : Entry) : Statement (.push e) := by
  show keyWord 6 0 false 0 0 &&& 0xE000 = 0xC000
  decide

end Sys2Proof.Laws.Encoding
end

