-- ==== Sys2Proof/Laws/Slot.lean ====
section
/-!
SUPPORT. The laws of a ring slot: an entry is read back whole from the slot it fills, and what writing one field does.
-/

namespace Sys2Proof.Machine

variable {α : Type}

/-- Cells numbered from `k` upwards, read at `k + i`. -/
theorem Memory.read_numbered (vs : List α) (k i : Nat) :
    Memory.read ((List.range' k vs.length).zip vs) (k + i) = vs[i]? := by
  induction vs generalizing k i with
  | nil => rfl
  | cons v vs ih =>
    cases i with
    | zero => simp [List.range'_succ, Memory.read]
    | succ i =>
      have h : k + (i + 1) = (k + 1) + i := by omega
      have hk : (k + 1) + i ≠ k := by omega
      simp [List.range'_succ, Memory.read, h, hk, ih]

/-- Cells numbered from 0 upwards, read at `i`. -/
theorem Memory.read_range_zip (vs : List α) (i : Nat) :
    Memory.read ((List.range vs.length).zip vs) i = vs[i]? := by
  have := Memory.read_numbered vs 0 i
  simpa [List.range_eq_range'] using this

/-- Cells numbered upwards are in canonical form. -/
theorem Memory.wf_numbered (vs : List α) (k : Nat) : Memory.wf ((List.range' k vs.length).zip vs) = true := by
  induction vs generalizing k with
  | nil => rfl
  | cons v vs ih =>
    simp only [List.length_cons, List.range'_succ, List.zip_cons_cons]
    refine (Memory.wf_cons k v _).mpr ⟨?_, ih (k + 1)⟩
    intro c hc
    have := List.mem_range'_1.mp (List.of_mem_zip hc).1
    omega

/-- The first `n` cells read as the first `n` of a list of values they hold. -/
theorem Memory.readUpTo_take {mem : List (Nat × α)} {vs : List α} {n : Nat} (hn : n ≤ vs.length)
    (h : ∀ i < n, Memory.read mem i = vs[i]?) : Memory.readUpTo mem n = some (vs.take n) := by
  induction n with
  | zero => simp [Memory.readUpTo]
  | succ n ih =>
    have hlt : n < vs.length := hn
    have h1 := ih (by omega) (fun i hi => h i (by omega))
    have h2 := h n (by omega)
    rw [List.getElem?_eq_getElem hlt] at h2
    have h3 : vs.take (n + 1) = vs.take n ++ [vs[n]] := by simp
    simp only [Memory.readUpTo, h1, h2, h3]

/-- The bytes of an entry in the slot it fills. -/
@[simp] theorem read_entrySlot_data (e : Entry) (i : Nat) : Memory.read (entrySlot e).data i = e.data[i]? :=
  Memory.read_range_zip e.data i

theorem wf_entrySlot_data (e : Entry) : Memory.wf (entrySlot e).data = true := by
  have := Memory.wf_numbered e.data 0
  simpa [entrySlot, Entry.len, List.range_eq_range'] using this

/-- An entry is read back whole from the slot it fills (R75, R207 "exactly as its PUSH wrote it"). -/
@[simp] theorem entry_entrySlot (e : Entry) : (entrySlot e).entry = some e := by
  have h : Memory.readUpTo (entrySlot e).data e.len = some e.data := by
    have := Memory.readUpTo_take (mem := (entrySlot e).data) (vs := e.data) (Nat.le_refl _) (fun i _ => read_entrySlot_data e i)
    simpa [Entry.len] using this
  simp only [Slot.entry]
  show (match Memory.readUpTo (entrySlot e).data e.len with
    | some data => some { role := e.role, reason := e.reason, ts := e.ts, data := data }
    | none => none) = some e
  rw [h]

/-- Which fields an entry has (R106). -/
theorem mem_entryFields {e : Entry} {f : Field} : f ∈ entryFields e ↔ ∀ i, f = .data i → i < e.len := by
  cases f <;> simp [entryFields]

/-! ### One field written -/

variable (sl : Slot) (e : Entry) (i : Nat)

@[simp] theorem put_len : sl.put e .len = { sl with len := some e.len } := rfl
@[simp] theorem put_ts : sl.put e .ts = { sl with ts := some e.ts } := rfl
@[simp] theorem put_reason : sl.put e .reason = { sl with reason := some e.reason } := rfl
@[simp] theorem put_role : sl.put e .role = { sl with role := some e.role } := rfl

theorem put_data (h : i < e.len) : sl.put e (.data i) = { sl with data := Memory.write sl.data i (e.data[i]'h) } := by
  simp only [Slot.put]
  rw [List.getElem?_eq_getElem h]

/-- A written field is written, and stays so when others are written. -/
theorem has_put {f g : Field} (hf : f ∈ entryFields e) : (sl.put e f).has g = true ↔ g = f ∨ sl.has g = true := by
  cases f with
  | data i =>
    have hi : i < e.len := mem_entryFields.mp hf i rfl
    rw [put_data sl e i hi]
    cases g with
    | data j =>
      by_cases h : j = i
      · subst h; simp [Slot.has]
      · simp [Slot.has, Memory.read_write_other _ _ _ _ h, h]
    | len => simp [Slot.has]
    | ts => simp [Slot.has]
    | reason => simp [Slot.has]
    | role => simp [Slot.has]
  | len => cases g <;> simp [Slot.has]
  | ts => cases g <;> simp [Slot.has]
  | reason => cases g <;> simp [Slot.has]
  | role => cases g <;> simp [Slot.has]

/-! ### Slots of the state -/

variable (s : State)

theorem entryAt_of_read {k : Nat} (h : Memory.read s.slots k = some sl) : s.entryAt k = sl.entry := by
  simp [State.entryAt, State.slotAt, h]

/-- A slot read as an entry after a store: the stored entry at the tail, and every other slot as before (R205). -/
@[simp] theorem entryAt_store_tail : (s.store e).entryAt s.tail = some e := by
  simp [State.entryAt, State.slotAt, State.store]

theorem entryAt_store_other (k : Nat) (h : k ≠ s.tail) : (s.store e).entryAt k = s.entryAt k := by
  simp [State.entryAt, State.slotAt, State.store, Memory.read_write_other _ _ _ _ h]

theorem entryAt_release_other (k : Nat) (h : k ≠ s.head) : s.release.entryAt k = s.entryAt k := by
  simp [State.entryAt, State.slotAt, State.release, Memory.read_erase_other _ _ _ h]

/-- What a slot reads as depends on the slot array alone. -/
theorem entryAt_congr {t : State} {k : Nat} (h : Memory.read t.slots k = Memory.read s.slots k) : t.entryAt k = s.entryAt k := by
  simp [State.entryAt, State.slotAt, h]

/-! ### writeField: one field of the reserved slot -/

variable (w : Fill) (f : Field)

/-- A write of a field changes nothing but the slot array. -/
theorem writeField_eq : s.writeField w f = { s with slots := (s.writeField w f).slots } := by
  unfold State.writeField; split <;> rfl

@[simp] theorem writeField_cfg : (s.writeField w f).cfg = s.cfg := by rw [writeField_eq]
@[simp] theorem writeField_head : (s.writeField w f).head = s.head := by rw [writeField_eq]
@[simp] theorem writeField_count : (s.writeField w f).count = s.count := by rw [writeField_eq]
@[simp] theorem writeField_rsv : (s.writeField w f).rsv = s.rsv := by rw [writeField_eq]
@[simp] theorem writeField_pub : (s.writeField w f).pub = s.pub := by rw [writeField_eq]
@[simp] theorem writeField_fillM : (s.writeField w f).fillM = s.fillM := by rw [writeField_eq]
@[simp] theorem writeField_fillNd : (s.writeField w f).fillNd = s.fillNd := by rw [writeField_eq]

/-- A field of the entry is put into the reserved slot. -/
theorem slotAt_writeField_same (h : f ∈ entryFields w.entry) :
    (s.writeField w f).slotAt w.slot = (s.slotAt w.slot).put w.entry f := by
  simp [State.writeField, if_pos h, State.slotAt]

/-- Every other slot is left alone (R77). -/
theorem read_writeField_other (k : Nat) (h : k ≠ w.slot) :
    Memory.read (s.writeField w f).slots k = Memory.read s.slots k := by
  unfold State.writeField
  split
  · exact Memory.read_write_other _ _ _ _ h
  · rfl

/-- A fill changes nothing but the slot array, however many fields it writes. -/
theorem fill_eq (fs : List Field) :
    fs.foldl (State.writeField w) s = { s with slots := (fs.foldl (State.writeField w) s).slots } := by
  induction fs generalizing s with
  | nil => rfl
  | cons f fs ih =>
    rw [List.foldl_cons, ih (s.writeField w f)]
    generalize (fs.foldl (State.writeField w) (s.writeField w f)).slots = slots
    rw [writeField_eq]

/-- A fill leaves every other slot alone (R77). -/
theorem read_fill_other (fs : List Field) (k : Nat) (h : k ≠ w.slot) :
    Memory.read (fs.foldl (State.writeField w) s).slots k = Memory.read s.slots k := by
  induction fs generalizing s with
  | nil => rfl
  | cons f fs ih => rw [List.foldl_cons, ih, read_writeField_other s w f k h]

end Sys2Proof.Machine
end

