-- ==== Sys2Proof/Laws/Step.lean ====
section
/-!
SUPPORT. What serving a request, taking one step, and each fine-level operation can do, once each.
-/

namespace Sys2Proof.Machine

/-- A request is served to a next state exactly when its agent may issue it, its code decodes, and the instruction runs. -/
theorem serve_next {r : Request} {s t : State} :
    serve r s = .next t ↔ r.issuer.mayIssue r.event = true ∧ ∃ i, fetch r.event s = .ok i ∧ exec i s = .next t := by
  unfold serve
  by_cases h : r.issuer.mayIssue r.event = true
  · cases hf : fetch r.event s with
    | error e => simp [h]
    | ok i => simp [h]
  · simp [h]

/-- Serving a request an agent may issue runs the fetched instruction. -/
theorem serve_of_fetch {r : Request} {s : State} {i : Instr} (h : r.issuer.mayIssue r.event = true)
    (hf : fetch r.event s = .ok i) : serve r s = exec i s := by
  simp [serve, h, hf]

/-- The fetch reads the parameters and the channels only. -/
@[simp] theorem fetch_inbox (ev : Event) (s : State) (inbox : List (List Request)) (k : Nat) :
    fetch ev { s with inbox := inbox, choice := k } = fetch ev s := by
  cases ev with
  | byte c b ts => cases c <;> rfl
  | reset => rfl
  | tick c now => rfl
  | pop => rfl
  | rddrop => rfl
  | rdlen => rfl
  | push e => rfl

/-- The request taken is one of the batch, and the rest of the batch is what is left. -/
theorem takeRequest_spec (k : Nat) (r : Request) (rest : List Request) :
    ∃ (i : Nat) (h : i < (r :: rest).length),
      takeRequest k r rest = ((r :: rest)[i], (r :: rest).eraseIdx i) := by
  have h : k % (rest.length + 1) < (r :: rest).length := by
    simpa using Nat.mod_lt k (Nat.succ_pos rest.length)
  refine ⟨k % (rest.length + 1), h, ?_⟩
  unfold takeRequest
  simp only [List.getD_eq_getElem?_getD, List.getElem?_eq_getElem h, Option.getD_some]

/-- All that a reserve can do (R213). -/
theorem fineReserve_next {c : Role} {e : Entry} {s t : State} :
    fineReserve c e s = .next t ↔
      s.fillOf c = none ∧
        ((s.cfg.qcap ≤ s.rsv ∧ t = { s with drops := s.drops + 1 }) ∨
          (s.rsv < s.cfg.qcap ∧
            t = ({ s with rsv := s.rsv + 1, count := s.count + 1 }).setFill c
              (some { slot := (s.head + s.rsv) % s.cfg.qcap, entry := e }))) := by
  unfold fineReserve
  cases s.fillOf c with
  | some w => simp
  | none =>
    by_cases h : s.cfg.qcap ≤ s.rsv
    · simp [h, Nat.not_lt.mpr h, eq_comm]
    · simp [h, Nat.lt_of_not_le h, eq_comm]

/-- All that a publish can do (R215, R224). -/
theorem finePublish_next {c : Role} {s t : State} :
    finePublish c s = .next t ↔
      ∃ w, s.fillOf c = some w ∧ s.filled w = true ∧ t = { s with pub := s.pub.set w.slot true }.setFill c none := by
  unfold finePublish
  cases s.fillOf c with
  | none => simp
  | some w =>
    by_cases h : s.filled w = true
    · simp only [h, if_true, Host.Outcome.next.injEq, Option.some.injEq, exists_eq_left', true_and]
      exact eq_comm
    · simp [h]

/-- All that a step of the fill can do (R214). -/
theorem fineFill_next {c : Role} {fs : List Field} {s t : State} :
    fineFill c fs s = .next t ↔
      ∃ w, s.fillOf c = some w ∧ fs.all (fieldInSlot s.cfg) = true ∧ t = fs.foldl (State.writeField w) s := by
  unfold fineFill
  cases s.fillOf c with
  | none => simp
  | some w => by_cases h : fs.all (fieldInSlot s.cfg) = true <;> simp only [h] <;> simp [eq_comm]

/-- All that a fine-level POP can do (R216). -/
theorem finePop_next {s t : State} :
    finePop s = .next t ↔
      ((s.rsv = 0 ∨ s.pub.getD s.head false = false) ∧ t = s.emit .none) ∨
      (s.rsv ≠ 0 ∧ s.pub.getD s.head false = true ∧
        ∃ e, s.entryAt s.head = some e ∧ t = s.release.emit (.entry e)) := by
  unfold finePop
  by_cases h : s.rsv = 0 ∨ s.pub.getD s.head false = false
  · rw [if_pos h]
    have h' : ¬ (s.rsv ≠ 0 ∧ s.pub.getD s.head false = true) := by
      rintro ⟨a, b⟩
      rcases h with h | h
      · exact a h
      · rw [h] at b; cases b
    constructor
    · intro ht
      cases ht
      exact .inl ⟨h, rfl⟩
    · rintro (⟨-, rfl⟩ | ⟨a, b, -⟩)
      · rfl
      · exact absurd ⟨a, b⟩ h'
  · rw [if_neg h]
    have h' : s.rsv ≠ 0 ∧ s.pub.getD s.head false = true := by
      rw [not_or] at h
      exact ⟨h.1, by simpa using h.2⟩
    cases hr : s.entryAt s.head with
    | none =>
      constructor
      · intro ht
        cases ht
      · rintro (⟨a, -⟩ | ⟨-, -, e', he, -⟩)
        · exact absurd a h
        · cases he
    | some e =>
      constructor
      · intro ht
        cases ht
        exact .inr ⟨h'.1, h'.2, e, rfl, rfl⟩
      · rintro (⟨a, -⟩ | ⟨-, -, e', he, rfl⟩)
        · exact absurd a h
        · cases he
          rfl

end Sys2Proof.Machine
end

