-- ==== Sys2Proof/Tests/Slice0.lean ====
section
/-!
SUPPORT. Tests: ill-formed terms refused, every constructor's decoding from a word written out from the table, single-step
vectors of 95_test_vectors.md (the vector is named in each comment), and a witness for the hypotheses of each statement.
-/

namespace Sys2Proof.Tests

open Sys2Proof Sys2Proof.Machine

/-! ### Helpers -/

/-- Parameters as the vectors take them: `T_IB = 1000` and two distinct addresses. -/
def tCfg (n qcap : Nat) (nak : NakByte) (h : Config.inRange n qcap 1000 0 1 = true) : Config :=
  { n := n, qcap := qcap, tIb := 1000, nak := nak, addrLoop := 0, addrPeer := 1, legal := h }

def cfg64 : Config := tCfg 64 4 .x15 (by decide)
def cfg21 : Config := tCfg 64 4 .x21 (by decide)
def cfg13 : Config := tCfg 13 2 .x15 (by decide)
def cfg12 : Config := tCfg 12 2 .x15 (by decide)
def cfg9 : Config := tCfg 9 1 .x15 (by decide)
def cfg4 : Config := tCfg 4 1 .x15 (by decide)
def cfg1 : Config := tCfg 1 1 .x15 (by decide)

/-- A channel in a phase, holding the bytes it has accepted. -/
def tChan (ph : Phase) (cnt : BitVec 2) (bytes : List Byte) (startTs lastTs : Timestamp) : Channel :=
  { ph := ph, cnt := cnt, len := bytes.length, startTs := startTs, lastTs := lastTs,
    buf := (List.range bytes.length).zip bytes }

/-- A state with given channels and an empty queue. -/
def tState (cfg : Config) (m nd : Channel) : State := { State.resetWith cfg with m := m, nd := nd }

/-- The next state, if there is one. -/
def nextOf {σ φ ρ : Type} : Host.Outcome σ φ ρ → Option σ
  | .next s => some s
  | .fault _ => none
  | .refused _ => none

/-- The refusal, if there is one. -/
def refusalOf {σ φ ρ : Type} : Host.Outcome σ φ ρ → Option ρ
  | .next _ => none
  | .fault _ => none
  | .refused r => some r

/-- Phase, counter, length and the two timestamps of a channel. -/
def regs (ch : Channel) : Phase × BitVec 2 × Nat × Timestamp × Timestamp := (ch.ph, ch.cnt, ch.len, ch.startTs, ch.lastTs)

def idle : Channel := Channel.reset

/-- The bytes of vector T1. -/
def t1Bytes : List Byte := [0x30, 0x31, 0x32, 0x33, 0x02, 0x41, 0x42, 0x43, 0x44, 0x31, 0x32, 0x03, 0x5A]

/-- An acknowledge entry. -/
def ackEntry (ts : Timestamp) : Entry := { role := .nd, reason := .controlByte, ts := ts, data := [0x06] }

/-! ### Ill-formed terms are refused -/

theorem test_query_with_write_byte_ill_formed : (Instr.byteMCmdQry 0x02 0).wellFormed cfg64 = false := by decide
theorem test_master_value_with_term_ill_formed : (Instr.byteMVal 0x03 0).wellFormed cfg64 = false := by decide
theorem test_node_value_with_term_ill_formed : (Instr.byteNdVal 0x03 0).wellFormed cfg64 = false := by decide
theorem test_node_first_byte_ack_ill_formed : (Instr.byteNdIdle 0x06 0).wellFormed cfg64 = false := by decide
theorem test_node_first_byte_nak_ill_formed : (Instr.byteNdIdle 0x15 0).wellFormed cfg64 = false := by decide
theorem test_disabled_nak15_ill_formed : (Instr.byteNdIdleNak15 0).wellFormed cfg21 = false := by decide
theorem test_disabled_nak21_ill_formed : (Instr.byteNdIdleNak21 0).wellFormed cfg64 = false := by decide
theorem test_empty_entry_ill_formed :
    (Instr.push { role := .m, reason := .terminator, ts := 0, data := [] }).wellFormed cfg64 = false := by decide
theorem test_long_entry_ill_formed :
    (Instr.push { role := .m, reason := .terminator, ts := 0, data := [1, 2] }).wellFormed cfg1 = false := by decide
theorem test_config_without_payload_refused : Config.inRange 0 1 1 0 1 = false := by decide
theorem test_config_without_slot_refused : Config.inRange 1 0 1 0 1 = false := by decide
theorem test_config_without_timeout_refused : Config.inRange 1 1 0 0 1 = false := by decide
theorem test_config_equal_addresses_refused : Config.inRange 1 1 1 7 7 = false := by decide
theorem test_push_by_producer_ill_formed :
    ({ issuer := .masterProducer, event := .push (ackEntry 0) } : Request).wellFormed cfg64 = false := by decide

/-! ### Every constructor's decoding, from a word of R116 written out bit by bit -/

theorem test_decode_reset : decode .x15 { key := 0b0001010101010101, operand := .none } = .ok .reset := by decide
theorem test_decode_byteMIdle : decode .x15 { key := 0b0010000001011010, operand := .time 7 } = .ok (.byteMIdle 0x5A 7) := by decide
theorem test_decode_byteMAddr : decode .x15 { key := 0b0010000101011010, operand := .time 7 } = .ok (.byteMAddr 0x5A 7) := by decide
theorem test_decode_byteMAddrL : decode .x15 { key := 0b0010100101011010, operand := .time 7 } = .ok (.byteMAddrL 0x5A 7) := by decide
theorem test_decode_byteMCmdWr : decode .x15 { key := 0b0010001000000010, operand := .time 7 } = .ok (.byteMCmdWr 7) := by decide
theorem test_decode_byteMCmdQry : decode .x15 { key := 0b0010001001011010, operand := .time 7 } = .ok (.byteMCmdQry 0x5A 7) := by decide
theorem test_decode_byteMParv : decode .x15 { key := 0b0010001101011010, operand := .time 7 } = .ok (.byteMParv 0x5A 7) := by decide
theorem test_decode_byteMParvL : decode .x15 { key := 0b0010101101011010, operand := .time 7 } = .ok (.byteMParvL 0x5A 7) := by decide
theorem test_decode_byteMParq : decode .x15 { key := 0b0010010001011010, operand := .time 7 } = .ok (.byteMParq 0x5A 7) := by decide
theorem test_decode_byteMParqL : decode .x15 { key := 0b0010110001011010, operand := .time 7 } = .ok (.byteMParqL 0x5A 7) := by decide
theorem test_decode_byteMValTerm : decode .x15 { key := 0b0010010100000011, operand := .time 7 } = .ok (.byteMValTerm 7) := by decide
theorem test_decode_byteMVal : decode .x15 { key := 0b0010010101011010, operand := .time 7 } = .ok (.byteMVal 0x5A 7) := by decide
theorem test_decode_byteMCksum : decode .x15 { key := 0b0010011001011010, operand := .time 7 } = .ok (.byteMCksum 0x5A 7) := by decide
theorem test_decode_byteNdIdleAck : decode .x15 { key := 0b0011000000000110, operand := .time 7 } = .ok (.byteNdIdleAck 7) := by decide
theorem test_decode_byteNdIdleNak15 : decode .x15 { key := 0b0011000000010101, operand := .time 7 } = .ok (.byteNdIdleNak15 7) := by decide
theorem test_decode_byteNdIdleNak21 : decode .x21 { key := 0b0011000000100001, operand := .time 7 } = .ok (.byteNdIdleNak21 7) := by decide
theorem test_decode_byteNdIdle : decode .x15 { key := 0b0011000001011010, operand := .time 7 } = .ok (.byteNdIdle 0x5A 7) := by decide
theorem test_decode_byteNdParv : decode .x15 { key := 0b0011001101011010, operand := .time 7 } = .ok (.byteNdParv 0x5A 7) := by decide
theorem test_decode_byteNdParvL : decode .x15 { key := 0b0011101101011010, operand := .time 7 } = .ok (.byteNdParvL 0x5A 7) := by decide
theorem test_decode_byteNdValTerm : decode .x15 { key := 0b0011010100000011, operand := .time 7 } = .ok (.byteNdValTerm 7) := by decide
theorem test_decode_byteNdVal : decode .x15 { key := 0b0011010101011010, operand := .time 7 } = .ok (.byteNdVal 0x5A 7) := by decide
theorem test_decode_byteNdCksum : decode .x15 { key := 0b0011011001011010, operand := .time 7 } = .ok (.byteNdCksum 0x5A 7) := by decide
theorem test_decode_tickM : decode .x15 { key := 0b0100010101010101, operand := .time 7 } = .ok (.tickM 7) := by decide
theorem test_decode_tickNd : decode .x15 { key := 0b0101010101010101, operand := .time 7 } = .ok (.tickNd 7) := by decide
theorem test_decode_pop : decode .x15 { key := 0b0111010101010101, operand := .none } = .ok .pop := by decide
theorem test_decode_rddrop : decode .x15 { key := 0b1001010101010101, operand := .none } = .ok .rddrop := by decide
theorem test_decode_rdlen : decode .x15 { key := 0b1011010101010101, operand := .none } = .ok .rdlen := by decide
theorem test_decode_push : decode .x15 { key := 0b1101010101010101, operand := .entry (ackEntry 9) } = .ok (.push (ackEntry 9)) := by decide

theorem test_decode_operand_kind : decode .x15 { key := 0x2000, operand := .none } = .error .operandKind := by decide
theorem test_decode_disabled_nak : decode .x15 { key := 0x3021, operand := .time 7 } = .ok (.byteNdIdle 0x21 7) := by decide
theorem test_table_words_decode :
    opcodeTable.map (fun r => (decodeTableWord 16 r.pattern.1.toNat).map Instr.row) = opcodeTable.map some := by
  decide +kernel
theorem test_table_words_run :
    opcodeTable.map (fun r => (nextOf (step (State.reset.withFetchWord 16 r.pattern.1.toNat))).isSome) =
      opcodeTable.map (fun _ => true) := by
  decide +kernel

/-! ### Single-step vectors of 95_test_vectors.md and the worked examples of the rules -/

/-- R147's example. -/
theorem test_master_idle :
    (nextOf (exec (.byteMIdle 0x30 100) (tState cfg64 idle idle))).map (fun s => regs s.m) = some (.addr, 1, 1, 100, 100) := by
  decide
/-- R148's example. -/
theorem test_master_addr :
    (nextOf (exec (.byteMAddr 0x31 110) (tState cfg64 (tChan .addr 1 [0x30] 100 100) idle))).map (fun s => regs s.m) =
      some (.addr, 2, 2, 100, 110) := by decide
/-- R149's example. -/
theorem test_master_addr_last :
    (nextOf (exec (.byteMAddrL 0x33 130) (tState cfg64 (tChan .addr 3 [0x30, 0x31, 0x32] 100 120) idle))).map
      (fun s => regs s.m) = some (.cmd, 0, 4, 100, 130) := by decide
/-- R150's example. -/
theorem test_master_write_command :
    (nextOf (exec (.byteMCmdWr 140) (tState cfg64 (tChan .cmd 0 (t1Bytes.take 4) 100 130) idle))).map
      (fun s => (regs s.m, Memory.read s.m.buf 4)) = some ((.paramV, 0, 5, 100, 140), some 0x02) := by decide
/-- R151's example. -/
theorem test_master_query_command :
    (nextOf (exec (.byteMCmdQry 0x01 140) (tState cfg64 (tChan .cmd 0 (t1Bytes.take 4) 100 130) idle))).map
      (fun s => regs s.m) = some (.paramQ, 0, 5, 100, 140) := by decide
/-- R152's example. -/
theorem test_master_write_parameter :
    (nextOf (exec (.byteMParv 0x41 150) (tState cfg64 (tChan .paramV 0 (t1Bytes.take 5) 100 140) idle))).map
      (fun s => regs s.m) = some (.paramV, 1, 6, 100, 150) := by decide
/-- R153's example. -/
theorem test_master_write_parameter_last :
    (nextOf (exec (.byteMParvL 0x44 180) (tState cfg64 (tChan .paramV 3 (t1Bytes.take 8) 100 170) idle))).map
      (fun s => regs s.m) = some (.value, 0, 9, 100, 180) := by decide
/-- R154's example. -/
theorem test_master_query_parameter :
    (nextOf (exec (.byteMParq 0x43 170) (tState cfg64 (tChan .paramQ 2 [0x30, 0x31, 0x32, 0x33, 1, 0x41, 0x42] 100 160) idle))).map
      (fun s => regs s.m) = some (.paramQ, 3, 8, 100, 170) := by decide
/-- R155's example, vector T3. -/
theorem test_master_query_ends :
    (nextOf (exec (.byteMParqL 0x44 180)
      (tState cfg64 (tChan .paramQ 3 [0x30, 0x31, 0x32, 0x33, 1, 0x41, 0x42, 0x43] 100 170) idle))).map
      (fun s => (regs s.m, s.contents)) =
      some ((.idle, 0, 0, 100, 180),
        [some { role := .m, reason := .terminator, ts := 100, data := [0x30, 0x31, 0x32, 0x33, 1, 0x41, 0x42, 0x43, 0x44] }]) := by
  decide
/-- R156's example: vector T1, byte 12. -/
theorem test_master_terminator :
    (nextOf (exec (.byteMValTerm 210) (tState cfg64 (tChan .value 0 (t1Bytes.take 11) 100 200) idle))).map
      (fun s => regs s.m) = some (.cksum, 0, 12, 100, 210) := by decide
/-- Vector T17: with `N = 12` the terminator is the twelfth byte, so the frame ends there with LengthExceeded. -/
theorem test_master_terminator_fills_payload :
    (nextOf (exec (.byteMValTerm 210) (tState cfg12 (tChan .value 0 (t1Bytes.take 11) 100 200) idle))).map
      (fun s => (regs s.m, s.contents)) =
      some ((.idle, 0, 0, 100, 210), [some { role := .m, reason := .lengthExceeded, ts := 100, data := t1Bytes.take 12 }]) := by
  decide
/-- R157's example. -/
theorem test_master_value :
    (nextOf (exec (.byteMVal 0x31 190) (tState cfg64 (tChan .value 0 (t1Bytes.take 9) 100 180) idle))).map
      (fun s => regs s.m) = some (.value, 0, 10, 100, 190) := by decide
/-- R158's example; vector T16: with `N = 13` the natural end wins over the capacity bound. -/
theorem test_master_checksum_natural_end_wins :
    (nextOf (exec (.byteMCksum 0x5A 220) (tState cfg13 (tChan .cksum 0 (t1Bytes.take 12) 100 210) idle))).map
      (fun s => (regs s.m, s.contents)) =
      some ((.idle, 0, 0, 100, 220), [some { role := .m, reason := .terminator, ts := 100, data := t1Bytes }]) := by decide
/-- Vector T18: with `N = 1` every Master byte is a frame. -/
theorem test_master_single_byte_payload :
    (nextOf (exec (.byteMIdle 0x30 100) (tState cfg1 idle idle))).map (fun s => (s.m.ph, s.contents)) =
      some (.idle, [some { role := .m, reason := .lengthExceeded, ts := 100, data := [0x30] }]) := by decide
/-- Vector T7 (S2), R159's example. -/
theorem test_node_ack :
    (nextOf (exec (.byteNdIdleAck 500) (tState cfg64 idle idle))).map (fun s => (regs s.nd, s.contents)) =
      some ((.idle, 0, 0, 500, 500), [some (ackEntry 500)]) := by decide
/-- Vector T9. -/
theorem test_node_nak15 :
    (nextOf (exec (.byteNdIdleNak15 600) (tState cfg64 idle idle))).map (fun s => (s.nd.ph, s.contents)) =
      some (.idle, [some { role := .nd, reason := .controlByte, ts := 600, data := [0x15] }]) := by decide
/-- Vector T10. -/
theorem test_node_nak21 :
    (nextOf (exec (.byteNdIdleNak21 600) (tState cfg21 idle idle))).map (fun s => (s.nd.ph, s.contents)) =
      some (.idle, [some { role := .nd, reason := .controlByte, ts := 600, data := [0x21] }]) := by decide
/-- A disabled NAK row is not selected (R114). -/
theorem test_node_nak21_disabled :
    refusalOf (exec (.byteNdIdleNak21 600) (tState cfg64 idle idle)) = some .rowNotSelected := by decide
/-- Vector T9, second byte: `0x21` under `NAK = 0x15` starts a response. -/
theorem test_node_other_nak_starts_response :
    (nextOf (serve (requestOf (.byte .nd 0x21 2000)) (tState cfg64 idle idle))).map (fun s => (regs s.nd, s.count)) =
      some ((.paramV, 1, 1, 2000, 2000), 0) := by decide
/-- R161's example. -/
theorem test_node_idle :
    (nextOf (exec (.byteNdIdle 0x02 700) (tState cfg64 idle idle))).map (fun s => regs s.nd) = some (.paramV, 1, 1, 700, 700) := by
  decide
/-- R162's example. -/
theorem test_node_parameter :
    (nextOf (exec (.byteNdParv 0x41 710) (tState cfg64 idle (tChan .paramV 1 [2] 700 700)))).map (fun s => regs s.nd) =
      some (.paramV, 2, 2, 700, 710) := by decide
/-- R163's example. -/
theorem test_node_parameter_last :
    (nextOf (exec (.byteNdParvL 0x43 730) (tState cfg64 idle (tChan .paramV 3 [2, 0x41, 0x42] 700 720)))).map
      (fun s => regs s.nd) = some (.value, 0, 4, 700, 730) := by decide
/-- R164's example. -/
theorem test_node_terminator :
    (nextOf (exec (.byteNdValTerm 760) (tState cfg64 idle (tChan .value 0 [2, 0x41, 0x42, 0x43, 0x31, 0x32] 700 750)))).map
      (fun s => regs s.nd) = some (.cksum, 0, 7, 700, 760) := by decide
/-- R165's example. -/
theorem test_node_value :
    (nextOf (exec (.byteNdVal 0x31 740) (tState cfg64 idle (tChan .value 0 [2, 0x41, 0x42, 0x43] 700 730)))).map
      (fun s => regs s.nd) = some (.value, 0, 5, 700, 740) := by decide
/-- R166's example, vector T8. -/
theorem test_node_checksum :
    (nextOf (exec (.byteNdCksum 0x77 770)
      (tState cfg64 idle (tChan .cksum 0 [2, 0x41, 0x42, 0x43, 0x31, 0x32, 3] 700 760)))).map (fun s => (s.nd.ph, s.contents)) =
      some (.idle, [some { role := .nd, reason := .terminator, ts := 700, data := [2, 0x41, 0x42, 0x43, 0x31, 0x32, 3, 0x77] }]) := by
  decide
/-- Vector T13a: 999 after the previous byte there is no timeout. -/
theorem test_byte_just_inside_timeout :
    (nextOf (serve (requestOf (.byte .m 0x32 1109)) (tState cfg64 (tChan .addr 2 [0x30, 0x31] 100 110) idle))).map
      (fun s => (regs s.m, s.count)) = some ((.addr, 3, 3, 100, 1109), 0) := by decide
/-- Vector T13b: at 1000 the old frame is completed first and the byte starts a new one. -/
theorem test_byte_at_timeout :
    (nextOf (serve (requestOf (.byte .m 0x32 1110)) (tState cfg64 (tChan .addr 2 [0x30, 0x31] 100 110) idle))).map
      (fun s => (regs s.m, s.contents)) =
      some ((.addr, 1, 1, 1110, 1110), [some { role := .m, reason := .interByteTimeout, ts := 100, data := [0x30, 0x31] }]) := by
  decide
/-- Vector T14: two pushes from one BYTE, in order. -/
theorem test_two_pushes_from_one_byte :
    (nextOf (serve (requestOf (.byte .nd 0x06 5000)) (tState cfg64 idle (tChan .paramV 2 [2, 0x41] 700 710)))).map
      (fun s => s.contents) =
      some [some { role := .nd, reason := .interByteTimeout, ts := 700, data := [2, 0x41] }, some (ackEntry 5000)] := by decide
/-- Vector T19: a timestamp that goes backwards times the frame out. -/
theorem test_timestamp_backwards :
    (nextOf (serve (requestOf (.byte .m 0x31 90)) (tState cfg64 (tChan .addr 1 [0x30] 100 100) idle))).map
      (fun s => (regs s.m, s.count)) = some ((.addr, 1, 1, 90, 90), 1) := by decide
/-- Vector T19b: a timestamp that wraps forward does not. -/
theorem test_timestamp_wraps :
    (nextOf (serve (requestOf (.byte .m 0x31 5)) (tState cfg64 (tChan .addr 1 [0x30] 0 18446744073709551606) idle))).map
      (fun s => (regs s.m, s.count)) = some ((.addr, 2, 2, 0, 5), 0) := by decide
/-- Vector T12: TICK at 999 and at 1000. -/
theorem test_tick_boundary :
    (nextOf (exec (.tickM 1109) (tState cfg64 (tChan .addr 2 [0x30, 0x31] 100 110) idle))).map (fun s => (s.m.ph, s.count)) =
        some (.addr, 0) ∧
      (nextOf (exec (.tickM 1110) (tState cfg64 (tChan .addr 2 [0x30, 0x31] 100 110) idle))).map (fun s => (s.m.ph, s.count)) =
        some (.idle, 1) := by decide
/-- Vector T21: a TICK touches only its own channel. -/
theorem test_tick_own_channel :
    (nextOf (exec (.tickNd 5000) (tState cfg64 (tChan .addr 2 [0x30, 0x31] 100 110) (tChan .paramV 1 [2] 120 120)))).map
      (fun s => (s.m.ph, s.nd.ph, s.count)) = some (.addr, .idle, 1) := by decide
/-- Vector Q1, the fourth push after one POP goes to slot 0. -/
theorem test_push_wraps :
    (nextOf (exec (.push (ackEntry 4))
      { (pushAll [ackEntry 2, ackEntry 3] { State.resetWith (tCfg 64 3 .x15 (by decide)) with head := 1 }) with drops := 0 })).map
      (fun s => (s.head, s.count, s.entryAt 0)) = some (1, 3, some (ackEntry 4)) := by decide
/-- Vectors Q2 and Q3: a full queue drops, and the counter wraps. -/
theorem test_push_full :
    (nextOf (exec (.push (ackEntry 3))
      { pushAll [ackEntry 1, ackEntry 2] (State.resetWith cfg13) with drops := 4294967295 })).map
      (fun s => (s.count, s.drops, s.contents)) = some (2, 0, [some (ackEntry 1), some (ackEntry 2)]) := by decide
/-- Vector Q6: with `QCAP = 1` the head wraps to itself. -/
theorem test_pop_wraps :
    (nextOf (exec .pop (pushAll [ackEntry 1] (State.resetWith cfg1)))).map (fun s => (s.head, s.count, s.emitted)) =
      some (0, 0, [.entry (ackEntry 1)]) := by decide
/-- Vector Q5: POP on empty. -/
theorem test_pop_empty :
    (nextOf (exec .pop State.reset)).map (fun s => (s.head, s.count, s.emitted)) = some (0, 0, [Result.none]) := by decide
/-- R209's example. -/
theorem test_rddrop :
    (nextOf (exec .rddrop { State.reset with drops := 6 })).map (fun s => (s.emitted, s.drops)) =
      some ([.dropCount 6], 6) := by decide
/-- Vector Q2's RDLEN. -/
theorem test_rdlen :
    (nextOf (exec .rdlen (pushAll [ackEntry 1, ackEntry 2] (State.resetWith cfg13)))).map (fun s => (s.emitted, s.count)) =
      some ([.length 2], 2) := by decide
/-- Vector Z1. -/
theorem test_reset :
    (nextOf (exec .reset
      { pushAll [ackEntry 1] { tState cfg64 (tChan .paramV 0 (t1Bytes.take 5) 100 140) idle with head := 2 } with drops := 3 })).map
      (fun s => (s.m.ph, s.m.len, s.head, s.count, s.drops)) = some (.idle, 0, 0, 0, 0) := by decide
/-- Vectors E1 and E5: the record's seconds and microseconds. -/
theorem test_capture_record :
    captureRecord cfg64 { role := .m, reason := .interByteTimeout, ts := 1234567, data := [0x30, 0x31] } =
        { sec := 1, usec := 234567, src := 0, dst := 1, port := 422, payload := [0x30, 0x31] } ∧
      (captureRecord cfg1 { role := .m, reason := .lengthExceeded, ts := 18446744073709551615, data := [0x30] }).sec =
        18446744073709 := by decide
/-- E2's packed slot word with `N = 64`: byte at bit 0, `len` at 512, `ts` at 519, `reason` at 583, `role` at 585. -/
theorem test_slot_word :
    Entry.slotWord cfg64 (fun _ => 0) (ackEntry 0) = 0x06 + 2 ^ 512 + 2 ^ 583 + 2 ^ 585 := by decide +kernel
/-- Vector Q9's state: the Master's slot 0 is being filled and the Node's slot 1 is published. -/
def fineState (filling : Slot) : State :=
  { pushAll [ackEntry 1, ackEntry 2] (State.resetWith cfg13) with
    slots := [(0, filling), (1, entrySlot (ackEntry 2))], pub := [false, true],
    fillM := some { slot := 0, entry := ackEntry 1 } }

/-- A slot with two of its fields written. -/
def partSlot : Slot := { Slot.blank with len := some 1, data := [(0, 0x06)] }

/-- R214: a fill of one step writes two fields, one of them for the second time, and the others stay unwritten. -/
theorem test_fine_fill :
    (nextOf (fineStep (.fill .m [.ts, .len]) (fineState partSlot))).map (fun s => s.slotAt 0) =
      some { role := none, reason := none, ts := some 1, len := some 1, data := [(0, 0x06)] } := by decide
/-- Vector Q9: a POP while the older slot is unpublished returns none though the newer one is published. -/
theorem test_fine_pop_unpublished :
    (nextOf (fineStep .pop
      (fineState partSlot))).map
      (fun s => (s.emitted, s.head)) = some ([Result.none], 0) := by decide
/-- R118's trace lines. -/
theorem test_trace_line :
    eventText (.byte .m 0x5A 1000) = "BYTE.M 0x5A @1000" ∧ resultText (.dropCount 0) = "-> 0" := by decide +kernel

/-! ### A witness for the hypotheses of each statement -/

theorem test_witness_DecodeOfEncode :
    (Instr.byteNdIdle 0x15 9).wellFormed cfg21 = true := by decide

theorem test_witness_MostSpecificRowWins :
    decode .x15 { key := 0x3015, operand := .time 9 } = .ok (.byteNdIdleNak15 9) ∧ RowName.byteNdIdle ≠ .byteNdIdleNak15 ∧
      (0x3015 : Key) &&& RowName.byteNdIdle.pattern.2 = RowName.byteNdIdle.pattern.1 ∧ NakByte.x15.byte = 0x15 := by decide

theorem test_witness_MostSpecificRowWins_nak21 :
    decode .x21 { key := 0x3021, operand := .time 9 } = .ok (.byteNdIdleNak21 9) ∧ NakByte.x21.byte = 0x21 := by decide

theorem test_witness_ReservedKeysAreRefused :
    ((7 : BitVec 3) = 7) ∧ ((1 : BitVec 1) = 1 ∧ (4 : BitVec 3) = 4) ∧ (true = true ∧ (6 : BitVec 3) = 6) := by decide

theorem test_witness_EveryByteSelectsARow :
    positionOk .nd .paramV 3 3 = true ∧ positionOk .m .cksum 0 63 = true := by decide

theorem test_witness_SlotWordRoundTrip :
    Entry.len { role := .m, reason := .terminator, ts := 5, data := [7] } ≤ cfg1.n ∧ Entry.len (ackEntry 1) = 1 := by decide

theorem test_witness_StepRunsTheDecodedInstruction :
    (present [.pop] State.reset).inbox = [requestOf .pop] :: [] ∧ (requestOf .pop).issuer.mayIssue .pop = true ∧
      decode State.reset.cfg.nak (codeOf .pop (present [.pop] State.reset)) = .ok .pop := by decide

theorem test_witness_StepRunsTheDecodedInstruction_nothing :
    State.reset.inbox = [] ∧ ({ State.reset with inbox := [[]] } : State).inbox = [] :: [] := by decide

theorem test_witness_SimultaneousEventsInSomeOrder :
    ({ State.reset with inbox := [[requestOf (.tick .m 1), requestOf .pop]] } : State).inbox =
        [requestOf (.tick .m 1), requestOf .pop] :: [] ∧ 2 ≤ [requestOf (.tick .m 1), requestOf .pop].length := by decide

theorem test_witness_ForbiddenIssuersAreRefused_push :
    ({ State.reset with inbox := [[{ issuer := .consumer, event := .push (ackEntry 1) }]] } : State).inbox =
        [{ issuer := .consumer, event := .push (ackEntry 1) }] :: [] ∧ Agent.consumer ≠ .block := by decide

theorem test_witness_ForbiddenIssuersAreRefused_pop :
    ({ State.reset with inbox := [[{ issuer := .masterProducer, event := .pop }]] } : State).inbox =
        [{ issuer := .masterProducer, event := .pop }] :: [] ∧ Agent.masterProducer ≠ .consumer := by decide

theorem test_witness_ForbiddenIssuersAreRefused_byte_m :
    ({ State.reset with inbox := [[{ issuer := .nodeProducer, event := .byte .m 1 2 }]] } : State).inbox =
        [{ issuer := .nodeProducer, event := .byte .m 1 2 }] :: [] ∧ Agent.nodeProducer ≠ .masterProducer := by decide

theorem test_witness_ForbiddenIssuersAreRefused_byte_nd :
    ({ State.reset with inbox := [[{ issuer := .masterProducer, event := .byte .nd 1 2 }]] } : State).inbox =
        [{ issuer := .masterProducer, event := .byte .nd 1 2 }] :: [] ∧ Agent.masterProducer ≠ .nodeProducer := by decide

theorem test_witness_ForbiddenIssuersAreRefused_tick :
    ({ State.reset with inbox := [[{ issuer := .block, event := .tick .m 2 }]] } : State).inbox =
        [{ issuer := .block, event := .tick .m 2 }] :: [] ∧ Agent.block ≠ .timer := by decide

theorem test_witness_ForbiddenIssuersAreRefused_reset :
    ({ State.reset with inbox := [[{ issuer := .timer, event := .reset }]] } : State).inbox =
        [{ issuer := .timer, event := .reset }] :: [] ∧ Agent.timer ≠ .resetSource := by decide

theorem test_witness_RowsTheSpecDecides_idle :
    (tState cfg1 (idle) idle).ready .m 0 ∧ (tState cfg1 (idle) idle).m.payload.isSome = true ∧ (tState cfg1 (idle) idle).m.ph = .idle := by decide

theorem test_witness_MasterAddressBytes :
    (tState cfg64 (tChan .addr 2 [1, 2] 100 110) idle).ready .m 1109 ∧ (tState cfg64 (tChan .addr 2 [1, 2] 100 110) idle).m.payload.isSome = true ∧ (tState cfg64 (tChan .addr 2 [1, 2] 100 110) idle).m.ph = .addr ∧ (tState cfg64 (tChan .addr 2 [1, 2] 100 110) idle).m.cnt ≠ 3 := by decide

theorem test_witness_MasterAddressBytes_last :
    (tState cfg64 (tChan .addr 3 [1, 2, 3] 100 110) idle).ready .m 1109 ∧ (tState cfg64 (tChan .addr 3 [1, 2, 3] 100 110) idle).m.payload.isSome = true ∧ (tState cfg64 (tChan .addr 3 [1, 2, 3] 100 110) idle).m.ph = .addr ∧ (tState cfg64 (tChan .addr 3 [1, 2, 3] 100 110) idle).m.cnt = 3 := by decide

theorem test_witness_MasterWriteCommand :
    (tState cfg64 (tChan .cmd 0 [1, 2, 3, 4] 100 110) idle).ready .m 110 ∧ (tState cfg64 (tChan .cmd 0 [1, 2, 3, 4] 100 110) idle).m.payload.isSome = true ∧ (tState cfg64 (tChan .cmd 0 [1, 2, 3, 4] 100 110) idle).m.ph = .cmd ∧ (tState cfg64 (tChan .cmd 0 [1, 2, 3, 4] 100 110) idle).m.cnt = 0 ∧
      (0x03 : Byte) ≠ 0x02 := by decide

theorem test_witness_RowsTheSpecDecides_command :
    (tState cfg64 (tChan .cmd 0 [1, 2, 3, 4] 100 110) idle).ready .m 110 ∧ (tState cfg64 (tChan .cmd 0 [1, 2, 3, 4] 100 110) idle).m.payload.isSome = true ∧ (tState cfg64 (tChan .cmd 0 [1, 2, 3, 4] 100 110) idle).m.ph = .cmd ∧ (tState cfg64 (tChan .cmd 0 [1, 2, 3, 4] 100 110) idle).m.cnt = 0 ∧
      (0x03 : Byte) ≠ 0x02 := by decide

theorem test_witness_MasterParameterBytes_paramV :
    (tState cfg64 (tChan .paramV 2 (t1Bytes.take 7) 100 110) idle).ready .m 110 ∧ (tState cfg64 (tChan .paramV 2 (t1Bytes.take 7) 100 110) idle).m.payload.isSome = true ∧ (tState cfg64 (tChan .paramV 2 (t1Bytes.take 7) 100 110) idle).m.ph = .paramV ∧ (tState cfg64 (tChan .paramV 2 (t1Bytes.take 7) 100 110) idle).m.cnt ≠ 3 := by decide

theorem test_witness_MasterParameterBytes_paramV_last :
    (tState cfg64 (tChan .paramV 3 (t1Bytes.take 8) 100 110) idle).ready .m 110 ∧ (tState cfg64 (tChan .paramV 3 (t1Bytes.take 8) 100 110) idle).m.payload.isSome = true ∧ (tState cfg64 (tChan .paramV 3 (t1Bytes.take 8) 100 110) idle).m.ph = .paramV ∧ (tState cfg64 (tChan .paramV 3 (t1Bytes.take 8) 100 110) idle).m.cnt = 3 := by decide

theorem test_witness_MasterParameterBytes_paramQ :
    (tState cfg64 (tChan .paramQ 2 (t1Bytes.take 7) 100 110) idle).ready .m 110 ∧ (tState cfg64 (tChan .paramQ 2 (t1Bytes.take 7) 100 110) idle).m.payload.isSome = true ∧ (tState cfg64 (tChan .paramQ 2 (t1Bytes.take 7) 100 110) idle).m.ph = .paramQ ∧ (tState cfg64 (tChan .paramQ 2 (t1Bytes.take 7) 100 110) idle).m.cnt ≠ 3 := by decide

theorem test_witness_RowsTheSpecDecides_query_end :
    (tState cfg9 (tChan .paramQ 3 (t1Bytes.take 8) 100 110) idle).ready .m 110 ∧ (tState cfg9 (tChan .paramQ 3 (t1Bytes.take 8) 100 110) idle).m.payload.isSome = true ∧ (tState cfg9 (tChan .paramQ 3 (t1Bytes.take 8) 100 110) idle).m.ph = .paramQ ∧ (tState cfg9 (tChan .paramQ 3 (t1Bytes.take 8) 100 110) idle).m.cnt = 3 := by decide

theorem test_witness_MasterTerminatorAndChecksum_value :
    (tState cfg12 (tChan .value 0 (t1Bytes.take 11) 100 110) idle).ready .m 110 ∧ (tState cfg12 (tChan .value 0 (t1Bytes.take 11) 100 110) idle).m.payload.isSome = true ∧ (tState cfg12 (tChan .value 0 (t1Bytes.take 11) 100 110) idle).m.ph = .value ∧ (tState cfg12 (tChan .value 0 (t1Bytes.take 11) 100 110) idle).m.cnt = 0 ∧
      (0x02 : Byte) ≠ 0x03 := by decide

theorem test_witness_RowsTheSpecDecides_value :
    (tState cfg12 (tChan .value 0 (t1Bytes.take 11) 100 110) idle).ready .m 110 ∧ (tState cfg12 (tChan .value 0 (t1Bytes.take 11) 100 110) idle).m.payload.isSome = true ∧ (tState cfg12 (tChan .value 0 (t1Bytes.take 11) 100 110) idle).m.ph = .value ∧ (tState cfg12 (tChan .value 0 (t1Bytes.take 11) 100 110) idle).m.cnt = 0 ∧
      (0x02 : Byte) ≠ 0x03 := by decide

theorem test_witness_MasterTerminatorAndChecksum_cksum :
    (tState cfg13 (tChan .cksum 0 (t1Bytes.take 12) 100 110) idle).ready .m 110 ∧ (tState cfg13 (tChan .cksum 0 (t1Bytes.take 12) 100 110) idle).m.payload.isSome = true ∧ (tState cfg13 (tChan .cksum 0 (t1Bytes.take 12) 100 110) idle).m.ph = .cksum ∧ (tState cfg13 (tChan .cksum 0 (t1Bytes.take 12) 100 110) idle).m.cnt = 0 := by decide

theorem test_witness_NodeFirstByte_nak15 :
    (tState cfg1 idle (idle)).ready .nd 0 ∧ (tState cfg1 idle (idle)).nd.payload.isSome = true ∧ (tState cfg1 idle (idle)).nd.ph = .idle ∧ (tState cfg1 idle (idle)).nd.cnt = 0 ∧
      cfg1.nak = .x15 ∧ (0x21 : Byte) ≠ 0x06 ∧ (0x21 : Byte) ≠ cfg1.nak.byte := by decide

theorem test_witness_NodeFirstByte_nak21 :
    (tState cfg21 idle (idle)).ready .nd 0 ∧ (tState cfg21 idle (idle)).nd.payload.isSome = true ∧ (tState cfg21 idle (idle)).nd.ph = .idle ∧ (tState cfg21 idle (idle)).nd.cnt = 0 ∧
      cfg21.nak = .x21 := by decide

theorem test_witness_NodeParameterPhase :
    (tState cfg64 idle (tChan .paramV 2 [2, 3] 100 110)).ready .nd 110 ∧ (tState cfg64 idle (tChan .paramV 2 [2, 3] 100 110)).nd.payload.isSome = true ∧ (tState cfg64 idle (tChan .paramV 2 [2, 3] 100 110)).nd.ph = .paramV ∧ (tState cfg64 idle (tChan .paramV 2 [2, 3] 100 110)).nd.cnt ≠ 3 := by decide

theorem test_witness_NodeParameterPhase_last :
    (tState cfg4 idle (tChan .paramV 3 [2, 3, 4] 100 110)).ready .nd 110 ∧ (tState cfg4 idle (tChan .paramV 3 [2, 3, 4] 100 110)).nd.payload.isSome = true ∧ (tState cfg4 idle (tChan .paramV 3 [2, 3, 4] 100 110)).nd.ph = .paramV ∧ (tState cfg4 idle (tChan .paramV 3 [2, 3, 4] 100 110)).nd.cnt = 3 := by decide

theorem test_witness_NodeValueAndChecksum_value :
    (tState cfg64 idle (tChan .value 0 [2, 3, 4, 5] 100 110)).ready .nd 110 ∧ (tState cfg64 idle (tChan .value 0 [2, 3, 4, 5] 100 110)).nd.payload.isSome = true ∧ (tState cfg64 idle (tChan .value 0 [2, 3, 4, 5] 100 110)).nd.ph = .value ∧ (tState cfg64 idle (tChan .value 0 [2, 3, 4, 5] 100 110)).nd.cnt = 0 ∧
      (0x04 : Byte) ≠ 0x03 := by decide

theorem test_witness_RowsTheSpecDecides_node_terminator :
    (tState cfg64 idle (tChan .value 0 [2, 3, 4, 5] 100 110)).ready .nd 110 ∧ (tState cfg64 idle (tChan .value 0 [2, 3, 4, 5] 100 110)).nd.payload.isSome = true ∧ (tState cfg64 idle (tChan .value 0 [2, 3, 4, 5] 100 110)).nd.ph = .value ∧ (tState cfg64 idle (tChan .value 0 [2, 3, 4, 5] 100 110)).nd.cnt = 0 ∧
      (0x04 : Byte) ≠ 0x03 := by decide

theorem test_witness_NodeValueAndChecksum_cksum :
    (tState cfg64 idle (tChan .cksum 0 [2, 3, 4, 5, 3] 100 110)).ready .nd 110 ∧ (tState cfg64 idle (tChan .cksum 0 [2, 3, 4, 5, 3] 100 110)).nd.payload.isSome = true ∧ (tState cfg64 idle (tChan .cksum 0 [2, 3, 4, 5, 3] 100 110)).nd.ph = .cksum ∧ (tState cfg64 idle (tChan .cksum 0 [2, 3, 4, 5, 3] 100 110)).nd.cnt = 0 := by decide

theorem test_witness_LateByteStartsANewFrame :
    eventOf (.byteMIdle 0x32 1110) = .byte .m 0x32 1110 ∧ ((tState cfg64 (tChan .addr 2 [0x30, 0x31] 100 110) idle).chan .m).ph ≠ .idle ∧
      (tState cfg64 (tChan .addr 2 [0x30, 0x31] 100 110) idle).cfg.tIb ≤ 1110 - ((tState cfg64 (tChan .addr 2 [0x30, 0x31] 100 110) idle).chan .m).lastTs ∧
      ((tState cfg64 (tChan .addr 2 [0x30, 0x31] 100 110) idle).chan .m).payload = some [0x30, 0x31] := by decide

theorem test_witness_LateByteStartsANewFrame_idle :
    eventOf (.byteMIdle 0x32 1110) = .byte .m 0x32 1110 ∧ (State.reset.chan .m).ph = .idle := by decide

theorem test_witness_ByteChannelFrame :
    eventOf (.byteMAddr 0x32 120) = .byte .m 0x32 120 ∧ (nextOf (exec (.byteMAddr 0x32 120) (tState cfg64 (tChan .addr 2 [0x30, 0x31] 100 110) idle))).isSome = true := by decide

theorem test_witness_RowNotSelectedIsRefused :
    eventOf (.byteMCmdQry 0x02 120) = .byte .m 0x02 120 ∧
      ((tState cfg64 (tChan .cmd 0 [1, 2, 3, 4] 100 110) idle).chan .m).timedOut cfg64 120 = false ∧
      fetch (.byte .m 0x02 120) (tState cfg64 (tChan .cmd 0 [1, 2, 3, 4] 100 110) idle) ≠ .ok (.byteMCmdQry 0x02 120) := by
  decide

theorem test_witness_TickCompletesTimedOutFrames_master :
    (tState cfg64 (tChan .addr 2 [0x30, 0x31] 100 110) idle).m.ph ≠ .idle ∧ (tState cfg64 (tChan .addr 2 [0x30, 0x31] 100 110) idle).cfg.tIb ≤ 1110 - (tState cfg64 (tChan .addr 2 [0x30, 0x31] 100 110) idle).m.lastTs ∧
      (tState cfg64 (tChan .addr 2 [0x30, 0x31] 100 110) idle).m.payload = some [0x30, 0x31] := by decide

theorem test_witness_TickCompletesTimedOutFrames_node :
    (tState cfg64 idle (tChan .paramV 2 [2, 3] 100 110)).nd.ph ≠ .idle ∧ (tState cfg64 idle (tChan .paramV 2 [2, 3] 100 110)).cfg.tIb ≤ 1110 - (tState cfg64 idle (tChan .paramV 2 [2, 3] 100 110)).nd.lastTs ∧
      (tState cfg64 idle (tChan .paramV 2 [2, 3] 100 110)).nd.payload = some [2, 3] := by decide

theorem test_witness_TickCompletesTimedOutFrames_inside :
    (1109 : Timestamp) - (tState cfg64 (tChan .addr 2 [0x30, 0x31] 100 110) idle).m.lastTs < (tState cfg64 (tChan .addr 2 [0x30, 0x31] 100 110) idle).cfg.tIb ∧ (1109 : Timestamp) - (tState cfg64 idle (tChan .paramV 2 [2, 3] 100 110)).nd.lastTs < (tState cfg64 idle (tChan .paramV 2 [2, 3] 100 110)).cfg.tIb := by decide

theorem test_witness_ElapsedTimeIsModular :
    (tState cfg64 (tChan .addr 2 [0x30, 0x31] 100 110) idle).m.ph ≠ .idle ∧ (tState cfg64 (tChan .addr 2 [0x30, 0x31] 100 110) idle).m.lastTs.toNat ≤ (110 : Timestamp).toNat ∧
      (109 : Timestamp).toNat < (tState cfg64 (tChan .addr 2 [0x30, 0x31] 100 110) idle).m.lastTs.toNat ∧
      cfg64.tIb.toNat ≤ 2 ^ 64 - ((tState cfg64 (tChan .addr 2 [0x30, 0x31] 100 110) idle).m.lastTs.toNat - (109 : Timestamp).toNat) := by decide

theorem test_witness_PushStoresAtTheTail :
    (pushAll [ackEntry 1] (State.resetWith cfg13)).count < cfg13.qcap := by decide

theorem test_witness_ReservationsFollowTheQueue_push :
    (pushAll [ackEntry 1] (State.resetWith cfg13)).count < cfg13.qcap := by decide

theorem test_witness_FullQueueDropsEmptyQueueReturnsNone_full :
    (pushAll [ackEntry 1, ackEntry 2] (State.resetWith cfg13)).count = cfg13.qcap := by decide

theorem test_witness_FullQueueDropsEmptyQueueReturnsNone_empty :
    State.reset.count = 0 := by decide

theorem test_witness_PopReturnsTheOldest :
    0 < (pushAll [ackEntry 1] State.reset).count ∧ (pushAll [ackEntry 1] State.reset).entryAt 0 = some (ackEntry 1) ∧
      (pushAll [ackEntry 1] State.reset).head = 0 ∧ Memory.wf (pushAll [ackEntry 1] State.reset).slots = true := by decide

theorem test_witness_ReservationsFollowTheQueue_pop :
    0 < (pushAll [ackEntry 1] State.reset).count ∧ (pushAll [ackEntry 1] State.reset).entryAt 0 = some (ackEntry 1) ∧
      (pushAll [ackEntry 1] State.reset).head = 0 ∧ Memory.wf (pushAll [ackEntry 1] State.reset).slots = true := by decide

theorem test_witness_ChannelsAreIndependent_byte :
    Role.nd ≠ .m ∧ eventOf (.byteMAddr 0x32 120) = .byte .m 0x32 120 ∧
      (nextOf (exec (.byteMAddr 0x32 120) (tState cfg64 (tChan .addr 2 [0x30, 0x31] 100 110) idle))).isSome = true := by decide

theorem test_witness_ChannelsAreIndependent_tick :
    Role.m ≠ .nd ∧ eventOf (.tickNd 1110) = .tick .nd 1110 ∧ (nextOf (exec (.tickNd 1110) (tState cfg64 idle (tChan .paramV 2 [2, 3] 100 110)))).isSome = true := by decide

theorem test_witness_OnlyOwnersWrite :
    (nextOf (exec .rdlen State.reset)).isSome = true ∧ Instr.rdlen ≠ .reset ∧ Instr.rdlen ≠ .pop ∧
      eventOf .rdlen = .rdlen := by decide

theorem test_witness_OnlyOwnersWrite_byte :
    (nextOf (exec (.byteMAddr 0x32 120) (tState cfg64 (tChan .addr 2 [0x30, 0x31] 100 110) idle))).isSome = true ∧ Instr.byteMAddr 0x32 120 ≠ .reset ∧
      eventOf (.byteMAddr 0x32 120) = .byte .m 0x32 120 := by decide

theorem test_witness_ByteAndTickQueueFrame :
    eventOf (.tickM 1110) = .tick .m 1110 ∧ (nextOf (exec (.tickM 1110) (tState cfg64 (tChan .addr 2 [0x30, 0x31] 100 110) idle))).isSome = true ∧
      (1 : Nat) ≠ (State.reset.head + State.reset.count + 0) % State.reset.cfg.qcap := by decide

theorem test_witness_ParametersAreConstant :
    (nextOf (step (present [.pop] State.reset))).isSome = true := by decide

theorem test_witness_StepKeepsTheInvariant :
    Inv (present [.byte .m 0x30 100] State.reset) ∧ InboxOk (present [.byte .m 0x30 100] State.reset) ∧
      (nextOf (step (present [.byte .m 0x30 100] State.reset))).isSome = true := by decide

theorem test_witness_NothingTraps :
    Inv (present [.byte .nd 0x06 200] (tState cfg64 (tChan .addr 2 [0x30, 0x31] 100 110) idle)) ∧ InboxOk (present [.byte .nd 0x06 200] (tState cfg64 (tChan .addr 2 [0x30, 0x31] 100 110) idle)) := by decide

theorem test_witness_QueueNeverOverCapacity :
    (present [.push (ackEntry 3)] (pushAll [ackEntry 1, ackEntry 2] (State.resetWith cfg13))).count ≤ cfg13.qcap ∧
      (nextOf (step (present [.push (ackEntry 3)] (pushAll [ackEntry 1, ackEntry 2] (State.resetWith cfg13))))).isSome = true := by decide

theorem test_witness_MemoriesStayCanonical :
    Memory.wf (tState cfg64 (tChan .addr 2 [0x30, 0x31] 100 110) idle).m.buf = true ∧ Memory.wf (tState cfg64 (tChan .addr 2 [0x30, 0x31] 100 110) idle).nd.buf = true ∧ Memory.wf (tState cfg64 (tChan .addr 2 [0x30, 0x31] 100 110) idle).slots = true ∧
      (∀ c ∈ (pushAll [ackEntry 1] State.reset).slots, Memory.wf c.2.data = true) ∧
      (nextOf (step (present [.byte .m 0x32 120] (tState cfg64 (tChan .addr 2 [0x30, 0x31] 100 110) idle)))).isSome = true := by decide

theorem test_witness_PoppedEntriesAreWholeFrames :
    Inv (pushAll [ackEntry 1] State.reset) ∧ 0 < (pushAll [ackEntry 1] State.reset).count := by decide

theorem test_witness_QueueIsAFifo_room :
    QueueInv (pushAll [ackEntry 1] (State.resetWith cfg13)) ∧ (pushAll [ackEntry 1] (State.resetWith cfg13)).atomicLevel ∧
      (pushAll [ackEntry 1] (State.resetWith cfg13)).count < cfg13.qcap ∧ 0 < (pushAll [ackEntry 1] (State.resetWith cfg13)).count := by decide

theorem test_witness_QueueIsAFifo_full :
    QueueInv (pushAll [ackEntry 1, ackEntry 2] (State.resetWith cfg13)) ∧
      (pushAll [ackEntry 1, ackEntry 2] (State.resetWith cfg13)).atomicLevel ∧
      (pushAll [ackEntry 1, ackEntry 2] (State.resetWith cfg13)).count = cfg13.qcap := by decide

theorem test_witness_BurstKeepsTheFirst :
    QueueInv State.reset ∧ State.reset.atomicLevel ∧ State.reset.count = 0 := by decide

theorem test_witness_EventConservesBytes :
    Inv (tState cfg64 (tChan .addr 2 [0x30, 0x31] 100 110) idle) ∧ eventOf (.byteMAddr 0x32 120) = .byte .m 0x32 120 ∧ (nextOf (exec (.byteMAddr 0x32 120) (tState cfg64 (tChan .addr 2 [0x30, 0x31] 100 110) idle))).isSome = true := by decide

theorem test_witness_EventConservesBytes_tick :
    Inv (tState cfg64 idle (tChan .paramV 2 [2, 3] 100 110)) ∧ eventOf (.tickNd 1110) = .tick .nd 1110 ∧ (nextOf (exec (.tickNd 1110) (tState cfg64 idle (tChan .paramV 2 [2, 3] 100 110)))).isSome = true := by decide

theorem test_witness_RunConservesBytesAndFrames :
    Inv State.reset ∧ State.reset.inbox = [] ∧ [Event.byte .nd 0x06 500, .tick .m 600, .pop, .rddrop, .rdlen].all withinRun = true := by decide

theorem test_witness_WellFormedMessagesAreCaptured_write :
    Inv (State.resetWith cfg12) ∧
      messageWellFormed cfg12.nak (.masterWrite #v[0x30, 3, 3, 3] #v[3, 3, 3, 3] [0x31] 3) = true ∧
      (messageBytes (.masterWrite #v[0x30, 3, 3, 3] #v[3, 3, 3, 3] [0x31] 3)).length ≤ cfg12.n ∧
      ((0 : Timestamp) :: [999, 999, 1000, 1999, 2000, 2001, 2002, 2003, 2004, 2005, 3004]).length =
        (messageBytes (.masterWrite #v[0x30, 3, 3, 3] #v[3, 3, 3, 3] [0x31] 3)).length ∧
      gapsBelow cfg12.tIb ((0 : Timestamp) :: [999, 999, 1000, 1999, 2000, 2001, 2002, 2003, 2004, 2005, 3004]) = true ∧
      (State.resetWith cfg12).m.ph = .idle := by decide

theorem test_witness_WellFormedMessagesAreCaptured_others :
    messageWellFormed .x15 (.masterQuery #v[1, 2, 3, 4] 3 #v[1, 2, 3, 4]) = true ∧ messageWellFormed .x21 (.nodeControl 0x21) = true ∧
      messageWellFormed .x15 (.nodeResponse #v[0x21, 6, 6, 6] [6] 3) = true ∧
      (messageBytes (.nodeResponse #v[0x21, 6, 6, 6] [6] 3)).length ≤ cfg12.n ∧
      ((5 : Timestamp) :: [10, 12, 13, 14, 15, 1014]).length = (messageBytes (.nodeResponse #v[0x21, 6, 6, 6] [6] 3)).length ∧
      gapsBelow cfg12.tIb ((5 : Timestamp) :: [10, 12, 13, 14, 15, 1014]) = true ∧
      (messageBytes (.nodeControl 0x21)).length = ((7 : Timestamp) :: []).length := by decide

theorem test_witness_PortsPresentTheirOwnAgents :
    State.reset.count = 0 ∧ 0 < (pushAll [ackEntry 1] State.reset).count ∧
      (pushAll [ackEntry 1] State.reset).head = 0 ∧ (pushAll [ackEntry 1] State.reset).entryAt 0 = some (ackEntry 1) := by decide

theorem test_witness_FieldsSurviveTheCapture :
    messageWellFormed cfg64.nak (.nodeResponse #v[2, 0x41, 0x42, 0x43] [0x31, 0x32] 0x77) = true := by decide

theorem test_witness_TicksAndDrainReachQuiescence :
    Inv (tState cfg64 (tChan .addr 2 [0x30, 0x31] 100 110) idle) ∧ (tState cfg64 (tChan .addr 2 [0x30, 0x31] 100 110) idle).cfg.tIb ≤ 1110 - (tState cfg64 (tChan .addr 2 [0x30, 0x31] 100 110) idle).m.lastTs ∧ (tState cfg64 (tChan .addr 2 [0x30, 0x31] 100 110) idle).nd.ph = .idle := by decide

theorem test_witness_TicksAndDrainReachQuiescence_node :
    Inv (tState cfg64 idle (tChan .paramV 2 [2, 3] 100 110)) ∧ (tState cfg64 idle (tChan .paramV 2 [2, 3] 100 110)).m.ph = .idle ∧ (tState cfg64 idle (tChan .paramV 2 [2, 3] 100 110)).cfg.tIb ≤ 1110 - (tState cfg64 idle (tChan .paramV 2 [2, 3] 100 110)).nd.lastTs := by decide

theorem test_witness_ReadLength : Inv State.reset := by decide

theorem test_witness_ReserveClaimsTheTail :
    (pushAll [ackEntry 1] (State.resetWith cfg13)).fillOf .m = none ∧
      (pushAll [ackEntry 1] (State.resetWith cfg13)).rsv < cfg13.qcap := by decide

theorem test_witness_ReserveClaimsTheTail_full :
    (pushAll [ackEntry 1, ackEntry 2] (State.resetWith cfg13)).fillOf .nd = none ∧
      (pushAll [ackEntry 1, ackEntry 2] (State.resetWith cfg13)).rsv = cfg13.qcap := by decide

theorem test_witness_FillAndPublishASlot_fill :
    (fineState partSlot).fillOf .m = some { slot := 0, entry := ackEntry 1 } ∧
      ∀ i, Field.data i ∈ [Field.len, .data 12, .data 0] → i < (fineState partSlot).cfg.n :=
  ⟨by decide, fun i h => by
    simp at h
    rcases h with rfl | rfl <;> decide⟩

theorem test_witness_FillAndPublishASlot_other :
    FineInv (fineState partSlot) ∧ (fineState partSlot).fillOf .m = some { slot := 0, entry := ackEntry 1 } ∧
      FineOp.pop.producer ≠ some .m ∧ (nextOf (fineStep .pop (fineState partSlot))).isSome = true ∧
      (fineState partSlot).head = 0 := by decide

theorem test_witness_FillAndPublishASlot_publish :
    FineInv (fineState (entrySlot (ackEntry 1))) ∧
      (fineState (entrySlot (ackEntry 1))).fillOf .m = some { slot := 0, entry := ackEntry 1 } ∧
      ∀ f ∈ entryFields (ackEntry 1), ((fineState (entrySlot (ackEntry 1))).slotAt 0).has f = true := by decide

theorem test_witness_FinePopTakesAPublishedSlot_none :
    State.reset.rsv = 0 ∧ (fineState partSlot).pub.getD 0 false = false := by decide

theorem test_witness_FinePopTakesAPublishedSlot :
    0 < (pushAll [ackEntry 1] State.reset).rsv ∧ (pushAll [ackEntry 1] State.reset).pub.getD 0 false = true ∧
      (pushAll [ackEntry 1] State.reset).head = 0 ∧ (pushAll [ackEntry 1] State.reset).entryAt 0 = some (ackEntry 1) := by
  decide

/-- Fill steps that write every field of `ackEntry`, two of them twice, in three steps. -/
def fillSteps : List (List Field) := [[.role, .data 0], [.ts, .role, .len], [.reason, .data 0]]

/-- The fill steps name no cell outside a slot. -/
theorem fillSteps_inSlot (i : Nat) (h : Field.data i ∈ fillSteps.flatten) : i < cfg13.n := by
  simp [fillSteps] at h
  subst h
  decide

theorem test_witness_ReserveFillPublishIsPush :
    (∀ i, Field.data i ∈ fillSteps.flatten → i < (State.resetWith cfg13).cfg.n) ∧
      Inv (State.resetWith cfg13) ∧ (∀ f ∈ entryFields (ackEntry 1), f ∈ fillSteps.flatten) ∧
      (State.resetWith cfg13).count < cfg13.qcap :=
  ⟨fillSteps_inSlot, by decide⟩

theorem test_witness_ReserveFillPublishIsPush_full :
    Inv (pushAll [ackEntry 1, ackEntry 2] (State.resetWith cfg13)) ∧
      (pushAll [ackEntry 1, ackEntry 2] (State.resetWith cfg13)).count = cfg13.qcap := by decide

theorem test_witness_NestedPushesKeepReservationOrder :
    (∀ i, Field.data i ∈ (fillSteps.take 1 ++ fillSteps.drop 1 ++ fillSteps).flatten → i < (State.resetWith cfg13).cfg.n) ∧
      Inv (State.resetWith cfg13) ∧ Role.nd ≠ .m ∧
      (∀ f ∈ entryFields (ackEntry 1), f ∈ (fillSteps.take 1 ++ fillSteps.drop 1).flatten) ∧
      (∀ f ∈ entryFields (ackEntry 2), f ∈ fillSteps.flatten) ∧ (State.resetWith cfg13).count + 2 ≤ cfg13.qcap :=
  ⟨fun i h => fillSteps_inSlot i (by
    rw [List.take_append_drop, List.flatten_append, List.mem_append, or_self] at h
    exact h), by decide⟩

theorem test_witness_FinePopAgrees :
    Inv (pushAll [ackEntry 1] State.reset) := by decide

theorem test_witness_FineStepsKeepTheInvariant :
    FineInv (fineState partSlot) ∧ (nextOf (fineStep (.fill .m [.role, .role]) (fineState partSlot))).isSome = true := by decide

theorem test_witness_FineStepsKeepTheInvariant_reserve :
    FineInv (State.resetWith cfg13) ∧ (ackEntry 1).wellFormed (State.resetWith cfg13).cfg = true ∧
      (nextOf (fineStep (.reserve .m (ackEntry 1)) (State.resetWith cfg13))).isSome = true := by decide

theorem test_witness_ConsumerSeesOnlyWholeRecords :
    FineInv (fineState partSlot) := by decide

theorem test_witness_ForbiddenFineStepsAreRefused :
    (fineState partSlot).fillOf .m = some { slot := 0, entry := ackEntry 1 } ∧ (fineState partSlot).fillOf .nd = none ∧
      Field.data 13 ∈ [Field.len, .data 13] ∧ (fineState partSlot).cfg.n ≤ 13 ∧
      Field.role ∈ entryFields (ackEntry 1) ∧ ((fineState partSlot).slotAt 0).has .role = false := by decide

end Sys2Proof.Tests
end

section
/-!
PROOFS. Facts the proofs below need of the memories, of a slot partly written (41_encoder_queue.md R214) and of the occupied slots
(10_state.md R41).
-/

namespace Sys2Proof.Machine

/-! ### Canonical memories -/

/-- What an index reads as is a listed cell. -/
theorem Memory.mem_of_read {α : Type} {mem : List (Nat × α)} {a : Nat} {v : α} (h : Memory.read mem a = some v) :
    (a, v) ∈ mem := by
  induction mem with
  | nil => simp at h
  | cons cell rest ih =>
    obtain ⟨b, w⟩ := cell
    unfold Memory.read at h
    split at h
    · rename_i heq
      cases h
      simp [heq]
    · exact List.mem_cons_of_mem _ (ih h)

/-- A write lists the cell written and otherwise only cells listed before. -/
theorem Memory.mem_write {α : Type} {mem : List (Nat × α)} {a : Nat} {v : α} {c : Nat × α} (h : c ∈ Memory.write mem a v) :
    c = (a, v) ∨ c ∈ mem := by
  induction mem with
  | nil => simpa [Memory.write] using h
  | cons cell rest ih =>
    obtain ⟨b, w⟩ := cell
    unfold Memory.write at h
    split at h
    · simpa using h
    · split at h
      · exact (List.mem_cons.mp h).imp_right (List.mem_cons_of_mem _)
      · rcases List.mem_cons.mp h with heq | hmem
        · simp [heq]
        · exact (ih hmem).imp_right (List.mem_cons_of_mem _)

/-- The canonical form determines a memory: two canonical memories that read alike at every index are the same. -/
theorem Memory.eq_of_read_eq {α : Type} {mem mem' : List (Nat × α)} (h : Memory.wf mem = true) (h' : Memory.wf mem' = true)
    (hread : ∀ a, Memory.read mem a = Memory.read mem' a) : mem = mem' := by
  induction mem generalizing mem' with
  | nil =>
    cases mem' with
    | nil => rfl
    | cons cell rest => simpa [Memory.read] using hread cell.1
  | cons cell rest ih =>
    cases mem' with
    | nil => simpa [Memory.read] using hread cell.1
    | cons cell' rest' =>
      obtain ⟨b, w⟩ := cell
      obtain ⟨b', w'⟩ := cell'
      obtain ⟨hab, hrest⟩ := (Memory.wf_cons b w rest).mp h
      obtain ⟨hab', hrest'⟩ := (Memory.wf_cons b' w' rest').mp h'
      have hb : b = b' := by
        rcases Nat.lt_trichotomy b b' with hlt | heq | hlt
        · have := hread b
          simp [Memory.read, Nat.ne_of_lt hlt, Memory.read_of_above hab' (Nat.le_of_lt hlt)] at this
        · exact heq
        · have := hread b'
          simp [Memory.read, Nat.ne_of_lt hlt, Memory.read_of_above hab (Nat.le_of_lt hlt)] at this
      subst hb
      have hw : w = w' := by simpa [Memory.read] using hread b
      have htail : rest = rest' := ih hrest hrest' fun a => by
        by_cases ha : a = b
        · subst ha
          rw [Memory.read_of_above hab (Nat.le_refl _), Memory.read_of_above hab' (Nat.le_refl _)]
        · simpa [Memory.read, ha] using hread a
      rw [hw, htail]

/-! ### A slot partly written -/

/-- All that is written in the slot are fields of `e` (R214): `Slot.partOf` without its demand that something is written. -/
structure Slot.Agrees (sl : Slot) (e : Entry) : Prop where
  role : ∀ r, sl.role = some r → r = e.role
  reason : ∀ r, sl.reason = some r → r = e.reason
  ts : ∀ t, sl.ts = some t → t = e.ts
  len : ∀ n, sl.len = some n → n = e.len
  canonical : Memory.wf sl.data = true
  data : ∀ c ∈ sl.data, e.data[c.1]? = some c.2

theorem isNone_or_beq_iff {α : Type} [DecidableEq α] (o : Option α) (a : α) :
    (o.isNone || o == some a) = true ↔ ∀ x, o = some x → x = a := by
  cases o <;> simp

theorem partOf_iff {sl : Slot} {e : Entry} : sl.partOf e = true ↔ sl ≠ Slot.blank ∧ sl.Agrees e := by
  simp only [Slot.partOf, Bool.and_eq_true, isNone_or_beq_iff, bne_iff_ne, List.all_eq_true, beq_iff_eq]
  constructor
  · rintro ⟨⟨⟨⟨⟨⟨hne, hrole⟩, hreason⟩, hts⟩, hlen⟩, hwf⟩, hdata⟩
    exact ⟨hne, hrole, hreason, hts, hlen, hwf, hdata⟩
  · rintro ⟨hne, hrole, hreason, hts, hlen, hwf, hdata⟩
    exact ⟨⟨⟨⟨⟨⟨hne, hrole⟩, hreason⟩, hts⟩, hlen⟩, hwf⟩, hdata⟩

theorem agrees_blank (e : Entry) : Slot.blank.Agrees e where
  role := by simp [Slot.blank]
  reason := by simp [Slot.blank]
  ts := by simp [Slot.blank]
  len := by simp [Slot.blank]
  canonical := rfl
  data := by simp [Slot.blank]

/-- Writing a field of the entry keeps the slot to fields of the entry (R214). -/
theorem agrees_put {sl : Slot} {e : Entry} {f : Field} (h : sl.Agrees e) (hf : f ∈ entryFields e) : (sl.put e f).Agrees e := by
  cases f with
  | data i =>
    have hi : i < e.len := mem_entryFields.mp hf i rfl
    rw [put_data sl e i hi]
    refine { h with canonical := Memory.wf_write _ _ _ h.canonical, data := fun c hc => ?_ }
    rcases Memory.mem_write hc with rfl | hold
    · exact List.getElem?_eq_getElem hi
    · exact h.data c hold
  | len => exact { h with len := by simp [eq_comm] }
  | ts => exact { h with ts := by simp [eq_comm] }
  | reason => exact { h with reason := by simp [eq_comm] }
  | role => exact { h with role := by simp [eq_comm] }

/-- A slot with a written field is not blank. -/
theorem put_ne_blank {sl : Slot} {e : Entry} {f : Field} (hf : f ∈ entryFields e) : sl.put e f ≠ Slot.blank := by
  intro hblank
  have hhas : (sl.put e f).has f = true := (has_put sl e hf).mpr (.inl rfl)
  rw [hblank] at hhas
  cases f <;> simp [Slot.has, Slot.blank] at hhas

/-- A slot that holds fields of `e` only, and every field of `e`, is the slot `e` fills (R215, R75). -/
theorem eq_entrySlot_of_agrees {sl : Slot} {e : Entry} (h : sl.Agrees e) (hall : ∀ f ∈ entryFields e, sl.has f = true) :
    sl = entrySlot e := by
  have hrole : sl.role = some e.role := by
    obtain ⟨r, hr⟩ := Option.isSome_iff_exists.mp (hall .role (by simp [entryFields]))
    rw [hr, h.role r hr]
  have hreason : sl.reason = some e.reason := by
    obtain ⟨r, hr⟩ := Option.isSome_iff_exists.mp (hall .reason (by simp [entryFields]))
    rw [hr, h.reason r hr]
  have hts : sl.ts = some e.ts := by
    obtain ⟨t, ht⟩ := Option.isSome_iff_exists.mp (hall .ts (by simp [entryFields]))
    rw [ht, h.ts t ht]
  have hlen : sl.len = some e.len := by
    obtain ⟨n, hn⟩ := Option.isSome_iff_exists.mp (hall .len (by simp [entryFields]))
    rw [hn, h.len n hn]
  have hdata : sl.data = (entrySlot e).data := by
    refine Memory.eq_of_read_eq h.canonical (wf_entrySlot_data e) fun i => ?_
    rw [read_entrySlot_data]
    cases hr : Memory.read sl.data i with
    | some b => exact (h.data _ (Memory.mem_of_read hr)).symm
    | none =>
      have hi : ¬ i < e.len := fun hi => by
        have : (Memory.read sl.data i).isSome = true := hall (.data i) (mem_entryFields.mpr (by rintro j ⟨⟩; exact hi))
        simp [hr] at this
      exact (List.getElem?_eq_none (Nat.le_of_not_lt hi)).symm
  obtain ⟨role, reason, ts, len, data⟩ := sl
  simp only at hrole hreason hts hlen hdata
  subst hrole hreason hts hlen hdata
  rfl

/-! ### The occupied slots -/

/-- The slot indices of the entries held are distinct (R41). -/
theorem slotIndex_inj {s : State} {i j : Nat} (hi : i < s.cfg.qcap) (hj : j < s.cfg.qcap) (h : s.slotIndex i = s.slotIndex j) :
    i = j :=
  (Nat.ModEq.add_left_cancel' s.head h).eq_of_lt_of_lt hi hj

theorem slotIndex_zero {s : State} (h : s.head < s.cfg.qcap) : s.slotIndex 0 = s.head := Nat.mod_eq_of_lt h

theorem slotIndex_lt (s : State) (i : Nat) : s.slotIndex i < s.cfg.qcap := Nat.mod_lt _ (Config_qcap_pos s.cfg)

theorem slotIndex_release (s : State) (i : Nat) : s.release.slotIndex i = s.slotIndex (i + 1) := by
  simp [State.slotIndex, Nat.add_assoc, Nat.add_comm 1 i]

/-- The slot past the last entry held is free while the queue is not full (R41). -/
theorem not_occupied_slotIndex_count {s : State} (h : s.count < s.cfg.qcap) : ¬ s.occupied (s.slotIndex s.count) := by
  rintro ⟨i, hi, heq⟩
  exact Nat.ne_of_lt hi (slotIndex_inj (by omega) h heq)

/-- A release frees the oldest slot and no other (R207). -/
theorem occupied_release {s : State} (hle : s.count ≤ s.cfg.qcap) (hhead : s.head < s.cfg.qcap) (k : Nat) :
    s.release.occupied k ↔ s.occupied k ∧ k ≠ s.head := by
  simp only [State.occupied, release_count, slotIndex_release]
  constructor
  · rintro ⟨i, hi, rfl⟩
    refine ⟨⟨i + 1, by omega, rfl⟩, fun heq => ?_⟩
    rw [← slotIndex_zero hhead] at heq
    exact Nat.succ_ne_zero i (slotIndex_inj (by omega) (by omega) heq)
  · rintro ⟨⟨i, hi, rfl⟩, hne⟩
    cases i with
    | zero => exact absurd (slotIndex_zero hhead) hne
    | succ i => exact ⟨i, by omega, rfl⟩

end Sys2Proof.Machine
end

section
/-!
PROOFS. Every fine-level step keeps the fine level's invariant (41_encoder_queue.md section 7, R77, R213 to R216): one lemma per
kind of step, over the invariant with its facts named.
-/

namespace Sys2Proof.Machine

/-! ### The PUSHes in progress -/

theorem fillOf_setFill_other (s : State) {c d : Role} (f : Option Fill) (h : d ≠ c) : (s.setFill c f).fillOf d = s.fillOf d := by
  cases c with
  | m =>
    cases d with
    | m => exact absurd rfl h
    | nd => rfl
  | nd =>
    cases d with
    | m => rfl
    | nd => exact absurd rfl h

theorem fillOf_setFill_eq_some {s : State} {c d : Role} {f : Option Fill} {w : Fill} :
    (s.setFill c f).fillOf d = some w ↔ (d = c ∧ f = some w) ∨ (d ≠ c ∧ s.fillOf d = some w) := by
  by_cases h : d = c
  · subst h
    simp
  · simp [fillOf_setFill_other s f h, h]

/-- Both roles' PUSHes in progress, read together. -/
theorem fillOf_congr {s t : State} (hm : t.fillM = s.fillM) (hnd : t.fillNd = s.fillNd) (c : Role) : t.fillOf c = s.fillOf c := by
  cases c with
  | m => exact hm
  | nd => exact hnd

/-- A slot is being filled when it is the slot of some producer's PUSH in progress. -/
theorem filling_iff {s : State} {k : Nat} : s.filling k ↔ ∃ c w, s.fillOf c = some w ∧ w.slot = k := by
  constructor
  · rintro (⟨w, hw, hk⟩ | ⟨w, hw, hk⟩)
    · exact ⟨.m, w, hw, hk⟩
    · exact ⟨.nd, w, hw, hk⟩
  · rintro ⟨c, w, hw, hk⟩
    cases c with
    | m => exact .inl ⟨w, hw, hk⟩
    | nd => exact .inr ⟨w, hw, hk⟩

/-! ### The invariant by named facts -/

/-- `FineInv` with its facts named, the two producers spoken of by role. -/
structure State.FineOk (s : State) : Prop where
  count_le : s.count ≤ s.cfg.qcap
  head_lt : s.head < s.cfg.qcap
  rsv_eq : s.rsv = s.count
  pub_length : s.pub.length = s.cfg.qcap
  slots_wf : Memory.wf s.slots = true
  slots_inside : Memory.inside s.cfg.qcap s.slots = true
  pub_iff : ∀ k < s.cfg.qcap, (s.pub.getD k false = true ↔ s.occupied k ∧ ∀ c w, s.fillOf c = some w → w.slot ≠ k)
  pub_whole : ∀ k < s.cfg.qcap, s.pub.getD k false = true →
    ∃ e, e.wellFormed s.cfg = true ∧ Memory.read s.slots k = some (entrySlot e)
  free : ∀ k < s.cfg.qcap, ¬ s.occupied k → Memory.read s.slots k = none
  fill_occupied : ∀ c w, s.fillOf c = some w → s.occupied w.slot
  fill_wellFormed : ∀ c w, s.fillOf c = some w → w.entry.wellFormed s.cfg = true
  fill_partOf : ∀ c w sl, s.fillOf c = some w → Memory.read s.slots w.slot = some sl → sl.partOf w.entry = true
  fill_inj : ∀ c d w v, s.fillOf c = some w → s.fillOf d = some v → w.slot = v.slot → c = d

theorem lt_of_occupied {s : State} {k : Nat} (h : s.occupied k) : k < s.cfg.qcap := by
  obtain ⟨i, -, rfl⟩ := h
  exact slotIndex_lt s i

/-- A slot that reads as the slot of an entry is read back as that entry. -/
theorem exists_mem_entryAt_iff {s : State} {k : Nat} :
    (∃ e ∈ s.entryAt k, e.wellFormed s.cfg = true ∧ Memory.read s.slots k = some (entrySlot e)) ↔
      ∃ e, e.wellFormed s.cfg = true ∧ Memory.read s.slots k = some (entrySlot e) := by
  constructor
  · rintro ⟨e, -, he⟩
    exact ⟨e, he⟩
  · rintro ⟨e, hwf, hread⟩
    exact ⟨e, by simp [entryAt_of_read _ s hread], hwf, hread⟩

theorem not_filling_iff {s : State} {k : Nat} : ¬ s.filling k ↔ ∀ c w, s.fillOf c = some w → w.slot ≠ k := by
  simp [filling_iff]

theorem fineOk_of_fineInv {s : State} (h : FineInv s) : s.FineOk := by
  obtain ⟨⟨hle, hhead, hrsv, hpub, hwf, hin, hslots⟩, hm, hnd, hne⟩ := h
  have hok : ∀ c w, s.fillOf c = some w → s.fillOk w := by
    intro c w hw
    cases c with
    | m => exact hm w hw
    | nd => exact hnd w hw
  constructor
  case count_le => exact hle
  case head_lt => exact hhead
  case rsv_eq => exact hrsv
  case pub_length => exact hpub
  case slots_wf => exact hwf
  case slots_inside => exact hin
  case pub_iff =>
    intro k hk
    obtain ⟨hiff, -, -⟩ := hslots k hk
    rwa [not_filling_iff] at hiff
  case pub_whole =>
    intro k hk hp
    obtain ⟨-, hwhole, -⟩ := hslots k hk
    exact exists_mem_entryAt_iff.mp (hwhole hp)
  case free =>
    intro k hk
    obtain ⟨-, -, hfree⟩ := hslots k hk
    exact hfree
  case fill_occupied =>
    intro c w hw
    obtain ⟨hocc, -, -, -⟩ := hok c w hw
    exact hocc
  case fill_wellFormed =>
    intro c w hw
    obtain ⟨-, -, hentry, -⟩ := hok c w hw
    exact hentry
  case fill_partOf =>
    intro c w sl hw
    obtain ⟨-, -, -, hpart⟩ := hok c w hw
    exact hpart sl
  case fill_inj =>
    intro c d w v hw hv heq
    cases c with
    | m =>
      cases d with
      | m => rfl
      | nd => exact absurd heq (hne w hw v hv)
    | nd =>
      cases d with
      | m => exact absurd heq.symm (hne v hv w hw)
      | nd => rfl

theorem fineInv_of_fineOk {s : State} (h : s.FineOk) : FineInv s := by
  have hok : ∀ c w, s.fillOf c = some w → s.fillOk w := fun c w hw =>
    ⟨h.fill_occupied c w hw, lt_of_occupied (h.fill_occupied c w hw), h.fill_wellFormed c w hw,
      fun sl hsl => h.fill_partOf c w sl hw hsl⟩
  refine ⟨⟨h.count_le, h.head_lt, h.rsv_eq, h.pub_length, h.slots_wf, h.slots_inside, fun k hk => ⟨?_, ?_, h.free k hk⟩⟩,
    fun w hw => hok .m w hw, fun w hw => hok .nd w hw, fun w hw v hv heq => ?_⟩
  · rw [not_filling_iff]
    exact h.pub_iff k hk
  · exact fun hp => exists_mem_entryAt_iff.mpr (h.pub_whole k hk hp)
  · cases h.fill_inj .m .nd w v hw hv heq

theorem fineInv_iff {s : State} : FineInv s ↔ s.FineOk := ⟨fineOk_of_fineInv, fineInv_of_fineOk⟩

/-! ### The flags of the slots -/

theorem getD_set_same {l : List Bool} {k : Nat} (b : Bool) (h : k < l.length) : (l.set k b).getD k false = b := by
  simp [List.getD_eq_getElem?_getD, List.getElem?_set_self h]

theorem getD_set_other {l : List Bool} {j k : Nat} (b : Bool) (h : k ≠ j) : (l.set j b).getD k false = l.getD k false := by
  simp [List.getD_eq_getElem?_getD, List.getElem?_set_ne h.symm]

/-- A slot being filled is not published (R213). -/
theorem fineOk_pub_false {s : State} (h : s.FineOk) {c : Role} {w : Fill} (hw : s.fillOf c = some w) :
    ¬ s.pub.getD w.slot false = true := fun hp =>
  ((h.pub_iff w.slot (lt_of_occupied (h.fill_occupied c w hw))).mp hp).2 c w hw rfl

/-! ### Reserve -/

/-- The state after a reserve that finds room (R213). -/
def State.reserved (s : State) (c : Role) (e : Entry) : State :=
  ({ s with rsv := s.rsv + 1, count := s.count + 1 }).setFill c (some { slot := (s.head + s.rsv) % s.cfg.qcap, entry := e })

theorem occupied_reserved {s : State} {c : Role} {e : Entry} {k : Nat} :
    (s.reserved c e).occupied k ↔ s.occupied k ∨ s.slotIndex s.count = k := by
  simp only [State.reserved, State.occupied, State.slotIndex, setFill_count, setFill_head, setFill_cfg,
    Nat.exists_lt_succ_right]

theorem fillOf_reserved {s : State} {c d : Role} {e : Entry} {w : Fill} :
    (s.reserved c e).fillOf d = some w ↔
      (d = c ∧ { slot := s.slotIndex s.rsv, entry := e } = w) ∨ (d ≠ c ∧ s.fillOf d = some w) := by
  unfold State.reserved
  rw [fillOf_setFill_eq_some, Option.some.injEq]
  exact Iff.rfl

theorem fineOk_reserved {s : State} {c : Role} {e : Entry} (h : s.FineOk) (hroom : s.rsv < s.cfg.qcap)
    (he : e.wellFormed s.cfg = true) (hidle : s.fillOf c = none) : (s.reserved c e).FineOk := by
  have hroom' : s.count < s.cfg.qcap := h.rsv_eq ▸ hroom
  have htail : ¬ s.occupied (s.slotIndex s.count) := not_occupied_slotIndex_count hroom'
  have hcfg : (s.reserved c e).cfg = s.cfg := by simp [State.reserved]
  have hslots : (s.reserved c e).slots = s.slots := by simp [State.reserved]
  have hpub : (s.reserved c e).pub = s.pub := by simp [State.reserved]
  have hne : ∀ d w, s.fillOf d = some w → w.slot ≠ s.slotIndex s.count := fun d w hw heq =>
    htail (heq ▸ h.fill_occupied d w hw)
  have hnotc : ∀ d w, s.fillOf d = some w → d ≠ c := by
    rintro d w hw rfl
    rw [hidle] at hw
    cases hw
  have hfill : ∀ d w, (s.reserved c e).fillOf d = some w →
      (d = c ∧ w = { slot := s.slotIndex s.count, entry := e }) ∨ s.fillOf d = some w := by
    intro d w hw
    rcases fillOf_reserved.mp hw with ⟨hd, rfl⟩ | ⟨-, hold⟩
    · exact .inl ⟨hd, by rw [h.rsv_eq]⟩
    · exact .inr hold
  constructor
  case count_le => simpa [State.reserved] using hroom'
  case head_lt => simpa [State.reserved] using h.head_lt
  case rsv_eq => simp [State.reserved, h.rsv_eq]
  case pub_length => simpa [State.reserved] using h.pub_length
  case slots_wf => rw [hslots]; exact h.slots_wf
  case slots_inside => rw [hslots, hcfg]; exact h.slots_inside
  case pub_iff =>
    intro k hk
    rw [hcfg] at hk
    rw [hpub, h.pub_iff k hk, occupied_reserved]
    constructor
    · rintro ⟨hocc, hnf⟩
      refine ⟨.inl hocc, fun d w hw => ?_⟩
      rcases hfill d w hw with ⟨-, rfl⟩ | hold
      · rintro rfl
        exact htail hocc
      · exact hnf d w hold
    · rintro ⟨hocc, hnf⟩
      have hk' : s.slotIndex s.count ≠ k := hnf c { slot := s.slotIndex s.count, entry := e }
        (fillOf_reserved.mpr (.inl ⟨rfl, by rw [h.rsv_eq]⟩))
      exact ⟨hocc.resolve_right hk', fun d w hw => hnf d w (fillOf_reserved.mpr (.inr ⟨hnotc d w hw, hw⟩))⟩
  case pub_whole => rw [hcfg, hslots, hpub]; exact h.pub_whole
  case free =>
    intro k hk hocc
    rw [hcfg] at hk
    rw [hslots]
    exact h.free k hk fun ho => hocc (occupied_reserved.mpr (.inl ho))
  case fill_occupied =>
    intro d w hw
    rw [occupied_reserved]
    rcases hfill d w hw with ⟨-, rfl⟩ | hold
    · exact .inr rfl
    · exact .inl (h.fill_occupied d w hold)
  case fill_wellFormed =>
    intro d w hw
    rw [hcfg]
    rcases hfill d w hw with ⟨-, rfl⟩ | hold
    · exact he
    · exact h.fill_wellFormed d w hold
  case fill_partOf =>
    intro d w sl hw hsl
    rw [hslots] at hsl
    rcases hfill d w hw with ⟨-, rfl⟩ | hold
    · rw [h.free _ (slotIndex_lt s _) htail] at hsl
      cases hsl
    · exact h.fill_partOf d w sl hold hsl
  case fill_inj =>
    intro d d' w v hw hv heq
    rcases hfill d w hw with ⟨rfl, rfl⟩ | hold
    · rcases hfill d' v hv with ⟨rfl, rfl⟩ | hold'
      · rfl
      · exact absurd heq.symm (hne d' v hold')
    · rcases hfill d' v hv with ⟨rfl, rfl⟩ | hold'
      · exact absurd heq (hne d w hold)
      · exact h.fill_inj d d' w v hold hold' heq

/-! ### Fill -/

/-- A write of a field leaves every other slot alone, and what its own slot then holds is a part of the producer's entry (R214). -/
theorem fineOk_writeField {s : State} {c : Role} {w : Fill} (h : s.FineOk) (hw : s.fillOf c = some w) (f : Field) :
    (s.writeField w f).FineOk := by
  by_cases hf : f ∈ entryFields w.entry
  case neg => rwa [State.writeField, if_neg hf]
  have hslots : (s.writeField w f).slots = Memory.write s.slots w.slot ((s.slotAt w.slot).put w.entry f) := by
    rw [State.writeField, if_pos hf]
  have hlt : w.slot < s.cfg.qcap := lt_of_occupied (h.fill_occupied c w hw)
  have hfill : ∀ d, (s.writeField w f).fillOf d = s.fillOf d := fillOf_congr (by simp) (by simp)
  have hocc : ∀ k, (s.writeField w f).occupied k ↔ s.occupied k := fun k => by simp [State.occupied, State.slotIndex]
  have hpart : ((s.slotAt w.slot).put w.entry f).partOf w.entry = true := by
    refine partOf_iff.mpr ⟨put_ne_blank hf, agrees_put ?_ hf⟩
    unfold State.slotAt
    cases hsl : Memory.read s.slots w.slot with
    | none => exact agrees_blank w.entry
    | some sl => exact (partOf_iff.mp (h.fill_partOf c w sl hw hsl)).2
  constructor
  case count_le => simpa using h.count_le
  case head_lt => simpa using h.head_lt
  case rsv_eq => simpa using h.rsv_eq
  case pub_length => simpa using h.pub_length
  case slots_wf => rw [hslots]; exact Memory.wf_write _ _ _ h.slots_wf
  case slots_inside => rw [hslots, writeField_cfg]; exact Memory.inside_write _ _ _ _ h.slots_inside hlt
  case pub_iff => simpa only [writeField_cfg, writeField_pub, hocc, hfill] using h.pub_iff
  case pub_whole =>
    simp only [writeField_cfg, writeField_pub]
    intro k hk hp
    have hne : k ≠ w.slot := by
      rintro rfl
      exact fineOk_pub_false h hw hp
    rw [read_writeField_other s w f k hne]
    exact h.pub_whole k hk hp
  case free =>
    simp only [writeField_cfg, hocc]
    intro k hk hfree
    have hne : k ≠ w.slot := by
      rintro rfl
      exact hfree (h.fill_occupied c w hw)
    rw [read_writeField_other s w f k hne]
    exact h.free k hk hfree
  case fill_occupied => simpa only [hocc, hfill] using h.fill_occupied
  case fill_wellFormed => simpa only [writeField_cfg, hfill] using h.fill_wellFormed
  case fill_partOf =>
    intro d v sl hv hsl
    rw [hfill] at hv
    by_cases heq : v.slot = w.slot
    · cases h.fill_inj d c v w hv hw heq
      cases hw.symm.trans hv
      rw [hslots, Memory.read_write_same] at hsl
      cases hsl
      exact hpart
    · rw [read_writeField_other s w f _ heq] at hsl
      exact h.fill_partOf d v sl hv hsl
  case fill_inj => simpa only [hfill] using h.fill_inj

/-- A step of the fill is a sequence of such writes, each of which leaves the PUSHes in progress as they are. -/
theorem fineOk_fill {s : State} {c : Role} {w : Fill} (h : s.FineOk) (hw : s.fillOf c = some w) (fs : List Field) :
    (fs.foldl (State.writeField w) s).FineOk := by
  induction fs generalizing s with
  | nil => exact h
  | cons f fs ih =>
    have hfill : (s.writeField w f).fillOf c = s.fillOf c := fillOf_congr (by simp) (by simp) c
    exact ih (fineOk_writeField h hw f) (hfill.trans hw)

/-! ### Publish -/

/-- A filled slot holds the producer's whole entry (R215). -/
theorem read_of_filled {s : State} {c : Role} {w : Fill} (h : s.FineOk) (hw : s.fillOf c = some w) (hfilled : s.filled w = true) :
    Memory.read s.slots w.slot = some (entrySlot w.entry) := by
  have hall : ∀ f ∈ entryFields w.entry, (s.slotAt w.slot).has f = true := List.all_eq_true.mp hfilled
  cases hsl : Memory.read s.slots w.slot with
  | none =>
    have : (s.slotAt w.slot).has .role = true := hall .role (by simp [entryFields])
    simp [State.slotAt, hsl, Slot.has, Slot.blank] at this
  | some sl =>
    have hagrees : sl.Agrees w.entry := (partOf_iff.mp (h.fill_partOf c w sl hw hsl)).2
    have hat : s.slotAt w.slot = sl := by simp [State.slotAt, hsl]
    rw [hat] at hall
    rw [eq_entrySlot_of_agrees hagrees hall]

/-- The state after a publish (R215). -/
def State.published (s : State) (c : Role) (w : Fill) : State :=
  { s with pub := s.pub.set w.slot true }.setFill c none

theorem fillOf_published {s : State} {c d : Role} {w v : Fill} :
    (s.published c w).fillOf d = some v ↔ d ≠ c ∧ s.fillOf d = some v := by
  constructor
  · intro h
    rcases fillOf_setFill_eq_some.mp h with ⟨-, hnone⟩ | hold
    · cases hnone
    · exact hold
  · exact fun h => fillOf_setFill_eq_some.mpr (.inr h)

theorem fineOk_published {s : State} {c : Role} {w : Fill} (h : s.FineOk) (hw : s.fillOf c = some w)
    (hfilled : s.filled w = true) : (s.published c w).FineOk := by
  have hlt : w.slot < s.cfg.qcap := lt_of_occupied (h.fill_occupied c w hw)
  have hcfg : (s.published c w).cfg = s.cfg := by simp [State.published]
  have hslots : (s.published c w).slots = s.slots := by simp [State.published]
  have hpub : (s.published c w).pub = s.pub.set w.slot true := by simp [State.published]
  have hocc : ∀ k, (s.published c w).occupied k ↔ s.occupied k := fun k => by
    simp [State.published, State.occupied, State.slotIndex]
  have hfill : ∀ d v, (s.published c w).fillOf d = some v → s.fillOf d = some v := fun d v hv => (fillOf_published.mp hv).2
  constructor
  case count_le => simpa [State.published] using h.count_le
  case head_lt => simpa [State.published] using h.head_lt
  case rsv_eq => simpa [State.published] using h.rsv_eq
  case pub_length => simpa [State.published] using h.pub_length
  case slots_wf => rw [hslots]; exact h.slots_wf
  case slots_inside => rw [hslots, hcfg]; exact h.slots_inside
  case pub_iff =>
    intro k hk
    rw [hcfg] at hk
    rw [hpub, hocc]
    by_cases heq : k = w.slot
    · subst heq
      rw [getD_set_same true (h.pub_length ▸ hlt)]
      refine iff_of_true rfl ⟨h.fill_occupied c w hw, fun d v hv hslot => ?_⟩
      obtain ⟨hne, hold⟩ := fillOf_published.mp hv
      exact hne (h.fill_inj d c v w hold hw hslot)
    · rw [getD_set_other true heq, h.pub_iff k hk]
      refine and_congr_right fun _ => ⟨fun hnf d v hv => hnf d v (hfill d v hv), fun hnf d v hv => ?_⟩
      by_cases hd : d = c
      · subst hd
        cases hw.symm.trans hv
        exact Ne.symm heq
      · exact hnf d v (fillOf_published.mpr ⟨hd, hv⟩)
  case pub_whole =>
    rw [hcfg, hslots, hpub]
    intro k hk hp
    by_cases heq : k = w.slot
    · subst heq
      exact ⟨w.entry, h.fill_wellFormed c w hw, read_of_filled h hw hfilled⟩
    · rw [getD_set_other true heq] at hp
      exact h.pub_whole k hk hp
  case free => simpa only [hcfg, hslots, hocc] using h.free
  case fill_occupied => simpa only [hocc] using fun d v hv => h.fill_occupied d v (hfill d v hv)
  case fill_wellFormed => simpa only [hcfg] using fun d v hv => h.fill_wellFormed d v (hfill d v hv)
  case fill_partOf => simpa only [hslots] using fun d v sl hv => h.fill_partOf d v sl (hfill d v hv)
  case fill_inj => exact fun d d' v v' hv hv' => h.fill_inj d d' v v' (hfill d v hv) (hfill d' v' hv')

/-! ### Pop -/

/-- The release of a published oldest slot (R216): no producer is filling it. -/
theorem fineOk_release {s : State} (h : s.FineOk) (hhead : s.pub.getD s.head false = true) : s.release.FineOk := by
  have hnf : ∀ c w, s.fillOf c = some w → w.slot ≠ s.head := ((h.pub_iff s.head h.head_lt).mp hhead).2
  have hfill : ∀ c, s.release.fillOf c = s.fillOf c := fillOf_congr rfl rfl
  have hocc : ∀ k, s.release.occupied k ↔ s.occupied k ∧ k ≠ s.head := occupied_release h.count_le h.head_lt
  have hqcap : 0 < s.cfg.qcap := Config_qcap_pos s.cfg
  constructor
  case count_le => exact Nat.le_trans (Nat.sub_le _ _) h.count_le
  case head_lt => exact Nat.mod_lt _ hqcap
  case rsv_eq => simp [h.rsv_eq]
  case pub_length => simpa using h.pub_length
  case slots_wf => exact Memory.wf_erase _ _ h.slots_wf
  case slots_inside => exact Memory.inside_erase _ _ _ h.slots_inside
  case pub_iff =>
    intro k hk
    simp only [hocc, hfill, release_pub]
    by_cases heq : k = s.head
    · subst heq
      rw [getD_set_same false (h.pub_length ▸ h.head_lt)]
      simp
    · rw [getD_set_other false heq, h.pub_iff k hk]
      simp [heq]
  case pub_whole =>
    simp only [release_cfg, release_pub, release_slots]
    intro k hk hp
    have hne : k ≠ s.head := by
      rintro rfl
      rw [getD_set_same false (h.pub_length ▸ h.head_lt)] at hp
      cases hp
    rw [getD_set_other false hne] at hp
    rw [Memory.read_erase_other _ _ _ hne]
    exact h.pub_whole k hk hp
  case free =>
    simp only [release_cfg, release_slots, hocc]
    intro k hk hfree
    by_cases heq : k = s.head
    · rw [heq]
      exact Memory.read_erase_same _ _ h.slots_wf
    · rw [Memory.read_erase_other _ _ _ heq]
      exact h.free k hk fun ho => hfree ⟨ho, heq⟩
  case fill_occupied =>
    simp only [hocc, hfill]
    exact fun c w hw => ⟨h.fill_occupied c w hw, hnf c w hw⟩
  case fill_wellFormed => simpa only [release_cfg, hfill] using h.fill_wellFormed
  case fill_partOf =>
    intro c w sl hw hsl
    rw [hfill] at hw
    rw [release_slots, Memory.read_erase_other _ _ _ (hnf c w hw)] at hsl
    exact h.fill_partOf c w sl hw hsl
  case fill_inj => simpa only [hfill] using h.fill_inj

/-- A result returned is no part of the queue. -/
theorem fineOk_emit {s : State} (h : s.FineOk) (r : Result) : (s.emit r).FineOk := { h with }

/-- A drop counted is no part of the queue (R206). -/
theorem fineOk_drop {s : State} (h : s.FineOk) : s.drop.FineOk := { h with }

/-! ### Every step -/

/-- Each step of the fine level keeps the invariant. -/
theorem fineOk_fineStep {s t : State} {op : FineOp} (h : s.FineOk) (he : ∀ c e, op = .reserve c e → e.wellFormed s.cfg = true)
    (hstep : fineStep op s = .next t) : t.FineOk := by
  cases op with
  | reserve c e =>
    obtain ⟨hidle, ⟨-, rfl⟩ | ⟨hroom, rfl⟩⟩ := fineReserve_next.mp hstep
    · exact fineOk_drop h
    · exact fineOk_reserved h hroom (he c e rfl) hidle
  | fill c fs =>
    obtain ⟨w, hw, -, rfl⟩ := fineFill_next.mp hstep
    exact fineOk_fill h hw fs
  | publish c =>
    obtain ⟨w, hw, hfilled, rfl⟩ := finePublish_next.mp hstep
    exact fineOk_published h hw hfilled
  | pop =>
    obtain ⟨-, rfl⟩ | ⟨-, hhead, e, -, rfl⟩ := finePop_next.mp hstep
    · exact fineOk_emit h .none
    · exact fineOk_emit (fineOk_release h hhead) (.entry e)

/-- Settles O58: each kind of step keeps the invariant, which is read through its named facts. -/
theorem fineStepsKeepTheInvariant : Obligations.FineStepsKeepTheInvariant := by
  unfold Obligations.FineStepsKeepTheInvariant
  intro s t op h he hstep
  exact fineInv_iff.mpr (fineOk_fineStep (fineInv_iff.mp h) he hstep)

end Sys2Proof.Machine
end

section
/-!
PROOFS. What an instruction and a step can do, once each: the kinds of instruction, BYTE and TICK as pushes and a rewrite of their
own channel (40_capture_assembler.md R141, R167), and how both are blind to the other channel (R175).
-/

namespace Sys2Proof.Machine

/-! ### The kinds of instruction -/

/-- What executing an instruction is, by the event it has: a BYTE is a row of R141 on its channel, a TICK is the timeout check. -/
inductive InstrKind : Instr → Prop where
  | reset : InstrKind .reset
  | byte {i : Instr} (c : Role) (b : Byte) (ts : Timestamp) (selected : Config → Channel → Bool) (row : Channel → RowOutcome)
      (hevent : eventOf i = .byte c b ts) (hexec : ∀ s, exec i s = byteRow c b ts (selected s.cfg) row s) : InstrKind i
  | tick {i : Instr} (c : Role) (now : Timestamp) (hevent : eventOf i = .tick c now)
      (hexec : ∀ s, exec i s = settle (timeoutCheck c now s)) : InstrKind i
  | pop : InstrKind .pop
  | rddrop : InstrKind .rddrop
  | rdlen : InstrKind .rdlen
  | push (e : Entry) : InstrKind (.push e)

theorem instrKind (i : Instr) : InstrKind i := by
  cases i with
  | reset => exact .reset
  | byteMIdle b ts => exact .byte .m b ts (Function.const _ _) _ rfl fun _ => execByteMIdle.eq_1 ..
  | byteMAddr b ts => exact .byte .m b ts (Function.const _ _) _ rfl fun _ => execByteMAddr.eq_1 ..
  | byteMAddrL b ts => exact .byte .m b ts (Function.const _ _) _ rfl fun _ => execByteMAddrL.eq_1 ..
  | byteMCmdWr ts => exact .byte .m _ ts (Function.const _ _) _ rfl fun _ => execByteMCmdWr.eq_1 ..
  | byteMCmdQry b ts => exact .byte .m b ts (Function.const _ _) _ rfl fun _ => execByteMCmdQry.eq_1 ..
  | byteMParv b ts => exact .byte .m b ts (Function.const _ _) _ rfl fun _ => execByteMParv.eq_1 ..
  | byteMParvL b ts => exact .byte .m b ts (Function.const _ _) _ rfl fun _ => execByteMParvL.eq_1 ..
  | byteMParq b ts => exact .byte .m b ts (Function.const _ _) _ rfl fun _ => execByteMParq.eq_1 ..
  | byteMParqL b ts => exact .byte .m b ts (Function.const _ _) _ rfl fun _ => execByteMParqL.eq_1 ..
  | byteMValTerm ts => exact .byte .m _ ts (Function.const _ _) _ rfl fun _ => execByteMValTerm.eq_1 ..
  | byteMVal b ts => exact .byte .m b ts (Function.const _ _) _ rfl fun _ => execByteMVal.eq_1 ..
  | byteMCksum b ts => exact .byte .m b ts (Function.const _ _) _ rfl fun _ => execByteMCksum.eq_1 ..
  | byteNdIdleAck ts => exact .byte .nd _ ts (Function.const _ _) _ rfl fun _ => execByteNdIdleAck.eq_1 ..
  | byteNdIdleNak15 ts =>
    exact .byte .nd _ ts (fun cfg ch => decide (ch.ph = .idle) && cfg.nak == .x15) _ rfl fun _ => execByteNdIdleNak15.eq_1 ..
  | byteNdIdleNak21 ts =>
    exact .byte .nd _ ts (fun cfg ch => decide (ch.ph = .idle) && cfg.nak == .x21) _ rfl fun _ => execByteNdIdleNak21.eq_1 ..
  | byteNdIdle b ts =>
    exact .byte .nd b ts (fun cfg ch => decide (ch.ph = .idle) && b != Config.ack && b != cfg.nak.byte) _ rfl
      fun _ => execByteNdIdle.eq_1 ..
  | byteNdParv b ts => exact .byte .nd b ts (Function.const _ _) _ rfl fun _ => execByteNdParv.eq_1 ..
  | byteNdParvL b ts => exact .byte .nd b ts (Function.const _ _) _ rfl fun _ => execByteNdParvL.eq_1 ..
  | byteNdValTerm ts => exact .byte .nd _ ts (Function.const _ _) _ rfl fun _ => execByteNdValTerm.eq_1 ..
  | byteNdVal b ts => exact .byte .nd b ts (Function.const _ _) _ rfl fun _ => execByteNdVal.eq_1 ..
  | byteNdCksum b ts => exact .byte .nd b ts (Function.const _ _) _ rfl fun _ => execByteNdCksum.eq_1 ..
  | tickM now => exact .tick .m now rfl fun _ => rfl
  | tickNd now => exact .tick .nd now rfl fun _ => rfl
  | pop => exact .pop
  | rddrop => exact .rddrop
  | rdlen => exact .rdlen
  | push e => exact .push e

theorem exec_rddrop_next {s t : State} : exec .rddrop s = .next t ↔ t = s.emit (.dropCount s.drops) := by
  simp [exec, execRddrop, eq_comm]

theorem exec_rdlen_next {s t : State} : exec .rdlen s = .next t ↔ t = s.emit (.length s.count) := by
  simp [exec, execRdlen, eq_comm]

theorem exec_push_next {e : Entry} {s t : State} : exec (.push e) s = .next t ↔ t = s.push e := by
  simp [exec, execPush, eq_comm]

/-- The state after a RESET (R280). -/
def State.afterReset (s : State) : State :=
  { State.resetWith s.cfg with inbox := s.inbox, emitted := s.emitted, choice := s.choice }

theorem exec_reset_next {s t : State} : exec .reset s = .next t ↔ t = s.afterReset := by
  simp [exec, execReset, State.afterReset, eq_comm]

/-! ### The other channel -/

section OtherChannel

variable {c d : Role} (hdc : d ≠ c) (ch : Channel)

/-- PUSH neither reads nor writes a channel. -/
theorem push_setChan (s : State) (e : Entry) : (s.setChan d ch).push e = (s.push e).setChan d ch := by
  have hfull : (s.setChan d ch).full = s.full := by simp [State.full]
  rw [State.push, State.push, hfull]
  split <;> cases d <;> rfl

include hdc

theorem setChan_comm (s : State) (ch' : Channel) : (s.setChan d ch).setChan c ch' = (s.setChan c ch').setChan d ch := by
  cases c with
  | m =>
    cases d with
    | m => exact absurd rfl hdc
    | nd => rfl
  | nd =>
    cases d with
    | m => rfl
    | nd => exact absurd rfl hdc

theorem completed_setChan_other (s : State) (reason : Reason) (p : List Byte) :
    (s.setChan d ch).completed c reason p = (s.completed c reason p).setChan d ch := by
  simp only [State.completed, chan_setChan_other s d ch c hdc.symm, push_setChan, setChan_comm hdc]

theorem complete_setChan_other {s t : State} {reason : Reason} (h : complete c reason s = .ok t) :
    complete c reason (s.setChan d ch) = .ok (t.setChan d ch) := by
  obtain ⟨p, hp, rfl⟩ := complete_ok.mp h
  refine complete_ok.mpr ⟨p, ?_, (completed_setChan_other hdc ch s reason p).symm⟩
  rwa [chan_setChan_other s d ch c hdc.symm]

theorem timeoutCheck_setChan_other {s t : State} {now : Timestamp} (h : timeoutCheck c now s = .ok t) :
    timeoutCheck c now (s.setChan d ch) = .ok (t.setChan d ch) := by
  rw [timeoutCheck_ok, chan_setChan_other s d ch c hdc.symm, setChan_cfg]
  rcases timeoutCheck_ok.mp h with ⟨hin, rfl⟩ | ⟨hout, p, hp, rfl⟩
  · exact .inl ⟨hin, rfl⟩
  · exact .inr ⟨hout, p, hp, (completed_setChan_other hdc ch s _ p).symm⟩

theorem append_setChan_other {s t : State} {b : Byte} {ts : Timestamp} (h : append c b ts s = .ok t) :
    append c b ts (s.setChan d ch) = .ok (t.setChan d ch) := by
  obtain ⟨hlen, rfl⟩ := append_ok.mp h
  rw [append_ok, chan_setChan_other s d ch c hdc.symm, setChan_cfg, setChan_comm hdc]
  exact ⟨hlen, rfl⟩

theorem conclude_setChan_other {s t : State} {outcome : RowOutcome} (h : conclude c outcome s = .ok t) :
    conclude c outcome (s.setChan d ch) = .ok (t.setChan d ch) := by
  rw [conclude_ok, chan_setChan_other s d ch c hdc.symm, setChan_cfg]
  rcases conclude_ok.mp h with ⟨reason, ho, hc⟩ | ⟨ph, cnt, ho, hlen, hc⟩ | ⟨ph, cnt, ho, hlen, rfl⟩
  · exact .inl ⟨reason, ho, complete_setChan_other hdc ch hc⟩
  · exact .inr (.inl ⟨ph, cnt, ho, hlen, complete_setChan_other hdc ch hc⟩)
  · exact .inr (.inr ⟨ph, cnt, ho, hlen, (setChan_comm hdc ch s _).symm⟩)

theorem byteRow_setChan_other {s t : State} {b : Byte} {ts : Timestamp} {selected : Channel → Bool} {row : Channel → RowOutcome}
    (h : byteRow c b ts selected row s = .next t) :
    byteRow c b ts selected row (s.setChan d ch) = .next (t.setChan d ch) := by
  obtain ⟨s1, s2, hcheck, hsel, happend, hconclude⟩ := byteRow_next.mp h
  refine byteRow_next.mpr ⟨s1.setChan d ch, s2.setChan d ch, timeoutCheck_setChan_other hdc ch hcheck, ?_,
    append_setChan_other hdc ch happend, ?_⟩
  · rwa [chan_setChan_other s1 d ch c hdc.symm]
  · rw [chan_setChan_other s1 d ch c hdc.symm]
    exact conclude_setChan_other hdc ch hconclude

end OtherChannel

/-- The instruction is a BYTE or a TICK of channel `c`. -/
abbrev ofChannel (i : Instr) (c : Role) : Prop := (∃ b ts, eventOf i = .byte c b ts) ∨ ∃ now, eventOf i = .tick c now

/-- A BYTE or TICK runs alike whatever the other channel holds, and carries it through (R175). -/
theorem exec_setChan_other {s t : State} {i : Instr} {c d : Role} (hdc : d ≠ c) (ch : Channel) (hi : ofChannel i c)
    (h : exec i s = .next t) : exec i (s.setChan d ch) = .next (t.setChan d ch) := by
  cases instrKind i with
  | byte c' b ts selected row hevent hexec =>
    have hc : c' = c := by simpa [ofChannel, hevent] using hi
    subst hc
    rw [hexec] at h ⊢
    rw [setChan_cfg]
    exact byteRow_setChan_other hdc ch h
  | tick c' now hevent hexec =>
    have hc : c' = c := by simpa [ofChannel, hevent] using hi
    subst hc
    rw [hexec, settle_next] at h ⊢
    exact timeoutCheck_setChan_other hdc ch h
  | reset => simp [ofChannel, eventOf] at hi
  | pop => simp [ofChannel, eventOf] at hi
  | rddrop => simp [ofChannel, eventOf] at hi
  | rdlen => simp [ofChannel, eventOf] at hi
  | push e => simp [ofChannel, eventOf] at hi

/-- Settles O33. That the other channel is left alone is the case where it is replaced by itself. -/
theorem channelsAreIndependent : Obligations.ChannelsAreIndependent := by
  unfold Obligations.ChannelsAreIndependent
  intro s t i c d ch hdc hi h
  refine ⟨?_, exec_setChan_other hdc ch hi h⟩
  have hself := exec_setChan_other hdc (s.chan d) hi h
  rw [setChan_chan, h, Host.Outcome.next.injEq] at hself
  rw [hself, chan_setChan_same]

/-! ### Pushes and the event's own channel -/

section PushAll

variable (es : List Entry) (s : State)

@[simp] theorem pushAll_nil : pushAll [] s = s := rfl
@[simp] theorem pushAll_cons (e : Entry) : pushAll (e :: es) s = pushAll es (s.push e) := rfl
theorem pushAll_append (es' : List Entry) : pushAll (es ++ es') s = pushAll es' (pushAll es s) := List.foldl_append

theorem pushAll_setChan (c : Role) (ch : Channel) : pushAll es (s.setChan c ch) = (pushAll es s).setChan c ch := by
  induction es generalizing s with
  | nil => rfl
  | cons e es ih => rw [pushAll_cons, push_setChan, ih, pushAll_cons]

/-- A property that each PUSH keeps is kept by any number of them. -/
theorem pushAll_keeps {P : State → Prop} (hpush : ∀ s e, P s → P (s.push e)) (h : P s) : P (pushAll es s) := by
  induction es generalizing s with
  | nil => exact h
  | cons e es ih => exact ih (s.push e) (hpush s e h)

/-- A part of the state that no PUSH changes. -/
theorem pushAll_frame {α : Type} (part : State → α) (hpush : ∀ s e, part (s.push e) = part s) :
    part (pushAll es s) = part s :=
  pushAll_keeps es s (P := fun t => part t = part s) (fun t e ht => (hpush t e).trans ht) rfl

@[simp] theorem pushAll_cfg : (pushAll es s).cfg = s.cfg := pushAll_frame es s State.cfg push_cfg
@[simp] theorem pushAll_chan (c : Role) : (pushAll es s).chan c = s.chan c :=
  pushAll_frame es s (State.chan · c) fun s => push_chan s c
@[simp] theorem pushAll_head : (pushAll es s).head = s.head := pushAll_frame es s State.head push_head
@[simp] theorem pushAll_fillM : (pushAll es s).fillM = s.fillM := pushAll_frame es s State.fillM push_fillM
@[simp] theorem pushAll_fillNd : (pushAll es s).fillNd = s.fillNd := pushAll_frame es s State.fillNd push_fillNd
@[simp] theorem pushAll_inbox : (pushAll es s).inbox = s.inbox := pushAll_frame es s State.inbox push_inbox
@[simp] theorem pushAll_emitted : (pushAll es s).emitted = s.emitted := pushAll_frame es s State.emitted push_emitted
@[simp] theorem pushAll_choice : (pushAll es s).choice = s.choice := pushAll_frame es s State.choice push_choice

/-- A PUSH raises `count` by one or leaves it (R205, R206). -/
theorem push_count (e : Entry) : (s.push e).count = s.count ∨ (s.push e).count = s.count + 1 := by
  unfold State.push
  split
  · exact .inl rfl
  · exact .inr rfl

/-- Pushes raise `count` by at most their number. -/
theorem pushAll_count : s.count ≤ (pushAll es s).count ∧ (pushAll es s).count ≤ s.count + es.length := by
  induction es generalizing s with
  | nil => simp
  | cons e es ih =>
    obtain ⟨hlow, hhigh⟩ := ih (s.push e)
    rw [pushAll_cons, List.length_cons]
    rcases push_count s e with h | h <;> omega

end PushAll

/-- `t` is `s` after at most `k` pushes of entries of channel `c`, and with channel `c` rewritten, its buffer kept canonical:
all that an event of channel `c` does (R141, R167). -/
def State.feeds (c : Role) (k : Nat) (s t : State) : Prop :=
  ∃ (es : List Entry) (ch : Channel), es.length ≤ k ∧ (∀ e ∈ es, e.role = c) ∧
    (Memory.wf (s.chan c).buf = true → Memory.wf ch.buf = true) ∧ t = (pushAll es s).setChan c ch

section Feeds

variable {c : Role} {s t u : State}

theorem feeds_setChan {ch : Channel} (hwf : Memory.wf (s.chan c).buf = true → Memory.wf ch.buf = true) :
    State.feeds c 0 s (s.setChan c ch) :=
  ⟨[], ch, Nat.le_refl 0, by simp, hwf, rfl⟩

theorem feeds_refl (s : State) (c : Role) : State.feeds c 0 s s := by
  simpa using feeds_setChan (s := s) (c := c) id

theorem feeds_mono {j k : Nat} (h : State.feeds c j s t) (hjk : j ≤ k) : State.feeds c k s t := by
  obtain ⟨es, ch, hlen, hrest⟩ := h
  exact ⟨es, ch, Nat.le_trans hlen hjk, hrest⟩

theorem feeds_trans {j k : Nat} (h : State.feeds c j s t) (h' : State.feeds c k t u) : State.feeds c (j + k) s u := by
  obtain ⟨es, ch, hlen, hrole, hwf, rfl⟩ := h
  obtain ⟨es', ch', hlen', hrole', hwf', rfl⟩ := h'
  rw [chan_setChan_same] at hwf'
  refine ⟨es ++ es', ch', ?_, ?_, hwf' ∘ hwf, ?_⟩
  · rw [List.length_append]
    exact Nat.add_le_add hlen hlen'
  · intro e he
    exact (List.mem_append.mp he).elim (hrole e) (hrole' e)
  · rw [pushAll_append, pushAll_setChan, setChan_setChan]

/-- `complete` pushes one entry (R146). -/
theorem complete_feeds {reason : Reason} (h : complete c reason s = .ok t) : State.feeds c 1 s t := by
  obtain ⟨p, -, rfl⟩ := complete_ok.mp h
  exact ⟨[encodeFrame ((s.chan c).frame c p reason)], (s.chan c).idled, Nat.le_refl 1,
    by simp [encodeFrame, Channel.frame], id, rfl⟩

theorem push_feeds (s : State) (e : Entry) : State.feeds e.role 1 s (s.push e) :=
  ⟨[e], s.chan e.role, Nat.le_refl 1, by simp, id, by rw [pushAll_cons, pushAll_nil, ← push_setChan, setChan_chan]⟩

theorem timeoutCheck_feeds {now : Timestamp} (h : timeoutCheck c now s = .ok t) : State.feeds c 1 s t := by
  rcases timeoutCheck_ok.mp h with ⟨-, rfl⟩ | ⟨-, p, hp, rfl⟩
  · exact feeds_mono (feeds_refl _ c) (Nat.zero_le 1)
  · exact complete_feeds (complete_ok.mpr ⟨p, hp, rfl⟩)

theorem append_feeds {b : Byte} {ts : Timestamp} (h : append c b ts s = .ok t) : State.feeds c 0 s t := by
  obtain ⟨-, rfl⟩ := append_ok.mp h
  exact feeds_setChan (Memory.wf_write _ _ _)

theorem conclude_feeds {outcome : RowOutcome} (h : conclude c outcome s = .ok t) : State.feeds c 1 s t := by
  rcases conclude_ok.mp h with ⟨reason, -, hc⟩ | ⟨ph, cnt, -, -, hc⟩ | ⟨ph, cnt, -, -, rfl⟩
  · exact complete_feeds hc
  · exact complete_feeds hc
  · exact feeds_mono (feeds_setChan id) (Nat.zero_le 1)

/-- A BYTE pushes at most the frame its pre-check completes and the frame its byte completes (R141). -/
theorem byteRow_feeds {b : Byte} {ts : Timestamp} {selected : Channel → Bool} {row : Channel → RowOutcome}
    (h : byteRow c b ts selected row s = .next t) : State.feeds c 2 s t := by
  obtain ⟨s1, s2, hcheck, -, happend, hconclude⟩ := byteRow_next.mp h
  exact feeds_trans (timeoutCheck_feeds hcheck) (feeds_trans (append_feeds happend) (conclude_feeds hconclude))

end Feeds

/-! ### Steps -/

/-- One step takes at most one of the presented requests and serves it; what stays presented was presented before (R7). -/
theorem step_next {s t : State} (h : step s = .next t) :
    ∃ inbox choice, (∀ batch ∈ inbox, ∃ batch₀ ∈ s.inbox, batch ⊆ batch₀) ∧
      (t = { s with inbox := inbox, choice := choice } ∨
        ∃ r, (∃ batch ∈ s.inbox, r ∈ batch) ∧ serve r { s with inbox := inbox, choice := choice } = .next t) := by
  unfold step stepInbox at h
  split at h
  next hin =>
    cases h
    exact ⟨s.inbox, s.choice, fun batch hb => ⟨batch, hb, List.Subset.refl batch⟩, .inl rfl⟩
  next later hin =>
    cases h
    exact ⟨later, s.choice, fun batch hb => ⟨batch, by simp [hin, hb], List.Subset.refl batch⟩, .inl rfl⟩
  next r later hin =>
    exact ⟨later, s.choice, fun batch hb => ⟨batch, by simp [hin, hb], List.Subset.refl batch⟩,
      .inr ⟨r, ⟨[r], by simp [hin], by simp⟩, h⟩⟩
  next r r' rest later hin =>
    obtain ⟨i, hi, htaken⟩ := takeRequest_spec (Config.order s.choice) r (r' :: rest)
    have hbatch : (r :: r' :: rest) ∈ s.inbox := by simp [hin]
    simp only [htaken] at h
    refine ⟨(r :: r' :: rest).eraseIdx i :: later, s.choice + 1, fun batch hb => ?_,
      .inr ⟨(r :: r' :: rest)[i], ⟨_, hbatch, List.getElem_mem hi⟩, h⟩⟩
    rcases List.mem_cons.mp hb with rfl | hlater
    · exact ⟨_, hbatch, List.eraseIdx_subset⟩
    · exact ⟨batch, by simp [hin, hlater], List.Subset.refl batch⟩

section Keeps

variable {P : State → Prop} (hbook : ∀ s inbox choice, P s → P { s with inbox := inbox, choice := choice })
  (hreset : ∀ s, P s → P s.afterReset) (hfeeds : ∀ c k s t, P s → State.feeds c k s t → P t)
  (hemit : ∀ s r, P s → P (s.emit r)) (hrelease : ∀ s, P s → P s.release)

include hreset hfeeds hemit hrelease

/-- A property kept by the operations that instructions are made of is kept by every instruction. -/
theorem exec_keeps {s t : State} {i : Instr} (hs : P s) (h : exec i s = .next t) : P t := by
  cases instrKind i with
  | reset =>
    cases exec_reset_next.mp h
    exact hreset s hs
  | byte c b ts selected row hevent hexec =>
    rw [hexec] at h
    exact hfeeds c 2 s t hs (byteRow_feeds h)
  | tick c now hevent hexec =>
    rw [hexec, settle_next] at h
    exact hfeeds c 1 s t hs (timeoutCheck_feeds h)
  | pop =>
    obtain ⟨-, rfl⟩ | ⟨-, e, -, rfl⟩ := execPop_next.mp h
    · exact hemit s .none hs
    · exact hemit s.release (.entry e) (hrelease s hs)
  | rddrop =>
    cases exec_rddrop_next.mp h
    exact hemit s (.dropCount s.drops) hs
  | rdlen =>
    cases exec_rdlen_next.mp h
    exact hemit s (.length s.count) hs
  | push e =>
    cases exec_push_next.mp h
    exact hfeeds e.role 1 s (s.push e) hs (push_feeds s e)

include hbook

/-- If moreover the property does not speak of the inbox or of the free choices, every step keeps it. -/
theorem step_keeps {s t : State} (hs : P s) (h : step s = .next t) : P t := by
  obtain ⟨inbox, choice, -, rfl | ⟨r, -, hserve⟩⟩ := step_next h
  · exact hbook s inbox choice hs
  · obtain ⟨-, i, -, hi⟩ := serve_next.mp hserve
    exact exec_keeps hreset hfeeds hemit hrelease (hbook s inbox choice hs) hi

end Keeps

end Sys2Proof.Machine
end

section
/-!
PROOFS. Who writes what (10_state.md R47), and two invariants of every step in every state: the queue stays within its capacity
(R212) and the memories stay in canonical form (20_memory.md section 1).
-/

namespace Sys2Proof.Machine

/-! ### Owners -/

/-- Each piece of the state is written by its owners only (R47). -/
abbrev OwnersOnly (i : Instr) (s t : State) : Prop :=
  (∀ c, (∀ b ts, eventOf i ≠ .byte c b ts) → (∀ now, eventOf i ≠ .tick c now) → t.chan c = s.chan c) ∧
  (i ≠ .pop → t.head = s.head) ∧
  (i ≠ .pop → t.count = s.count ∨ t.count = s.count + 1 ∨ t.count = s.count + 2) ∧
  (i = .pop ∨ i = .rddrop ∨ i = .rdlen → t.drops = s.drops) ∧
  (i = .rddrop ∨ i = .rdlen → t.count = s.count ∧ t.slots = s.slots) ∧
  (i ≠ .pop → i ≠ .rddrop → i ≠ .rdlen → t.emitted = s.emitted) ∧
  t.fillM = s.fillM ∧ t.fillNd = s.fillNd ∧ sameSurround s t

/-- A BYTE or TICK writes its own channel and, by its pushes, the queue behind `head`. -/
theorem ownersOnly_of_feeds {i : Instr} {c : Role} {s t : State} (hi : ofChannel i c) (h : State.feeds c 2 s t) :
    OwnersOnly i s t := by
  obtain ⟨es, ch, hlen, -, -, rfl⟩ := h
  obtain ⟨hlow, hhigh⟩ := pushAll_count es s
  have hread : ¬ (i = .pop ∨ i = .rddrop ∨ i = .rdlen) := by
    rintro (rfl | rfl | rfl) <;> simp [ofChannel, eventOf] at hi
  refine ⟨fun d hbyte htick => ?_, fun _ => by simp, fun _ => ?_, fun hr => absurd hr hread,
    fun hr => absurd (.inr hr) hread, fun _ _ _ => by simp, by simp, by simp, by simp [sameSurround]⟩
  · have hd : d ≠ c := by
      rintro rfl
      rcases hi with ⟨b, ts, hb⟩ | ⟨now, hn⟩
      · exact hbyte b ts hb
      · exact htick now hn
    rw [chan_setChan_other _ c ch d hd, pushAll_chan]
  · rw [setChan_count]
    omega

/-- Settles O34: a BYTE or TICK by what its pushes and its channel are, the others by their one result. -/
theorem onlyOwnersWrite : Obligations.OnlyOwnersWrite := by
  unfold Obligations.OnlyOwnersWrite
  intro s t i h hi
  show OwnersOnly i s t
  cases instrKind i with
  | reset => exact absurd rfl hi
  | byte c b ts selected row hevent hexec =>
    rw [hexec] at h
    exact ownersOnly_of_feeds (.inl ⟨b, ts, hevent⟩) (byteRow_feeds h)
  | tick c now hevent hexec =>
    rw [hexec, settle_next] at h
    exact ownersOnly_of_feeds (.inr ⟨now, hevent⟩) (feeds_mono (timeoutCheck_feeds h) one_le_two)
  | pop =>
    obtain ⟨-, rfl⟩ | ⟨-, e, -, rfl⟩ := execPop_next.mp h
    · simp [OwnersOnly, sameSurround]
    · simp [OwnersOnly, sameSurround]
  | rddrop =>
    cases exec_rddrop_next.mp h
    simp [OwnersOnly, sameSurround]
  | rdlen =>
    cases exec_rdlen_next.mp h
    simp [OwnersOnly, sameSurround]
  | push e =>
    cases exec_push_next.mp h
    have hcount : (s.push e).count = s.count ∨ (s.push e).count = s.count + 1 ∨ (s.push e).count = s.count + 2 :=
      (push_count s e).imp_right .inl
    simpa [OwnersOnly, sameSurround] using hcount

/-! ### Capacity -/

/-- The queue is within its capacity (R212). -/
abbrev State.withinCapacity (s : State) : Prop := s.count ≤ s.cfg.qcap

/-- A PUSH judges fullness first (R206). -/
theorem withinCapacity_push (s : State) (e : Entry) (h : s.withinCapacity) : (s.push e).withinCapacity := by
  rcases Nat.lt_or_ge s.count s.cfg.qcap with hlt | hge
  · rw [push_of_lt s e hlt]
    exact hlt
  · rw [push_of_full s e hge]
    exact h

theorem withinCapacity_feeds {c : Role} {k : Nat} {s t : State} (h : s.withinCapacity) (hfeeds : State.feeds c k s t) :
    t.withinCapacity := by
  obtain ⟨es, ch, -, -, -, rfl⟩ := hfeeds
  simpa [State.withinCapacity] using pushAll_keeps es s withinCapacity_push h

/-- Settles O40: a PUSH judges fullness first, and no other operation raises `count`. -/
theorem queueNeverOverCapacity : Obligations.QueueNeverOverCapacity := by
  unfold Obligations.QueueNeverOverCapacity
  intro s t hs h
  refine step_keeps (P := State.withinCapacity) ?book ?reset ?feeds ?emit ?release hs h
  case book => exact fun _ _ _ hs => hs
  case reset => exact fun _ _ => Nat.zero_le _
  case feeds => exact fun _ _ _ _ hs => withinCapacity_feeds hs
  case emit => exact fun _ _ hs => hs
  case release => exact fun _ hs => Nat.le_trans (Nat.sub_le _ _) hs

/-! ### Canonical memories -/

/-- The slot array and the bytes in each slot are in canonical form. -/
def State.slotsCanonical (s : State) : Prop := Memory.wf s.slots = true ∧ ∀ c ∈ s.slots, Memory.wf c.2.data = true

/-- The payload buffers, the slot array and the bytes in each slot are in canonical form. -/
def State.memoriesCanonical (s : State) : Prop := (∀ c, Memory.wf (s.chan c).buf = true) ∧ s.slotsCanonical

theorem memoriesCanonical_iff {s : State} :
    s.memoriesCanonical ↔
      Memory.wf s.m.buf = true ∧ Memory.wf s.nd.buf = true ∧ Memory.wf s.slots = true ∧
        ∀ c ∈ s.slots, Memory.wf c.2.data = true := by
  constructor
  · rintro ⟨hbuf, hslots, hdata⟩
    exact ⟨hbuf .m, hbuf .nd, hslots, hdata⟩
  · rintro ⟨hm, hnd, hslots, hdata⟩
    refine ⟨fun c => ?_, hslots, hdata⟩
    cases c with
    | m => exact hm
    | nd => exact hnd

/-- A PUSH writes at most one slot, with an entry's bytes in index order. -/
theorem slotsCanonical_push (s : State) (e : Entry) (h : s.slotsCanonical) : (s.push e).slotsCanonical := by
  obtain ⟨hslots, hdata⟩ := h
  unfold State.push
  split
  · exact ⟨hslots, hdata⟩
  · refine ⟨Memory.wf_write _ _ _ hslots, fun c hc => ?_⟩
    rcases Memory.mem_write hc with rfl | hold
    · exact wf_entrySlot_data e
    · exact hdata c hold

theorem slotsCanonical_release {s : State} (h : s.slotsCanonical) : s.release.slotsCanonical := by
  obtain ⟨hslots, hdata⟩ := h
  exact ⟨Memory.wf_erase _ _ hslots, fun c hc => hdata c (Memory.mem_erase hc)⟩

theorem memoriesCanonical_feeds {c : Role} {k : Nat} {s t : State} (h : s.memoriesCanonical) (hfeeds : State.feeds c k s t) :
    t.memoriesCanonical := by
  obtain ⟨hbuf, hslots⟩ := h
  obtain ⟨es, ch, -, -, hwf, rfl⟩ := hfeeds
  constructor
  · intro d
    by_cases hd : d = c
    · subst hd
      rw [chan_setChan_same]
      exact hwf (hbuf d)
    · rw [chan_setChan_other _ c ch d hd, pushAll_chan]
      exact hbuf d
  · have hpush := pushAll_keeps es s slotsCanonical_push hslots
    simpa [State.slotsCanonical] using hpush

theorem memoriesCanonical_reset {s : State} : s.afterReset.memoriesCanonical := by
  obtain ⟨hm, hnd, hslots⟩ := reset_memory_wf s.cfg
  exact memoriesCanonical_iff.mpr ⟨hm, hnd, hslots, by simp [State.afterReset, State.resetWith]⟩

/-- Settles O41: the memories are changed by `Memory.write` and `Memory.erase` only, and an entry's bytes stand in index order. -/
theorem memoriesStayCanonical : Obligations.MemoriesStayCanonical := by
  unfold Obligations.MemoriesStayCanonical
  intro s t hm hnd hslots hdata h
  refine memoriesCanonical_iff.mp (step_keeps (P := State.memoriesCanonical) ?book ?reset ?feeds ?emit ?release
    (memoriesCanonical_iff.mpr ⟨hm, hnd, hslots, hdata⟩) h)
  case book => exact fun _ _ _ hs => memoriesCanonical_iff.mpr (memoriesCanonical_iff.mp hs)
  case reset => exact fun _ _ => memoriesCanonical_reset
  case feeds => exact fun _ _ _ _ hs => memoriesCanonical_feeds hs
  case emit => exact fun s r ⟨hbuf, hslots⟩ => ⟨by simpa using hbuf, hslots⟩
  case release => exact fun s ⟨hbuf, hslots⟩ => ⟨by simpa using hbuf, slotsCanonical_release hslots⟩

end Sys2Proof.Machine
end

section
/-!
PROOFS. What the consumer sees of the Output Queue (20_memory.md section 5, 41_encoder_queue.md R216): a published slot is whole
and no producer is filling it.
-/

namespace Sys2Proof.Machine

/-- A published slot is read back as a whole entry of R106 (R79). -/
theorem exists_entry_of_pub {s : State} (h : s.FineOk) {k : Nat} (hk : k < s.cfg.qcap) (hp : s.pub.getD k false = true) :
    ∃ e, s.entryAt k = some e ∧ Memory.read s.slots k = some (entrySlot e) ∧ e.wellFormed s.cfg = true := by
  obtain ⟨e, hwf, hread⟩ := h.pub_whole k hk hp
  exact ⟨e, by simp [entryAt_of_read _ s hread], hread, hwf⟩

/-- No producer is filling a published slot (R77). -/
theorem not_filling_of_pub {s : State} (h : s.FineOk) {k : Nat} (hk : k < s.cfg.qcap) (hp : s.pub.getD k false = true) :
    ¬ s.filling k :=
  not_filling_iff.mpr ((h.pub_iff k hk).mp hp).2

/-- Settles O59: a POP that finds an entry has found `head` published, and a published slot is whole. -/
theorem consumerSeesOnlyWholeRecords : Obligations.ConsumerSeesOnlyWholeRecords := by
  unfold Obligations.ConsumerSeesOnlyWholeRecords
  intro s hinv
  have h : s.FineOk := fineInv_iff.mp hinv
  by_cases hnone : s.rsv = 0 ∨ s.pub.getD s.head false = false
  · exact ⟨s.emit .none, finePop_next.mpr (.inl ⟨hnone, rfl⟩), .inl ⟨rfl, by simp [sameQueue]⟩⟩
  · obtain ⟨hrsv, hpub⟩ := not_or.mp hnone
    have hp : s.pub.getD s.head false = true := Bool.eq_true_of_not_eq_false hpub
    obtain ⟨e, hentry, hread, hwf⟩ := exists_entry_of_pub h h.head_lt hp
    exact ⟨s.release.emit (.entry e), finePop_next.mpr (.inr ⟨hrsv, hp, e, hentry, rfl⟩),
      .inr ⟨e, rfl, hread, hwf, not_filling_of_pub h h.head_lt hp⟩⟩

end Sys2Proof.Machine
end

section
/-!
PROOFS. The queue's part of the block's invariant (10_state.md R41, R43): the fine level's facts with no PUSH in progress, kept by
every operation on the queue.
-/

namespace Sys2Proof.Machine

/-- `QueueInv` between atomic events: the fine level's facts, with no producer inside a PUSH (R223). -/
structure State.QueueOk (s : State) : Prop where
  fine : s.FineOk
  idle : ∀ c, s.fillOf c = none

theorem atomicLevel_iff {s : State} : s.atomicLevel ↔ ∀ c, s.fillOf c = none := by
  constructor
  · rintro ⟨hm, hnd⟩ c
    cases c with
    | m => exact hm
    | nd => exact hnd
  · exact fun h => ⟨h .m, h .nd⟩

theorem queueOk_iff {s : State} : s.QueueOk ↔ QueueInv s ∧ s.atomicLevel := by
  constructor
  · rintro ⟨hfine, hidle⟩
    exact ⟨(fineInv_of_fineOk hfine).1, atomicLevel_iff.mpr hidle⟩
  · rintro ⟨hqueue, hm, hnd⟩
    have hfill : FillInv s := by simp [FillInv, hm, hnd]
    exact ⟨fineOk_of_fineInv ⟨hqueue, hfill⟩, atomicLevel_iff.mp ⟨hm, hnd⟩⟩

/-- Between atomic events the published slots are the occupied ones (R43). -/
theorem pub_iff_occupied {s : State} (h : s.QueueOk) {k : Nat} (hk : k < s.cfg.qcap) :
    s.pub.getD k false = true ↔ s.occupied k := by
  rw [h.fine.pub_iff k hk]
  simp [h.idle]

/-- The oldest slot of a queue that is not empty is published (R41, R43). -/
theorem pub_head_of_count_ne_zero {s : State} (h : s.QueueOk) (hcount : s.count ≠ 0) : s.pub.getD s.head false = true :=
  (pub_iff_occupied h h.fine.head_lt).mpr ⟨0, Nat.pos_of_ne_zero hcount, slotIndex_zero h.fine.head_lt⟩

/-- A channel is no part of the queue. -/
theorem queueOk_setChan {s : State} (h : s.QueueOk) (c : Role) (ch : Channel) : (s.setChan c ch).QueueOk := by
  cases c with
  | m => exact ⟨{ h.fine with }, h.idle⟩
  | nd => exact ⟨{ h.fine with }, h.idle⟩

theorem queueOk_emit {s : State} (h : s.QueueOk) (r : Result) : (s.emit r).QueueOk := ⟨fineOk_emit h.fine r, h.idle⟩

theorem queueOk_drop {s : State} (h : s.QueueOk) : s.drop.QueueOk := ⟨fineOk_drop h.fine, h.idle⟩

/-- A POP of a queue that is not empty frees a published slot (R207). -/
theorem queueOk_release {s : State} (h : s.QueueOk) (hcount : s.count ≠ 0) : s.release.QueueOk :=
  ⟨fineOk_release h.fine (pub_head_of_count_ne_zero h hcount), h.idle⟩

theorem occupied_store {s : State} {e : Entry} {k : Nat} : (s.store e).occupied k ↔ s.occupied k ∨ s.tail = k := by
  simp only [State.occupied, State.slotIndex, State.tail, store_count, store_head, store_cfg, Nat.exists_lt_succ_right]

/-- A PUSH with room occupies the free slot at the tail, writes it whole and publishes it (R205). -/
theorem fineOk_store {s : State} {e : Entry} (h : s.QueueOk) (hroom : s.count < s.cfg.qcap) (he : e.wellFormed s.cfg = true) :
    (s.store e).FineOk := by
  obtain ⟨h, hidle⟩ := h
  have hlt : s.tail < s.cfg.qcap := slotIndex_lt s s.count
  have hidle' : ∀ c, (s.store e).fillOf c = none := fun c => (fillOf_congr rfl rfl c).trans (hidle c)
  constructor
  case count_le => exact hroom
  case head_lt => exact h.head_lt
  case rsv_eq => simp [h.rsv_eq]
  case pub_length => simpa using h.pub_length
  case slots_wf => exact Memory.wf_write _ _ _ h.slots_wf
  case slots_inside => exact Memory.inside_write _ _ _ _ h.slots_inside hlt
  case pub_iff =>
    intro k hk
    rw [store_pub, occupied_store]
    by_cases heq : k = s.tail
    · subst heq
      rw [getD_set_same true (h.pub_length ▸ hlt)]
      simp [hidle']
    · rw [getD_set_other true heq, h.pub_iff k hk]
      simp [hidle, hidle', Ne.symm heq]
  case pub_whole =>
    simp only [store_cfg, store_pub, store_slots]
    intro k hk hp
    by_cases heq : k = s.tail
    · subst heq
      exact ⟨e, he, Memory.read_write_same _ _ _⟩
    · rw [getD_set_other true heq] at hp
      rw [Memory.read_write_other _ _ _ _ heq]
      exact h.pub_whole k hk hp
  case free =>
    simp only [store_cfg, store_slots, occupied_store, not_or]
    rintro k hk ⟨hfree, hne⟩
    rw [Memory.read_write_other _ _ _ _ (Ne.symm hne)]
    exact h.free k hk hfree
  case fill_occupied | fill_wellFormed | fill_partOf | fill_inj => simp [hidle']

/-- A PUSH of an entry of R106 stores it in a free slot or drops it (R205, R206). -/
theorem queueOk_push {s : State} {e : Entry} (h : s.QueueOk) (he : e.wellFormed s.cfg = true) : (s.push e).QueueOk := by
  rcases Nat.lt_or_ge s.count s.cfg.qcap with hroom | hfull
  · rw [push_of_lt s e hroom]
    exact ⟨fineOk_store h hroom he, h.idle⟩
  · rw [push_of_full s e hfull]
    exact queueOk_drop h

/-- After RESET no slot is occupied, published or written (R51). -/
theorem queueOk_resetWith (cfg : Config) : (State.resetWith cfg).QueueOk := by
  have hpub : ∀ k, ¬ (State.resetWith cfg).pub.getD k false = true := fun k => by
    simp [State.resetWith, List.getD_eq_getElem?_getD, List.getElem?_replicate, Option.getD_eq_iff]
  have hocc : ∀ k, ¬ (State.resetWith cfg).occupied k := fun k ⟨i, hi, _⟩ => Nat.not_lt_zero i hi
  exact queueOk_iff.mpr ⟨⟨Nat.zero_le _, Config_qcap_pos cfg, rfl, List.length_replicate, rfl, rfl, fun k _ =>
    ⟨iff_of_false (hpub k) fun h => hocc k h.1, fun h => absurd h (hpub k), fun _ => rfl⟩⟩, rfl, rfl⟩

end Sys2Proof.Machine
end

section
/-!
PROOFS. The channels' part of the block's invariant (10_state.md R37): what the transition table says of phase, counter and length
together, and the buffer under assembly.
-/

namespace Sys2Proof.Machine

/-! ### A BYTE is the transition table -/

/-- All that a BYTE can do, over the transition table (R141). -/
theorem byteEvent_next {c : Role} {b : Byte} {ts : Timestamp} {s t : State} :
    byteEvent c b ts s = .next t ↔
      ∃ s1 outcome s2, timeoutCheck c ts s = .ok s1 ∧
        transition s.cfg.nak c (s1.chan c).ph (s1.chan c).cnt b = some outcome ∧ append c b ts s1 = .ok s2 ∧
        conclude c outcome s2 = .ok t := by
  unfold byteEvent
  cases timeoutCheck c ts s with
  | error f => simp
  | ok s1 =>
    cases htable : transition s.cfg.nak c (s1.chan c).ph (s1.chan c).cnt b with
    | none => simp [htable]
    | some outcome =>
      cases happend : append c b ts s1 with
      | error f => simp [htable, happend]
      | ok s2 => simp [htable, happend, settle_next]

/-- A row speaks for the table when, wherever it is selected, its phase decision is the table's. -/
def RowOfTable (nak : NakByte) (c : Role) (b : Byte) (selected : Channel → Bool) (row : Channel → RowOutcome) : Prop :=
  ∀ ch, selected ch = true → transition nak c ch.ph ch.cnt b = some (row ch)

theorem byteEvent_of_byteRow {c : Role} {b : Byte} {ts : Timestamp} {selected : Channel → Bool} {row : Channel → RowOutcome}
    {s t : State} (htable : RowOfTable s.cfg.nak c b selected row) (h : byteRow c b ts selected row s = .next t) :
    byteEvent c b ts s = .next t := by
  obtain ⟨s1, s2, hcheck, hsel, happend, hconclude⟩ := byteRow_next.mp h
  exact byteEvent_next.mpr ⟨s1, row (s1.chan c), s2, hcheck, htable _ hsel, happend, hconclude⟩

/-- A row selected by its phase alone. -/
theorem rowOfTable_phase {nak : NakByte} {c : Role} {b : Byte} {ph : Phase} {outcome : RowOutcome}
    (h : ∀ cnt, transition nak c ph cnt b = some outcome) :
    RowOfTable nak c b (fun ch => decide (ch.ph = ph)) (fun _ => outcome) := by
  intro ch hsel
  rw [of_decide_eq_true hsel]
  exact h ch.cnt

/-- A row selected by its phase and a condition on the byte. -/
theorem rowOfTable_phase_and {nak : NakByte} {c : Role} {b : Byte} {ph : Phase} {cond : Bool} {outcome : RowOutcome}
    (h : cond = true → ∀ cnt, transition nak c ph cnt b = some outcome) :
    RowOfTable nak c b (fun ch => decide (ch.ph = ph) && cond) (fun _ => outcome) := by
  intro ch hsel
  obtain ⟨hph, hcond⟩ := (Bool.and_eq_true _ _).mp hsel
  rw [of_decide_eq_true hph]
  exact h hcond ch.cnt

/-- A row selected by the fourth byte of its phase (R113). -/
theorem rowOfTable_last {nak : NakByte} {c : Role} {b : Byte} {ph : Phase} {outcome : RowOutcome}
    (h : transition nak c ph 3 b = some outcome) :
    RowOfTable nak c b (fun ch => decide (ch.ph = ph) && lastByte ch.ph ch.cnt) (fun _ => outcome) := by
  intro ch hsel
  obtain ⟨hph, hlast⟩ := (Bool.and_eq_true _ _).mp hsel
  obtain ⟨-, hcnt⟩ := (Bool.and_eq_true _ _).mp hlast
  rw [of_decide_eq_true hph, eq_of_beq hcnt]
  exact h

/-- A row selected by the other bytes of a phase of four (R113). -/
theorem rowOfTable_notLast {nak : NakByte} {c : Role} {b : Byte} {ph : Phase} (hcounted : phaseCounted ph = true)
    (h : ∀ cnt, cnt ≠ 3 → transition nak c ph cnt b = some (.next ph (cnt + 1))) :
    RowOfTable nak c b (fun ch => decide (ch.ph = ph) && !lastByte ch.ph ch.cnt) (fun ch => .next ph (ch.cnt + 1)) := by
  intro ch hsel
  obtain ⟨hph, hlast⟩ := (Bool.and_eq_true _ _).mp hsel
  rw [of_decide_eq_true hph] at hlast ⊢
  refine h ch.cnt fun hcnt => ?_
  simp [lastByte, hcounted, hcnt] at hlast

/-- The Node's first byte, neither `ACK` nor `NAK` (R161). -/
theorem rowOfTable_ndIdle (nak : NakByte) (b : Byte) :
    RowOfTable nak .nd b (fun ch => decide (ch.ph = .idle) && b != Config.ack && b != nak.byte) (fun _ => .next .paramV 1) := by
  have htable : RowOfTable nak .nd b (fun ch => decide (ch.ph = .idle) && (b != Config.ack && b != nak.byte))
      (fun _ => .next .paramV 1) := rowOfTable_phase_and fun hb _ => by
    obtain ⟨hack, hnak⟩ := (Bool.and_eq_true _ _).mp hb
    simp [transition, bne_iff_ne.mp hack, bne_iff_ne.mp hnak]
  intro ch hsel
  exact htable ch ((Bool.and_assoc _ _ _).symm.trans hsel)

/-- Each BYTE row is a row of the transition table (R141, 40_capture_assembler.md section 9). -/
theorem byteEvent_of_exec {i : Instr} {c : Role} {b : Byte} {ts : Timestamp} {s t : State} (hevent : eventOf i = .byte c b ts)
    (h : exec i s = .next t) : byteEvent c b ts s = .next t := by
  cases i with
  | byteMIdle b ts =>
    cases hevent
    exact byteEvent_of_byteRow (rowOfTable_phase fun _ => rfl) h
  | byteMAddr b ts =>
    cases hevent
    exact byteEvent_of_byteRow (rowOfTable_notLast rfl fun _ hcnt => by exact congrArg some (if_neg hcnt)) h
  | byteMAddrL b ts =>
    cases hevent
    exact byteEvent_of_byteRow (rowOfTable_last rfl) h
  | byteMCmdWr ts =>
    cases hevent
    exact byteEvent_of_byteRow (rowOfTable_phase fun _ => rfl) h
  | byteMCmdQry b ts =>
    cases hevent
    exact byteEvent_of_byteRow (rowOfTable_phase_and fun hb _ => by simp [transition, bne_iff_ne.mp hb]) h
  | byteMParv b ts =>
    cases hevent
    exact byteEvent_of_byteRow (rowOfTable_notLast rfl fun _ hcnt => by exact congrArg some (if_neg hcnt)) h
  | byteMParvL b ts =>
    cases hevent
    exact byteEvent_of_byteRow (rowOfTable_last rfl) h
  | byteMParq b ts =>
    cases hevent
    exact byteEvent_of_byteRow (rowOfTable_notLast rfl fun _ hcnt => by exact congrArg some (if_neg hcnt)) h
  | byteMParqL b ts =>
    cases hevent
    exact byteEvent_of_byteRow (rowOfTable_last rfl) h
  | byteMValTerm ts =>
    cases hevent
    exact byteEvent_of_byteRow (rowOfTable_phase fun _ => rfl) h
  | byteMVal b ts =>
    cases hevent
    exact byteEvent_of_byteRow (rowOfTable_phase_and fun hb _ => by simp [transition, bne_iff_ne.mp hb]) h
  | byteMCksum b ts =>
    cases hevent
    exact byteEvent_of_byteRow (rowOfTable_phase fun _ => rfl) h
  | byteNdIdleAck ts =>
    cases hevent
    exact byteEvent_of_byteRow (rowOfTable_phase fun _ => by simp [transition]) h
  | byteNdIdleNak15 ts =>
    cases hevent
    exact byteEvent_of_byteRow (rowOfTable_phase_and fun hnak _ => by simp [transition, eq_of_beq hnak]) h
  | byteNdIdleNak21 ts =>
    cases hevent
    exact byteEvent_of_byteRow (rowOfTable_phase_and fun hnak _ => by simp [transition, eq_of_beq hnak]) h
  | byteNdIdle b ts =>
    cases hevent
    exact byteEvent_of_byteRow (rowOfTable_ndIdle _ b) h
  | byteNdParv b ts =>
    cases hevent
    exact byteEvent_of_byteRow (rowOfTable_notLast rfl fun _ hcnt => by exact congrArg some (if_neg hcnt)) h
  | byteNdParvL b ts =>
    cases hevent
    exact byteEvent_of_byteRow (rowOfTable_last rfl) h
  | byteNdValTerm ts =>
    cases hevent
    exact byteEvent_of_byteRow (rowOfTable_phase fun _ => rfl) h
  | byteNdVal b ts =>
    cases hevent
    exact byteEvent_of_byteRow (rowOfTable_phase_and fun hb _ => by simp [transition, bne_iff_ne.mp hb]) h
  | byteNdCksum b ts =>
    cases hevent
    exact byteEvent_of_byteRow (rowOfTable_phase fun _ => rfl) h
  | reset => cases hevent
  | tickM now => cases hevent
  | tickNd now => cases hevent
  | pop => cases hevent
  | rddrop => cases hevent
  | rdlen => cases hevent
  | push e => cases hevent

/-! ### Phase, counter and length -/

/-- A channel that is not idle has accepted a byte (R37 a, b). -/
theorem one_le_len_of_position {c : Role} {ph : Phase} {cnt : BitVec 2} {len : Nat} (h : positionOk c ph cnt len = true)
    (hph : ph ≠ .idle) : 1 ≤ len := by
  cases ph with
  | idle => exact absurd rfl hph
  | _ => cases c <;> simp [positionOk] at h <;> omega

/-- The in-phase counter does not wrap before the fourth byte (R33). -/
theorem toNat_succ_of_ne_three {cnt : BitVec 2} (h : cnt ≠ 3) : cnt.toNat ≤ 2 ∧ (cnt + 1).toNat = cnt.toNat + 1 := by
  revert cnt
  decide

/-- In a phase of four bytes that goes on, counter and length rise together (R37 b, d, e). -/
theorem positionOk_succ {c : Role} {ph : Phase} {cnt : BitVec 2} {len : Nat} (hcounted : phaseCounted ph = true)
    (h : positionOk c ph cnt len = true) (hcnt : cnt ≠ 3) : positionOk c ph (cnt + 1) (len + 1) = true := by
  obtain ⟨hle, hsucc⟩ := toNat_succ_of_ne_three hcnt
  cases ph with
  | addr | paramV | paramQ =>
    cases c <;> simp only [positionOk, hsucc, Bool.and_eq_true, decide_eq_true_eq, Bool.false_eq_true] at h ⊢ <;> omega
  | _ => cases hcounted

/-- A phase of four bytes goes on, or gives way at its fourth byte (R33, R113). -/
theorem positionOk_of_counted {c : Role} {ph ph' : Phase} {cnt cnt' : BitVec 2} {len : Nat} {last : RowOutcome}
    (hcounted : phaseCounted ph = true) (h : positionOk c ph cnt len = true)
    (hnext : (if cnt = 3 then last else .next ph (cnt + 1)) = RowOutcome.next ph' cnt')
    (hlast : cnt = 3 → last = .next ph' cnt' → positionOk c ph' cnt' (len + 1) = true) :
    positionOk c ph' cnt' (len + 1) = true := by
  split at hnext
  next hcnt => exact hlast hcnt hnext
  next hcnt =>
    cases hnext
    exact positionOk_succ hcounted h hcnt

/-- The value phase goes on until `TERM`; neither outcome counts (R156, R157, R164, R165). -/
theorem next_of_value {b : Byte} {ph' : Phase} {cnt' : BitVec 2}
    (h : (if b = Config.term then .next .cksum 0 else .next .value 0) = RowOutcome.next ph' cnt') :
    (ph' = .cksum ∨ ph' = .value) ∧ cnt' = 0 := by
  split at h
  · cases h
    exact ⟨.inl rfl, rfl⟩
  · cases h
    exact ⟨.inr rfl, rfl⟩

/-- The table's phase decision fits the byte appended (R37). -/
theorem positionOk_transition {nak : NakByte} {c : Role} {ph ph' : Phase} {cnt cnt' : BitVec 2} {len : Nat} {b : Byte}
    (h : positionOk c ph cnt len = true) (hrow : transition nak c ph cnt b = some (.next ph' cnt')) :
    positionOk c ph' cnt' (len + 1) = true := by
  cases c with
  | m =>
    cases ph with
    | idle =>
      cases hrow
      simp [positionOk] at h ⊢
      omega
    | addr =>
      refine positionOk_of_counted rfl h (Option.some.inj hrow) ?_
      rintro rfl ⟨⟩
      simp [positionOk] at h ⊢
      omega
    | cmd =>
      have hnext : (ph' = .paramV ∨ ph' = .paramQ) ∧ cnt' = 0 := by
        have hrow := Option.some.inj hrow
        split at hrow <;> cases hrow <;> simp
      obtain ⟨rfl | rfl, rfl⟩ := hnext <;> simp [positionOk] at h ⊢ <;> omega
    | paramV =>
      refine positionOk_of_counted rfl h (Option.some.inj hrow) ?_
      rintro rfl ⟨⟩
      simp [positionOk] at h ⊢
      omega
    | paramQ =>
      refine positionOk_of_counted rfl h (Option.some.inj hrow) ?_
      rintro - ⟨⟩
    | value =>
      obtain ⟨rfl | rfl, rfl⟩ := next_of_value (Option.some.inj hrow) <;> simp [positionOk] at h ⊢ <;> omega
    | cksum => cases hrow
  | nd =>
    cases ph with
    | idle =>
      have hnext : ph' = .paramV ∧ cnt' = 1 := by
        have hrow := Option.some.inj hrow
        split at hrow <;> cases hrow
        simp
      obtain ⟨rfl, rfl⟩ := hnext
      simp [positionOk] at h ⊢
      omega
    | addr => cases hrow
    | cmd => cases hrow
    | paramV =>
      refine positionOk_of_counted rfl h (Option.some.inj hrow) ?_
      rintro rfl ⟨⟩
      simp [positionOk] at h ⊢
      omega
    | paramQ => cases hrow
    | value =>
      obtain ⟨rfl | rfl, rfl⟩ := next_of_value (Option.some.inj hrow) <;> simp [positionOk] at h ⊢ <;> omega
    | cksum => cases hrow

/-! ### The buffer under assembly -/

/-- The buffer's part of `ChannelInv`, which holds also while a byte is being taken: `len` may have reached `N`. -/
structure Channel.BufOk (cfg : Config) (ch : Channel) : Prop where
  len_le : ch.len ≤ cfg.n
  canonical : Memory.wf ch.buf = true
  inside : Memory.inside cfg.n ch.buf = true
  written : ∀ i < ch.len, (Memory.read ch.buf i).isSome = true

theorem bufOk_of_channelInv {cfg : Config} {c : Role} {ch : Channel} (h : ChannelInv cfg c ch) : ch.BufOk cfg := by
  obtain ⟨-, hlen, hwf, hin, hwritten⟩ := h
  exact ⟨Nat.le_of_lt hlen, hwf, hin, hwritten⟩

/-- A channel that has room and stands where R37 says, over a sound buffer. -/
theorem channelInv_of_bufOk {cfg : Config} {c : Role} {ch : Channel} (h : ch.BufOk cfg)
    (hpos : positionOk c ch.ph ch.cnt ch.len = true) (hlen : ch.len ≠ cfg.n) : ChannelInv cfg c ch :=
  ⟨hpos, Nat.lt_of_le_of_ne h.len_le hlen, h.canonical, h.inside, h.written⟩

/-- An idle channel holds its invariant over any sound buffer (R146). -/
theorem channelInv_idled {cfg : Config} {ch : Channel} (c : Role) (h : ch.BufOk cfg) : ChannelInv cfg c ch.idled :=
  ⟨by cases c <;> rfl, Config_n_pos cfg, h.canonical, h.inside, fun _ hi => absurd hi (Nat.not_lt_zero _)⟩

theorem channelInv_reset (cfg : Config) (c : Role) : ChannelInv cfg c Channel.reset :=
  channelInv_idled (ch := Channel.reset) c ⟨Nat.zero_le _, rfl, rfl, fun _ hi => absurd hi (Nat.not_lt_zero _)⟩

/-- Taking a byte writes the cell at `len` and no other (R144). -/
theorem bufOk_accept {cfg : Config} {ch : Channel} (b : Byte) (ts : Timestamp) (h : ch.BufOk cfg) (hlen : ch.len < cfg.n) :
    (ch.accept b ts).BufOk cfg where
  len_le := hlen
  canonical := Memory.wf_write _ _ _ h.canonical
  inside := Memory.inside_write _ _ _ _ h.inside hlen
  written i hi := by
    rcases Nat.lt_succ_iff_lt_or_eq.mp hi with hlt | rfl
    · rw [Channel.accept, Memory.read_write_other _ _ _ _ (Nat.ne_of_lt hlt)]
      exact h.written i hlt
    · simp [Channel.accept]

/-- The entry of a frame of a sound buffer holds 1 to `N` bytes (R102, R204). -/
theorem wellFormed_encodeFrame {cfg : Config} {c : Role} {ch : Channel} {p : List Byte} {reason : Reason} (h : ch.BufOk cfg)
    (hlen : 1 ≤ ch.len) (hp : ch.payload = some p) : (encodeFrame (ch.frame c p reason)).wellFormed cfg = true := by
  have hlength : p.length = ch.len := Memory.length_readUpTo hp
  have hle : ch.len ≤ cfg.n := h.len_le
  simp [Entry.wellFormed, Entry.len, encodeFrame, Channel.frame, hlength, hlen, hle]

end Sys2Proof.Machine
end

section
/-!
PROOFS. Every step keeps the block's invariant (10_state.md R37, R41, R43): the completion first, then the steps of R141 in their
order, the instructions, and the inbox.
-/

namespace Sys2Proof.Machine

/-! ### The invariant by role -/

/-- `Inv` with its facts named, the two channels spoken of by role. -/
structure State.BlockOk (s : State) : Prop where
  queue : s.QueueOk
  chan : ∀ c, ChannelInv s.cfg c (s.chan c)

theorem inv_iff {s : State} : Inv s ↔ s.BlockOk := by
  constructor
  · rintro ⟨hm, hnd, hqueue, hatomic⟩
    refine ⟨queueOk_iff.mpr ⟨hqueue, hatomic⟩, fun c => ?_⟩
    cases c with
    | m => exact hm
    | nd => exact hnd
  · rintro ⟨hqueue, hchan⟩
    obtain ⟨hq, hatomic⟩ := queueOk_iff.mp hqueue
    exact ⟨hchan .m, hchan .nd, hq, hatomic⟩

theorem blockOk_resetWith (cfg : Config) : (State.resetWith cfg).BlockOk where
  queue := queueOk_resetWith cfg
  chan c := by cases c <;> exact channelInv_reset cfg _

/-- What the agents present, what was returned and the free choices are no part of the invariant. -/
theorem blockOk_surround {s : State} (h : s.BlockOk) (inbox : List (List Request)) (emitted : List Result) (choice : Nat) :
    ({ s with inbox := inbox, emitted := emitted, choice := choice } : State).BlockOk :=
  ⟨⟨{ h.queue.fine with }, h.queue.idle⟩, h.chan⟩

/-- The invariant but for channel `c`, whose buffer is sound and not empty: what holds when a frame may complete (R146). -/
structure State.MidByte (s : State) (c : Role) : Prop where
  queue : s.QueueOk
  other : ∀ d, d ≠ c → ChannelInv s.cfg d (s.chan d)
  buf : (s.chan c).BufOk s.cfg
  one_le_len : 1 ≤ (s.chan c).len

/-- Both channels' invariants, the one from its own fact and the other from the state before. -/
theorem channelInv_setChan {s : State} {c : Role} {ch : Channel} (hch : ChannelInv s.cfg c ch)
    (hother : ∀ d, d ≠ c → ChannelInv s.cfg d (s.chan d)) (d : Role) :
    ChannelInv (s.setChan c ch).cfg d ((s.setChan c ch).chan d) := by
  rw [setChan_cfg]
  by_cases hd : d = c
  · subst hd
    rwa [chan_setChan_same]
  · rw [chan_setChan_other s c ch d hd]
    exact hother d hd

/-! ### The steps of R141 -/

/-- A completion pushes an entry of 1 to `N` bytes and leaves its channel idle (R146). -/
theorem blockOk_complete {s t : State} {c : Role} {reason : Reason} (h : s.MidByte c) (hc : complete c reason s = .ok t) :
    t.BlockOk := by
  obtain ⟨p, hp, rfl⟩ := complete_ok.mp hc
  have hentry : (encodeFrame ((s.chan c).frame c p reason)).wellFormed s.cfg = true :=
    wellFormed_encodeFrame h.buf h.one_le_len hp
  refine ⟨queueOk_setChan (queueOk_push h.queue hentry) c _, channelInv_setChan ?_ fun d hd => ?_⟩
  · rw [push_cfg]
    exact channelInv_idled c h.buf
  · rw [push_cfg, push_chan]
    exact h.other d hd

/-- A timeout completes a channel that is not idle (R142, R167, R168). -/
theorem blockOk_timeoutCheck {s t : State} {c : Role} {now : Timestamp} (h : s.BlockOk) (hc : timeoutCheck c now s = .ok t) :
    t.BlockOk := by
  rcases timeoutCheck_ok.mp hc with ⟨-, rfl⟩ | ⟨hout, p, hp, rfl⟩
  · exact h
  · obtain ⟨hph, -⟩ := (Bool.and_eq_true _ _).mp hout
    obtain ⟨hpos, -⟩ := h.chan c
    exact blockOk_complete ⟨h.queue, fun d _ => h.chan d, bufOk_of_channelInv (h.chan c),
      one_le_len_of_position hpos (of_decide_eq_true hph)⟩ (complete_ok.mpr ⟨p, hp, rfl⟩)

/-- The append leaves channel `c` with one byte more (R143, R144). -/
theorem midByte_append {s t : State} {c : Role} {b : Byte} {ts : Timestamp} (h : s.BlockOk) (hc : append c b ts s = .ok t) :
    t.MidByte c := by
  obtain ⟨hlen, rfl⟩ := append_ok.mp hc
  constructor
  case queue => exact queueOk_setChan h.queue c _
  case other =>
    intro d hd
    rw [setChan_cfg, chan_setChan_other s c _ d hd]
    exact h.chan d
  case buf =>
    rw [setChan_cfg, chan_setChan_same]
    exact bufOk_accept b ts (bufOk_of_channelInv (h.chan c)) hlen
  case one_le_len =>
    rw [chan_setChan_same]
    exact Nat.le_add_left 1 _

/-- Step 5 completes the frame or advances to a phase that fits the length (R145, R169). -/
theorem blockOk_conclude {s t : State} {c : Role} {outcome : RowOutcome} (h : s.MidByte c)
    (hpos : ∀ ph cnt, outcome = .next ph cnt → positionOk c ph cnt (s.chan c).len = true)
    (hc : conclude c outcome s = .ok t) : t.BlockOk := by
  rcases conclude_ok.mp hc with ⟨reason, -, hdone⟩ | ⟨ph, cnt, -, -, hdone⟩ | ⟨ph, cnt, hnext, hlen, rfl⟩
  · exact blockOk_complete h hdone
  · exact blockOk_complete h hdone
  · have hch : ChannelInv s.cfg c { s.chan c with ph := ph, cnt := cnt } :=
      channelInv_of_bufOk { h.buf with } (hpos ph cnt hnext) hlen
    exact ⟨queueOk_setChan h.queue c _, channelInv_setChan hch h.other⟩

/-- A BYTE keeps the invariant: its phase decision is the table's (R141). -/
theorem blockOk_byteEvent {s t : State} {c : Role} {b : Byte} {ts : Timestamp} (h : s.BlockOk)
    (hb : byteEvent c b ts s = .next t) : t.BlockOk := by
  obtain ⟨s1, outcome, s2, hcheck, htable, happend, hconclude⟩ := byteEvent_next.mp hb
  have h1 : s1.BlockOk := blockOk_timeoutCheck h hcheck
  refine blockOk_conclude (midByte_append h1 happend) (fun ph cnt hnext => ?_) hconclude
  obtain ⟨hpos, -⟩ := h1.chan c
  obtain ⟨-, rfl⟩ := append_ok.mp happend
  rw [chan_setChan_same]
  exact positionOk_transition hpos (hnext ▸ htable)

/-! ### Instructions -/

/-- Every instruction keeps the invariant, a PUSH if its entry is one of R106. -/
theorem blockOk_exec {s t : State} {i : Instr} (h : s.BlockOk) (he : ∀ e, i = .push e → e.wellFormed s.cfg = true)
    (hi : exec i s = .next t) : t.BlockOk := by
  cases instrKind i with
  | reset =>
    cases exec_reset_next.mp hi
    exact blockOk_surround (blockOk_resetWith s.cfg) s.inbox s.emitted s.choice
  | byte c b ts selected row hevent hexec => exact blockOk_byteEvent h (byteEvent_of_exec hevent hi)
  | tick c now hevent hexec =>
    rw [hexec, settle_next] at hi
    exact blockOk_timeoutCheck h hi
  | pop =>
    obtain ⟨-, rfl⟩ | ⟨hcount, e, -, rfl⟩ := execPop_next.mp hi
    · exact blockOk_surround h _ _ _
    · exact ⟨queueOk_emit (queueOk_release h.queue hcount) _, fun c => by simpa using h.chan c⟩
  | rddrop =>
    cases exec_rddrop_next.mp hi
    exact blockOk_surround h _ _ _
  | rdlen =>
    cases exec_rdlen_next.mp hi
    exact blockOk_surround h _ _ _
  | push e =>
    cases exec_push_next.mp hi
    exact ⟨queueOk_push h.queue (he e rfl), fun c => by simpa using h.chan c⟩

/-! ### The inbox -/

/-- No instruction touches the parameters or what the agents present (R9, log entry 10). -/
theorem exec_cfg_inbox {s t : State} {i : Instr} (h : exec i s = .next t) : t.cfg = s.cfg ∧ t.inbox = s.inbox := by
  refine exec_keeps (P := fun u => u.cfg = s.cfg ∧ u.inbox = s.inbox) ?reset ?feeds ?emit ?release ⟨rfl, rfl⟩ h
  case reset => exact fun _ hu => hu
  case feeds =>
    rintro c k u _ hu ⟨es, ch, -, -, -, rfl⟩
    simpa using hu
  case emit => exact fun _ _ hu => hu
  case release => exact fun _ hu => hu

/-- Only a PUSH's code takes an entry, and it is the PUSH of that entry (R100, R112). -/
theorem operand_of_instr_push {r : RowName} {b : Byte} {operand : Operand} {e : Entry}
    (h : r.instr b operand = some (.push e)) : operand = .entry e := by
  cases operand with
  | none => cases r <;> cases h
  | time t => cases r <;> cases h
  | entry e' =>
    cases r with
    | push => cases h; rfl
    | _ => cases h

/-- What decodes to a PUSH carries the PUSH's entry beside its key. -/
theorem operand_of_decode_push {nak : NakByte} {code : Code} {e : Entry} (h : decode nak code = .ok (.push e)) :
    code.operand = .entry e := by
  unfold decode at h
  split at h
  · cases h
  · split at h
    · cases h
    · split at h
      · cases h
      next hinstr =>
        cases h
        exact operand_of_instr_push hinstr

/-- Only a PUSH event is fetched as a PUSH, and as that of its own entry. -/
theorem event_of_fetch_push {ev : Event} {s : State} {e : Entry} (h : fetch ev s = .ok (.push e)) : ev = .push e := by
  have hoperand : (codeOf ev s).operand = .entry e := operand_of_decode_push h
  cases ev with
  | push e' => cases hoperand; rfl
  | _ => cases hoperand

/-- Serving a request that an agent may present keeps the invariant and what is presented. -/
theorem blockOk_serve {s t : State} {r : Request} (h : s.BlockOk) (hr : r.wellFormed s.cfg = true)
    (hserve : serve r s = .next t) : t.BlockOk ∧ t.cfg = s.cfg ∧ t.inbox = s.inbox := by
  obtain ⟨-, i, hfetch, hi⟩ := serve_next.mp hserve
  refine ⟨blockOk_exec h (fun e he => ?_) hi, exec_cfg_inbox hi⟩
  subst he
  obtain ⟨-, hevent⟩ := (Bool.and_eq_true _ _).mp hr
  rwa [event_of_fetch_push hfetch] at hevent

/-- What stays presented was presented before. -/
theorem inboxOk_of_subset {s t : State} (h : InboxOk s) (hcfg : t.cfg = s.cfg)
    (hsub : ∀ batch ∈ t.inbox, ∃ batch₀ ∈ s.inbox, batch ⊆ batch₀) : InboxOk t := by
  intro batch hbatch r hr
  obtain ⟨batch₀, hbatch₀, hincl⟩ := hsub batch hbatch
  rw [hcfg]
  exact h batch₀ hbatch₀ r (hincl hr)

/-- Settles O38: a step serves at most one request, each instruction keeps the invariant, and the inbox only shrinks. -/
theorem stepKeepsTheInvariant : Obligations.StepKeepsTheInvariant := by
  unfold Obligations.StepKeepsTheInvariant
  intro s t hinv hinbox hstep
  have h : s.BlockOk := inv_iff.mp hinv
  obtain ⟨inbox, choice, hsub, rfl | ⟨r, ⟨batch, hbatch, hr⟩, hserve⟩⟩ := step_next hstep
  · exact ⟨inv_iff.mpr (blockOk_surround h inbox s.emitted choice), inboxOk_of_subset hinbox rfl hsub⟩
  · obtain ⟨ht, hcfg, hin⟩ := blockOk_serve (blockOk_surround h inbox s.emitted choice) (hinbox batch hbatch r hr) hserve
    exact ⟨inv_iff.mpr ht, inboxOk_of_subset hinbox hcfg (hin ▸ hsub)⟩

end Sys2Proof.Machine
end

section
/-!
PROOFS. The operation table and the decoder (30_encoding.md R110 to R116): the fields of a key word, the row a key selects, what
decodes to an instruction, and that an instruction's own code decodes to it.
-/

namespace Sys2Proof.Machine

/-! ### The fields of a key word -/

section KeyWord

variable (op : BitVec 3) (role : BitVec 1) (last : Bool) (ph : BitVec 3) (b : Byte)

/-- Bits 15 to 8 of a key word: all but the byte (R110). -/
def keyHead (k : Key) : BitVec 8 := k.extractLsb' 8 8

@[simp] theorem keyByte_keyWord : keyByte (keyWord op role last ph b) = b :=
  BitVec.extractLsb'_append_eq_right

@[simp] theorem keyHead_keyWord : keyHead (keyWord op role last ph b) = op ++ role ++ BitVec.ofBool last ++ ph :=
  BitVec.extractLsb'_append_eq_left

@[simp] theorem keyOp_keyWord : keyOp (keyWord op role last ph b) = op := by
  rw [keyOp, keyWord]
  repeat rw [BitVec.extractLsb'_append_eq_of_le (by decide)]
  exact BitVec.extractLsb'_eq_self

end KeyWord

/-- A key that matches a row matches it in its head. -/
theorem keyHead_match {k mask pattern : Key} (h : k &&& mask = pattern) : keyHead k &&& keyHead mask = keyHead pattern := by
  rw [← h, keyHead, keyHead, keyHead, BitVec.extractLsb'_and]

/-! ### The rows of the table -/

theorem mem_opcodeTable (r : RowName) : r ∈ opcodeTable := by
  cases r <;> decide

theorem selectedBy_iff {nak : NakByte} {k : Key} {r : RowName} :
    r.selectedBy nak k = true ↔ k &&& r.pattern.2 = r.pattern.1 ∧ r.enabled nak = true := by
  simp [RowName.selectedBy]

/-- Of the two NAK rows the one whose byte is the configured `NAK` is enabled, and every other row is (R114). -/
theorem enabled_iff {nak : NakByte} {r : RowName} :
    r.enabled nak = true ↔
      (r = .byteNdIdleNak15 → nak.byte = 0x15) ∧ (r = .byteNdIdleNak21 → nak.byte = 0x21) := by
  cases r with
  | byteNdIdleNak15 => cases nak <;> decide
  | byteNdIdleNak21 => cases nak <;> decide
  | _ => simp [RowName.enabled]

/-- The pairs of rows that one key can match, the more specific row first (R114). -/
def overlaps : List (RowName × RowName) :=
  [(.byteMCmdWr, .byteMCmdQry), (.byteMValTerm, .byteMVal), (.byteNdValTerm, .byteNdVal), (.byteNdIdleAck, .byteNdIdle),
    (.byteNdIdleNak15, .byteNdIdle), (.byteNdIdleNak21, .byteNdIdle)]

theorem maskBits_lt_of_mem_overlaps : ∀ p ∈ overlaps, p.2.maskBits < p.1.maskBits := by
  decide +kernel

theorem maskBits_lt_of_overlaps {r r' : RowName} (h : (r, r') ∈ overlaps) : r'.maskBits < r.maskBits :=
  maskBits_lt_of_mem_overlaps (r, r') h

/-- Two rows whose patterns agree where both masks are set are an overlap of R114. -/
theorem overlaps_of_compatible :
    ∀ r ∈ opcodeTable, ∀ r' ∈ opcodeTable, r ≠ r' → r.pattern.1 &&& r'.pattern.2 = r'.pattern.1 &&& r.pattern.2 →
      (r, r') ∈ overlaps ∨ (r', r) ∈ overlaps := by
  decide +kernel

/-- No two rows match one key but those of R114. -/
theorem overlaps_of_match {k : Key} {r r' : RowName} (hne : r ≠ r') (hr : k &&& r.pattern.2 = r.pattern.1)
    (hr' : k &&& r'.pattern.2 = r'.pattern.1) : (r, r') ∈ overlaps ∨ (r', r) ∈ overlaps := by
  refine overlaps_of_compatible r (mem_opcodeTable r) r' (mem_opcodeTable r') hne ?_
  rw [← hr, ← hr', BitVec.and_assoc, BitVec.and_assoc, BitVec.and_comm r.pattern.2]

/-! ### The row a key selects -/

/-- The table's choice is the library's maximum over the rows that match (R114). -/
theorem selectRow_eq_argmax (nak : NakByte) (k : Key) :
    selectRow nak k = (opcodeTable.filter (RowName.selectedBy nak k)).argmax RowName.maskBits := by
  rw [List.argmax, List.foldl_filter]
  refine congrArg (List.foldl · none opcodeTable) (funext₂ fun best r => ?_)
  cases best <;> rfl

section SelectRow

variable {nak : NakByte} {k : Key} {r r' : RowName}

theorem mem_selected_iff : r ∈ opcodeTable.filter (RowName.selectedBy nak k) ↔ r.selectedBy nak k = true := by
  simp [mem_opcodeTable]

theorem selectedBy_of_selectRow (h : selectRow nak k = some r) : r.selectedBy nak k = true := by
  rw [selectRow_eq_argmax] at h
  exact mem_selected_iff.mp (List.argmax_mem h)

theorem maskBits_le_of_selectRow (h : selectRow nak k = some r) (hr' : r'.selectedBy nak k = true) :
    r'.maskBits ≤ r.maskBits := by
  rw [selectRow_eq_argmax] at h
  exact List.le_of_mem_argmax (mem_selected_iff.mpr hr') h

theorem selectRow_eq_none_iff : selectRow nak k = none ↔ ∀ r : RowName, r.selectedBy nak k = false := by
  simp [selectRow_eq_argmax, List.argmax_eq_none, List.filter_eq_nil_iff, mem_opcodeTable]

/-- A row that matches is selected when no more specific row does (R114). -/
theorem selectRow_eq_some (hr : r.selectedBy nak k = true)
    (hmost : ∀ r', (r', r) ∈ overlaps → r'.selectedBy nak k = false) : selectRow nak k = some r := by
  cases h : selectRow nak k with
  | none => exact absurd (selectRow_eq_none_iff.mp h r) (by simp [hr])
  | some r₀ =>
    have hr₀ : r₀.selectedBy nak k = true := selectedBy_of_selectRow h
    obtain ⟨hmatch, -⟩ := selectedBy_iff.mp hr
    obtain ⟨hmatch₀, -⟩ := selectedBy_iff.mp hr₀
    by_contra hne
    rcases overlaps_of_match (fun heq => hne (congrArg some heq)) hmatch₀ hmatch with hov | hov
    · exact absurd (hmost r₀ hov) (by simp [hr₀])
    · exact absurd (maskBits_le_of_selectRow h hr) (Nat.not_le.mpr (maskBits_lt_of_overlaps hov))

end SelectRow

/-! ### The decoder -/

/-- An instruction stands in the row it was made from. -/
theorem row_of_instr {r : RowName} {b : Byte} {operand : Operand} {i : Instr} (h : r.instr b operand = some i) : i.row = r := by
  cases operand with
  | none => cases r <;> cases h <;> rfl
  | time t => cases r <;> cases h <;> rfl
  | entry e => cases r <;> cases h; rfl

section Decode

variable {nak : NakByte} {code : Code} {i : Instr}

theorem row_of_decode (h : decode nak code = .ok i) : selectRow nak code.key = some i.row := by
  unfold decode at h
  split at h
  · cases h
  · split at h
    · cases h
    next r hrow =>
      split at h
      · cases h
      next hinstr =>
        cases h
        rw [hrow, row_of_instr hinstr]

theorem decode_eq_ok (hop : keyOp code.key ≠ 7) (hrow : selectRow nak code.key = some i.row)
    (hinstr : i.row.instr (keyByte code.key) code.operand = some i) : decode nak code = .ok i := by
  rw [decode, if_neg hop, hrow]
  simp only [hinstr]

theorem decode_reservedKey (hop : keyOp code.key ≠ 7) (hrow : selectRow nak code.key = none) :
    decode nak code = .error .reservedKey := by
  rw [decode, if_neg hop, hrow]

end Decode

/-! ### The encoder -/

/-- Every instruction's key stands in its row. -/
theorem encode_match (i : Instr) : Laws.Encoding.Statement i := by
  cases i with
  | reset => exact Laws.Encoding.reset
  | byteMIdle b ts => exact Laws.Encoding.byteMIdle b ts
  | byteMAddr b ts => exact Laws.Encoding.byteMAddr b ts
  | byteMAddrL b ts => exact Laws.Encoding.byteMAddrL b ts
  | byteMCmdWr ts => exact Laws.Encoding.byteMCmdWr ts
  | byteMCmdQry b ts => exact Laws.Encoding.byteMCmdQry b ts
  | byteMParv b ts => exact Laws.Encoding.byteMParv b ts
  | byteMParvL b ts => exact Laws.Encoding.byteMParvL b ts
  | byteMParq b ts => exact Laws.Encoding.byteMParq b ts
  | byteMParqL b ts => exact Laws.Encoding.byteMParqL b ts
  | byteMValTerm ts => exact Laws.Encoding.byteMValTerm ts
  | byteMVal b ts => exact Laws.Encoding.byteMVal b ts
  | byteMCksum b ts => exact Laws.Encoding.byteMCksum b ts
  | byteNdIdleAck ts => exact Laws.Encoding.byteNdIdleAck ts
  | byteNdIdleNak15 ts => exact Laws.Encoding.byteNdIdleNak15 ts
  | byteNdIdleNak21 ts => exact Laws.Encoding.byteNdIdleNak21 ts
  | byteNdIdle b ts => exact Laws.Encoding.byteNdIdle b ts
  | byteNdParv b ts => exact Laws.Encoding.byteNdParv b ts
  | byteNdParvL b ts => exact Laws.Encoding.byteNdParvL b ts
  | byteNdValTerm ts => exact Laws.Encoding.byteNdValTerm ts
  | byteNdVal b ts => exact Laws.Encoding.byteNdVal b ts
  | byteNdCksum b ts => exact Laws.Encoding.byteNdCksum b ts
  | tickM now => exact Laws.Encoding.tickM now
  | tickNd now => exact Laws.Encoding.tickNd now
  | pop => exact Laws.Encoding.pop
  | rddrop => exact Laws.Encoding.rddrop
  | rdlen => exact Laws.Encoding.rdlen
  | push e => exact Laws.Encoding.push e

theorem keyOp_encode (i : Instr) : keyOp (encode i).key ≠ 7 := by
  cases i <;> simp [encode, byteCode, plainCode]

theorem enabled_of_wellFormed {cfg : Config} {i : Instr} (h : i.wellFormed cfg = true) : i.row.enabled cfg.nak = true := by
  cases i with
  | byteNdIdleNak15 ts => exact h
  | byteNdIdleNak21 ts => exact h
  | _ => rfl

/-- The operands of an instruction are read back from its code. -/
theorem instr_encode (i : Instr) : i.row.instr (keyByte (encode i).key) (encode i).operand = some i := by
  cases i <;> simp only [encode, byteCode, plainCode, keyByte_keyWord] <;> rfl

/-- A key that matches the more specific row of an overlap carries that row's byte. -/
theorem keyByte_of_overlaps {k : Key} {r r' : RowName} (hov : (r, r') ∈ overlaps) (h : k &&& r.pattern.2 = r.pattern.1) :
    keyByte k = keyByte r.pattern.1 := by
  have hmask : ∀ p ∈ overlaps, p.1.pattern.2 = BitVec.allOnes 16 := by decide
  rw [hmask (r, r') hov, BitVec.and_allOnes] at h
  rw [h]

/-- A well-formed instruction does not carry the byte of a row that is more specific than its own (R114). -/
theorem not_selectedBy_of_overlaps {cfg : Config} {i : Instr} (h : i.wellFormed cfg = true) {r : RowName}
    (hov : (r, i.row) ∈ overlaps) : r.selectedBy cfg.nak (encode i).key = false := by
  refine Bool.eq_false_iff.mpr fun hsel => ?_
  obtain ⟨hmatch, henabled⟩ := selectedBy_iff.mp hsel
  have hbyte : keyByte (encode i).key = keyByte r.pattern.1 := keyByte_of_overlaps hov hmatch
  cases i with
  | byteMCmdQry b t =>
    obtain rfl : r = .byteMCmdWr := by simpa [overlaps, Instr.row] using hov
    exact bne_iff_ne.mp h ((keyByte_keyWord ..).symm.trans hbyte)
  | byteMVal b t =>
    obtain rfl : r = .byteMValTerm := by simpa [overlaps, Instr.row] using hov
    exact bne_iff_ne.mp h ((keyByte_keyWord ..).symm.trans hbyte)
  | byteNdVal b t =>
    obtain rfl : r = .byteNdValTerm := by simpa [overlaps, Instr.row] using hov
    exact bne_iff_ne.mp h ((keyByte_keyWord ..).symm.trans hbyte)
  | byteNdIdle b t =>
    obtain ⟨hack, hnak⟩ := (Bool.and_eq_true _ _).mp h
    obtain ⟨hnak15, hnak21⟩ := enabled_iff.mp henabled
    have hb : b = keyByte r.pattern.1 := (keyByte_keyWord ..).symm.trans hbyte
    have hr : r = .byteNdIdleAck ∨ r = .byteNdIdleNak15 ∨ r = .byteNdIdleNak21 := by simpa [overlaps, Instr.row] using hov
    rcases hr with rfl | rfl | rfl
    · exact bne_iff_ne.mp hack hb
    · exact bne_iff_ne.mp hnak (hb.trans (hnak15 rfl).symm)
    · exact bne_iff_ne.mp hnak (hb.trans (hnak21 rfl).symm)
  | _ => simp [overlaps, Instr.row] at hov

/-- A well-formed instruction's code decodes to it (R110 to R116). -/
theorem decode_encode {cfg : Config} {i : Instr} (h : i.wellFormed cfg = true) : decode cfg.nak (encode i) = .ok i :=
  decode_eq_ok (keyOp_encode i)
    (selectRow_eq_some (selectedBy_iff.mpr ⟨encode_match i, enabled_of_wellFormed h⟩) fun _ => not_selectedBy_of_overlaps h)
    (instr_encode i)

/-- Settles O3: the selected row matches, and two rows that match one key are an overlap, of which the table takes the more
specific row. -/
theorem mostSpecificRowWins : Obligations.MostSpecificRowWins := by
  unfold Obligations.MostSpecificRowWins
  intro nak code i hdecode
  have hrow : selectRow nak code.key = some i.row := row_of_decode hdecode
  obtain ⟨hmatch, henabled⟩ := selectedBy_iff.mp (selectedBy_of_selectRow hrow)
  obtain ⟨hnak15, hnak21⟩ := enabled_iff.mp henabled
  refine ⟨hmatch, hnak15, hnak21, fun r hne hr hr15 hr21 => ?_⟩
  have hsel : r.selectedBy nak code.key = true := selectedBy_iff.mpr ⟨hr, enabled_iff.mpr ⟨hr15, hr21⟩⟩
  rcases overlaps_of_match hne.symm hmatch hr with hov | hov
  · exact ⟨maskBits_lt_of_overlaps hov, by simpa [overlaps] using hov⟩
  · exact absurd (maskBits_le_of_selectRow hrow hsel) (Nat.not_le.mpr (maskBits_lt_of_overlaps hov))

/-! ### The reserved keys -/

/-- The keys of operation code 1 that no BYTE row has (R115 c): phase 7, a Node in ADDR, CMD or PARAM_Q, `last` in a phase
without a counter. -/
abbrev ReservedByteKey (role : BitVec 1) (last : Bool) (ph : BitVec 3) : Prop :=
  ph = 7 ∨ (role = 1 ∧ (ph = 1 ∨ ph = 2 ∨ ph = 4)) ∨ (last = true ∧ (ph = 0 ∨ ph = 2 ∨ ph = 5 ∨ ph = 6))

/-- No row has the head of a reserved BYTE key. -/
theorem head_ne_of_reserved :
    ∀ r ∈ opcodeTable, ∀ role last ph, ReservedByteKey role last ph →
      ((1 : BitVec 3) ++ role ++ BitVec.ofBool last ++ ph) &&& keyHead r.pattern.2 ≠ keyHead r.pattern.1 := by
  decide +kernel

theorem selectRow_of_reserved {nak : NakByte} {role : BitVec 1} {last : Bool} {ph : BitVec 3} (b : Byte)
    (h : ReservedByteKey role last ph) : selectRow nak (keyWord 1 role last ph b) = none := by
  refine selectRow_eq_none_iff.mpr fun r => Bool.eq_false_iff.mpr fun hsel => ?_
  obtain ⟨hmatch, -⟩ := selectedBy_iff.mp hsel
  have hhead := keyHead_match hmatch
  rw [keyHead_keyWord] at hhead
  exact head_ne_of_reserved r (mem_opcodeTable r) role last ph h hhead

/-- Settles O4: operation code 7 is tested first, and a reserved BYTE key differs from every row above its byte. -/
theorem reservedKeysAreRefused : Obligations.ReservedKeysAreRefused := by
  unfold Obligations.ReservedKeysAreRefused
  intro nak operand role last ph b
  refine ⟨if_pos (keyOp_keyWord ..), fun hreserved => decode_reservedKey ?_ (selectRow_of_reserved b hreserved)⟩
  rw [keyOp_keyWord]
  decide

end Sys2Proof.Machine
end

section
/-!
PROOFS. The BYTE rows and the table (30_encoding.md R110, R114, R115): every byte in every reachable position is the code of a
well-formed instruction, and a BYTE row's Condition is that the event's code is its own.
-/

namespace Sys2Proof.Machine

/-! ### Every byte in every position -/

/-- A well-formed BYTE of channel `c` with the given byte and time, whose code is that of the position. -/
abbrev HasByteRow (cfg : Config) (c : Role) (last : Bool) (ph : Phase) (b : Byte) (ts : Timestamp) : Prop :=
  ∃ i : Instr, encode i = byteCode c last ph b ts ∧ i.wellFormed cfg = true ∧ eventOf i = .byte c b ts

section HasByteRow

variable (cfg : Config) (b : Byte) (ts : Timestamp)

theorem hasByteRow_m_cmd : HasByteRow cfg .m false .cmd b ts := by
  by_cases hb : b = Config.cmdWrite
  · subst hb
    exact ⟨.byteMCmdWr ts, rfl, rfl, rfl⟩
  · exact ⟨.byteMCmdQry b ts, rfl, bne_iff_ne.mpr hb, rfl⟩

theorem hasByteRow_m_value : HasByteRow cfg .m false .value b ts := by
  by_cases hb : b = Config.term
  · subst hb
    exact ⟨.byteMValTerm ts, rfl, rfl, rfl⟩
  · exact ⟨.byteMVal b ts, rfl, bne_iff_ne.mpr hb, rfl⟩

theorem hasByteRow_nd_value : HasByteRow cfg .nd false .value b ts := by
  by_cases hb : b = Config.term
  · subst hb
    exact ⟨.byteNdValTerm ts, rfl, rfl, rfl⟩
  · exact ⟨.byteNdVal b ts, rfl, bne_iff_ne.mpr hb, rfl⟩

theorem hasByteRow_nd_idle : HasByteRow cfg .nd false .idle b ts := by
  by_cases hack : b = Config.ack
  · subst hack
    exact ⟨.byteNdIdleAck ts, rfl, rfl, rfl⟩
  by_cases hnak : b = cfg.nak.byte
  · subst hnak
    cases hcfg : cfg.nak with
    | x15 => exact ⟨.byteNdIdleNak15 ts, rfl, beq_iff_eq.mpr hcfg, rfl⟩
    | x21 => exact ⟨.byteNdIdleNak21 ts, rfl, beq_iff_eq.mpr hcfg, rfl⟩
  · exact ⟨.byteNdIdle b ts, rfl, by simp [Instr.wellFormed, hack, hnak], rfl⟩

/-- R115: a Node is never in ADDR, CMD or PARAM_Q, and every other position has a row for every byte. -/
theorem hasByteRow_of_positionOk {c : Role} {ph : Phase} {cnt : BitVec 2} {len : Nat} (h : positionOk c ph cnt len = true) :
    HasByteRow cfg c (lastByte ph cnt) ph b ts := by
  cases c with
  | m =>
    cases ph with
    | idle => exact ⟨.byteMIdle b ts, rfl, rfl, rfl⟩
    | addr =>
      cases lastByte .addr cnt with
      | false => exact ⟨.byteMAddr b ts, rfl, rfl, rfl⟩
      | true => exact ⟨.byteMAddrL b ts, rfl, rfl, rfl⟩
    | cmd => exact hasByteRow_m_cmd cfg b ts
    | paramV =>
      cases lastByte .paramV cnt with
      | false => exact ⟨.byteMParv b ts, rfl, rfl, rfl⟩
      | true => exact ⟨.byteMParvL b ts, rfl, rfl, rfl⟩
    | paramQ =>
      cases lastByte .paramQ cnt with
      | false => exact ⟨.byteMParq b ts, rfl, rfl, rfl⟩
      | true => exact ⟨.byteMParqL b ts, rfl, rfl, rfl⟩
    | value => exact hasByteRow_m_value cfg b ts
    | cksum => exact ⟨.byteMCksum b ts, rfl, rfl, rfl⟩
  | nd =>
    cases ph with
    | idle => exact hasByteRow_nd_idle cfg b ts
    | addr => cases h
    | cmd => cases h
    | paramV =>
      cases lastByte .paramV cnt with
      | false => exact ⟨.byteNdParv b ts, rfl, rfl, rfl⟩
      | true => exact ⟨.byteNdParvL b ts, rfl, rfl, rfl⟩
    | paramQ => cases h
    | value => exact hasByteRow_nd_value cfg b ts
    | cksum => exact ⟨.byteNdCksum b ts, rfl, rfl, rfl⟩

end HasByteRow

/-- Settles O5: the position's code is a well-formed BYTE's own, which decodes to it. -/
theorem everyByteSelectsARow : Obligations.EveryByteSelectsARow := by
  unfold Obligations.EveryByteSelectsARow
  intro cfg c ph cnt len b ts hpos
  obtain ⟨i, hcode, hwf, hevent⟩ := hasByteRow_of_positionOk cfg b ts hpos
  exact ⟨i, hcode ▸ decode_encode hwf, hwf, hevent⟩

/-! ### A BYTE row's Condition -/

/-- A row's Condition answers for instruction `i` when, wherever it holds, the event's code is that of `i`, and `i` is well
formed. -/
def RowOfCode (cfg : Config) (c : Role) (b : Byte) (ts : Timestamp) (i : Instr) (selected : Channel → Bool) : Prop :=
  ∀ ch, selected ch = true → ch.byteCode c b ts = encode i ∧ i.wellFormed cfg = true

section RowOfCode

variable {cfg : Config} {c : Role} {b : Byte} {ts : Timestamp} {i : Instr} {ph : Phase}

/-- A row selected by its phase alone, which does not count its bytes. -/
theorem rowOfCode_phase (hcounted : phaseCounted ph = false) (hcode : encode i = byteCode c false ph b ts)
    (hwf : i.wellFormed cfg = true) : RowOfCode cfg c b ts i (fun ch => decide (ch.ph = ph)) := by
  intro ch hsel
  refine ⟨?_, hwf⟩
  rw [Channel.byteCode, of_decide_eq_true hsel, lastByte, hcounted, Bool.false_and, hcode]

/-- A row selected by its phase and a condition that makes its instruction well formed. -/
theorem rowOfCode_phase_and {cond : Bool} (hcounted : phaseCounted ph = false) (hcode : encode i = byteCode c false ph b ts)
    (hwf : cond = true → i.wellFormed cfg = true) : RowOfCode cfg c b ts i (fun ch => decide (ch.ph = ph) && cond) := by
  intro ch hsel
  obtain ⟨hph, hcond⟩ := (Bool.and_eq_true _ _).mp hsel
  exact rowOfCode_phase hcounted hcode (hwf hcond) ch hph

/-- A row selected by its phase and the fourth byte (R113). -/
theorem rowOfCode_last (hcode : encode i = byteCode c true ph b ts) (hwf : i.wellFormed cfg = true) :
    RowOfCode cfg c b ts i (fun ch => decide (ch.ph = ph) && lastByte ch.ph ch.cnt) := by
  intro ch hsel
  obtain ⟨hph, hlast⟩ := (Bool.and_eq_true _ _).mp hsel
  refine ⟨?_, hwf⟩
  rw [Channel.byteCode, hlast, of_decide_eq_true hph, hcode]

/-- A row selected by its phase and a byte that is not the fourth (R113). -/
theorem rowOfCode_notLast (hcode : encode i = byteCode c false ph b ts) (hwf : i.wellFormed cfg = true) :
    RowOfCode cfg c b ts i (fun ch => decide (ch.ph = ph) && !lastByte ch.ph ch.cnt) := by
  intro ch hsel
  obtain ⟨hph, hlast⟩ := (Bool.and_eq_true _ _).mp hsel
  refine ⟨?_, hwf⟩
  rw [Channel.byteCode, (Bool.not_eq_true' _).mp hlast, of_decide_eq_true hph, hcode]

/-- The Node's first byte, neither `ACK` nor `NAK` (R161). -/
theorem rowOfCode_ndIdle :
    RowOfCode cfg .nd b ts (.byteNdIdle b ts)
      (fun ch => decide (ch.ph = .idle) && b != Config.ack && b != cfg.nak.byte) := by
  have hrow : RowOfCode cfg .nd b ts (.byteNdIdle b ts)
      (fun ch => decide (ch.ph = .idle) && (b != Config.ack && b != cfg.nak.byte)) := rowOfCode_phase_and rfl rfl id
  intro ch hsel
  exact hrow ch ((Bool.and_assoc _ _ _).symm.trans hsel)

end RowOfCode

/-- Every BYTE instruction runs a row of R141 whose Condition holds only where the event's code is the instruction's own. -/
theorem exec_byte_rowOfCode {i : Instr} {c : Role} {b : Byte} {ts : Timestamp} (s : State) (hevent : eventOf i = .byte c b ts) :
    ∃ selected row, exec i s = byteRow c b ts selected row s ∧ RowOfCode s.cfg c b ts i selected := by
  cases i with
  | byteMIdle b ts => cases hevent; exact ⟨_, _, execByteMIdle.eq_1 .., rowOfCode_phase rfl rfl rfl⟩
  | byteMAddr b ts => cases hevent; exact ⟨_, _, execByteMAddr.eq_1 .., rowOfCode_notLast rfl rfl⟩
  | byteMAddrL b ts => cases hevent; exact ⟨_, _, execByteMAddrL.eq_1 .., rowOfCode_last rfl rfl⟩
  | byteMCmdWr ts => cases hevent; exact ⟨_, _, execByteMCmdWr.eq_1 .., rowOfCode_phase rfl rfl rfl⟩
  | byteMCmdQry b ts => cases hevent; exact ⟨_, _, execByteMCmdQry.eq_1 .., rowOfCode_phase_and rfl rfl id⟩
  | byteMParv b ts => cases hevent; exact ⟨_, _, execByteMParv.eq_1 .., rowOfCode_notLast rfl rfl⟩
  | byteMParvL b ts => cases hevent; exact ⟨_, _, execByteMParvL.eq_1 .., rowOfCode_last rfl rfl⟩
  | byteMParq b ts => cases hevent; exact ⟨_, _, execByteMParq.eq_1 .., rowOfCode_notLast rfl rfl⟩
  | byteMParqL b ts => cases hevent; exact ⟨_, _, execByteMParqL.eq_1 .., rowOfCode_last rfl rfl⟩
  | byteMValTerm ts => cases hevent; exact ⟨_, _, execByteMValTerm.eq_1 .., rowOfCode_phase rfl rfl rfl⟩
  | byteMVal b ts => cases hevent; exact ⟨_, _, execByteMVal.eq_1 .., rowOfCode_phase_and rfl rfl id⟩
  | byteMCksum b ts => cases hevent; exact ⟨_, _, execByteMCksum.eq_1 .., rowOfCode_phase rfl rfl rfl⟩
  | byteNdIdleAck ts => cases hevent; exact ⟨_, _, execByteNdIdleAck.eq_1 .., rowOfCode_phase rfl rfl rfl⟩
  | byteNdIdleNak15 ts => cases hevent; exact ⟨_, _, execByteNdIdleNak15.eq_1 .., rowOfCode_phase_and rfl rfl id⟩
  | byteNdIdleNak21 ts => cases hevent; exact ⟨_, _, execByteNdIdleNak21.eq_1 .., rowOfCode_phase_and rfl rfl id⟩
  | byteNdIdle b ts => cases hevent; exact ⟨_, _, execByteNdIdle.eq_1 .., rowOfCode_ndIdle⟩
  | byteNdParv b ts => cases hevent; exact ⟨_, _, execByteNdParv.eq_1 .., rowOfCode_notLast rfl rfl⟩
  | byteNdParvL b ts => cases hevent; exact ⟨_, _, execByteNdParvL.eq_1 .., rowOfCode_last rfl rfl⟩
  | byteNdValTerm ts => cases hevent; exact ⟨_, _, execByteNdValTerm.eq_1 .., rowOfCode_phase rfl rfl rfl⟩
  | byteNdVal b ts => cases hevent; exact ⟨_, _, execByteNdVal.eq_1 .., rowOfCode_phase_and rfl rfl id⟩
  | byteNdCksum b ts => cases hevent; exact ⟨_, _, execByteNdCksum.eq_1 .., rowOfCode_phase rfl rfl rfl⟩
  | reset => cases hevent
  | tickM now => cases hevent
  | tickNd now => cases hevent
  | pop => cases hevent
  | rddrop => cases hevent
  | rdlen => cases hevent
  | push e => cases hevent

/-- Where no timeout has passed, the event's code is formed from the channel as it stands (R110, R142). -/
theorem codeOf_byte_of_not_timedOut {s : State} {c : Role} {b : Byte} {ts : Timestamp}
    (htime : (s.chan c).timedOut s.cfg ts = false) : codeOf (.byte c b ts) s = (s.chan c).byteCode c b ts := by
  simp [codeOf, Channel.afterCheck, htime]

theorem byteRow_refused {c : Role} {b : Byte} {ts : Timestamp} {selected : Channel → Bool} {row : Channel → RowOutcome}
    {s : State} (htime : (s.chan c).timedOut s.cfg ts = false) (hsel : selected (s.chan c) = false) :
    byteRow c b ts selected row s = .refused .rowNotSelected := by
  have hcheck : timeoutCheck c ts s = .ok s := timeoutCheck_ok.mpr (.inl ⟨htime, rfl⟩)
  simp [byteRow, hcheck, hsel]

/-- Settles O21: were the row's Condition to hold, the event's code would be the instruction's own and decode to it. -/
theorem rowNotSelectedIsRefused : Obligations.RowNotSelectedIsRefused := by
  unfold Obligations.RowNotSelectedIsRefused
  intro s i c b ts hevent htime hfetch
  obtain ⟨selected, row, hexec, hrow⟩ := exec_byte_rowOfCode s hevent
  rw [hexec]
  refine byteRow_refused htime (Bool.eq_false_iff.mpr fun hsel => hfetch ?_)
  obtain ⟨hcode, hwf⟩ := hrow _ hsel
  rw [fetch, codeOf_byte_of_not_timedOut htime, hcode]
  exact decode_encode hwf

end Sys2Proof.Machine
end

section
/-!
PROOFS. A BYTE event is the transition table (40_capture_assembler.md sections 2 and 9): every BYTE instruction, executed where the
event's code is its own, is the five steps of R141 over the pure function.
-/

namespace Sys2Proof.Machine

/-! ### The position in a BYTE's code -/

theorem phaseCode_inj {ph ph' : Phase} (h : ph.code = ph'.code) : ph = ph' := by
  revert h
  cases ph <;> cases ph' <;> decide

/-- A BYTE's code tells its phase and its `last` bit (R110). -/
theorem byteCode_inj {c : Role} {last last' : Bool} {ph ph' : Phase} {b : Byte} {ts : Timestamp}
    (h : byteCode c last ph b ts = byteCode c last' ph' b ts) : ph = ph' ∧ last = last' := by
  have hhead : (1 : BitVec 3) ++ c.code ++ BitVec.ofBool last ++ ph.code =
      (1 : BitVec 3) ++ c.code ++ BitVec.ofBool last' ++ ph'.code := by
    simpa [byteCode] using congrArg (fun code => keyHead code.key) h
  have hph : ph = ph' := phaseCode_inj (by
    simpa only [BitVec.extractLsb'_append_eq_right] using congrArg (BitVec.extractLsb' 0 3) hhead)
  subst hph
  refine ⟨rfl, ?_⟩
  rw [BitVec.append_left_inj, BitVec.append_right_inj] at hhead
  exact BitVec.ofBool_eq_iff_eq.mp hhead

/-! ### A BYTE row where the code is its own -/

/-- The converse of `RowOfCode`: a row's Condition holds wherever the event's code is that of the well-formed instruction `i`. -/
def RowAtCode (cfg : Config) (c : Role) (b : Byte) (ts : Timestamp) (i : Instr) (selected : Channel → Bool) : Prop :=
  i.wellFormed cfg = true → ∀ ch, ch.byteCode c b ts = encode i → selected ch = true

section RowAtCode

variable {cfg : Config} {c : Role} {b : Byte} {ts : Timestamp} {i : Instr} {last : Bool} {ph : Phase}

theorem position_of_byteCode (hcode : encode i = byteCode c last ph b ts) {ch : Channel} (h : ch.byteCode c b ts = encode i) :
    ch.ph = ph ∧ lastByte ch.ph ch.cnt = last :=
  byteCode_inj (h.trans hcode)

theorem rowAtCode_phase (hcode : encode i = byteCode c last ph b ts) :
    RowAtCode cfg c b ts i (fun ch => decide (ch.ph = ph)) :=
  fun _ _ h => decide_eq_true (position_of_byteCode hcode h).1

theorem rowAtCode_phase_and {cond : Bool} (hcode : encode i = byteCode c last ph b ts)
    (hwf : i.wellFormed cfg = true → cond = true) : RowAtCode cfg c b ts i (fun ch => decide (ch.ph = ph) && cond) := by
  intro hi ch h
  obtain ⟨hph, -⟩ := position_of_byteCode hcode h
  simp [hph, hwf hi]

theorem rowAtCode_last (hcode : encode i = byteCode c true ph b ts) :
    RowAtCode cfg c b ts i (fun ch => decide (ch.ph = ph) && lastByte ch.ph ch.cnt) := by
  intro _ ch h
  obtain ⟨hph, hlast⟩ := position_of_byteCode hcode h
  exact (Bool.and_eq_true _ _).mpr ⟨decide_eq_true hph, hlast⟩

theorem rowAtCode_notLast (hcode : encode i = byteCode c false ph b ts) :
    RowAtCode cfg c b ts i (fun ch => decide (ch.ph = ph) && !lastByte ch.ph ch.cnt) := by
  intro _ ch h
  obtain ⟨hph, hlast⟩ := position_of_byteCode hcode h
  exact (Bool.and_eq_true _ _).mpr ⟨decide_eq_true hph, (Bool.not_eq_true' _).mpr hlast⟩

theorem rowAtCode_ndIdle :
    RowAtCode cfg .nd b ts (.byteNdIdle b ts)
      (fun ch => decide (ch.ph = .idle) && b != Config.ack && b != cfg.nak.byte) := by
  intro hi ch h
  exact (Bool.and_assoc _ _ _).trans (rowAtCode_phase_and rfl id hi ch h)

end RowAtCode

/-- A row selected where the pre-check leaves the channel is the table's BYTE (R141). -/
theorem byteRow_eq_byteEvent {c : Role} {b : Byte} {ts : Timestamp} {selected : Channel → Bool} {row : Channel → RowOutcome}
    {s : State} (htable : RowOfTable s.cfg.nak c b selected row) (hsel : selected ((s.chan c).afterCheck s.cfg ts) = true) :
    byteRow c b ts selected row s = byteEvent c b ts s := by
  unfold byteRow byteEvent
  cases hcheck : timeoutCheck c ts s with
  | error f => rfl
  | ok s1 =>
    rw [← timeoutCheck_chan hcheck] at hsel
    cases happend : append c b ts s1 with
    | error f => simp only [hsel, if_true, htable _ hsel, happend]
    | ok s2 => simp only [hsel, if_true, htable _ hsel, happend]

/-- A table cell that a test divides, where the test fails. -/
theorem some_ite_of_not {α : Type} {p : Prop} [Decidable p] {x y : α} (h : ¬ p) : some (if p then x else y) = some y :=
  congrArg some (if_neg h)

/-- Every BYTE instruction runs a row of the transition table, whose Condition holds where the event's code is the
instruction's own. -/
theorem exec_byte_rowOfTable {i : Instr} {c : Role} {b : Byte} {ts : Timestamp} (s : State) (hevent : eventOf i = .byte c b ts) :
    ∃ selected row, exec i s = byteRow c b ts selected row s ∧ RowOfTable s.cfg.nak c b selected row ∧
      RowAtCode s.cfg c b ts i selected := by
  cases i with
  | byteMIdle b ts =>
    cases hevent
    exact ⟨_, _, execByteMIdle.eq_1 .., rowOfTable_phase fun _ => rfl, rowAtCode_phase rfl⟩
  | byteMAddr b ts =>
    cases hevent
    exact ⟨_, _, execByteMAddr.eq_1 .., rowOfTable_notLast rfl fun _ => some_ite_of_not, rowAtCode_notLast rfl⟩
  | byteMAddrL b ts =>
    cases hevent
    exact ⟨_, _, execByteMAddrL.eq_1 .., rowOfTable_last rfl, rowAtCode_last rfl⟩
  | byteMCmdWr ts =>
    cases hevent
    exact ⟨_, _, execByteMCmdWr.eq_1 .., rowOfTable_phase fun _ => rfl, rowAtCode_phase rfl⟩
  | byteMCmdQry b ts =>
    cases hevent
    exact ⟨_, _, execByteMCmdQry.eq_1 .., rowOfTable_phase_and fun hb _ => some_ite_of_not (bne_iff_ne.mp hb),
      rowAtCode_phase_and rfl id⟩
  | byteMParv b ts =>
    cases hevent
    exact ⟨_, _, execByteMParv.eq_1 .., rowOfTable_notLast rfl fun _ => some_ite_of_not, rowAtCode_notLast rfl⟩
  | byteMParvL b ts =>
    cases hevent
    exact ⟨_, _, execByteMParvL.eq_1 .., rowOfTable_last rfl, rowAtCode_last rfl⟩
  | byteMParq b ts =>
    cases hevent
    exact ⟨_, _, execByteMParq.eq_1 .., rowOfTable_notLast rfl fun _ => some_ite_of_not, rowAtCode_notLast rfl⟩
  | byteMParqL b ts =>
    cases hevent
    exact ⟨_, _, execByteMParqL.eq_1 .., rowOfTable_last rfl, rowAtCode_last rfl⟩
  | byteMValTerm ts =>
    cases hevent
    exact ⟨_, _, execByteMValTerm.eq_1 .., rowOfTable_phase fun _ => rfl, rowAtCode_phase rfl⟩
  | byteMVal b ts =>
    cases hevent
    exact ⟨_, _, execByteMVal.eq_1 .., rowOfTable_phase_and fun hb _ => some_ite_of_not (bne_iff_ne.mp hb),
      rowAtCode_phase_and rfl id⟩
  | byteMCksum b ts =>
    cases hevent
    exact ⟨_, _, execByteMCksum.eq_1 .., rowOfTable_phase fun _ => rfl, rowAtCode_phase rfl⟩
  | byteNdIdleAck ts =>
    cases hevent
    exact ⟨_, _, execByteNdIdleAck.eq_1 .., rowOfTable_phase fun _ => by simp [transition], rowAtCode_phase rfl⟩
  | byteNdIdleNak15 ts =>
    cases hevent
    exact ⟨_, _, execByteNdIdleNak15.eq_1 .., rowOfTable_phase_and fun hnak _ => by simp [transition, eq_of_beq hnak],
      rowAtCode_phase_and rfl id⟩
  | byteNdIdleNak21 ts =>
    cases hevent
    exact ⟨_, _, execByteNdIdleNak21.eq_1 .., rowOfTable_phase_and fun hnak _ => by simp [transition, eq_of_beq hnak],
      rowAtCode_phase_and rfl id⟩
  | byteNdIdle b ts =>
    cases hevent
    exact ⟨_, _, execByteNdIdle.eq_1 .., rowOfTable_ndIdle _ b, rowAtCode_ndIdle⟩
  | byteNdParv b ts =>
    cases hevent
    exact ⟨_, _, execByteNdParv.eq_1 .., rowOfTable_notLast rfl fun _ => some_ite_of_not, rowAtCode_notLast rfl⟩
  | byteNdParvL b ts =>
    cases hevent
    exact ⟨_, _, execByteNdParvL.eq_1 .., rowOfTable_last rfl, rowAtCode_last rfl⟩
  | byteNdValTerm ts =>
    cases hevent
    exact ⟨_, _, execByteNdValTerm.eq_1 .., rowOfTable_phase fun _ => rfl, rowAtCode_phase rfl⟩
  | byteNdVal b ts =>
    cases hevent
    exact ⟨_, _, execByteNdVal.eq_1 .., rowOfTable_phase_and fun hb _ => some_ite_of_not (bne_iff_ne.mp hb),
      rowAtCode_phase_and rfl id⟩
  | byteNdCksum b ts =>
    cases hevent
    exact ⟨_, _, execByteNdCksum.eq_1 .., rowOfTable_phase fun _ => rfl, rowAtCode_phase rfl⟩
  | reset => cases hevent
  | tickM now => cases hevent
  | tickNd now => cases hevent
  | pop => cases hevent
  | rddrop => cases hevent
  | rdlen => cases hevent
  | push e => cases hevent

/-- Executed where the event's code is its own, a BYTE instruction is the five steps of R141 over the table, stops included. -/
theorem exec_eq_byteEvent {i : Instr} {c : Role} {b : Byte} {ts : Timestamp} {s : State} (hevent : eventOf i = .byte c b ts)
    (hwf : i.wellFormed s.cfg = true) (hcode : codeOf (.byte c b ts) s = encode i) : exec i s = byteEvent c b ts s := by
  obtain ⟨selected, row, hexec, htable, hsel⟩ := exec_byte_rowOfTable s hevent
  rw [hexec]
  exact byteRow_eq_byteEvent htable (hsel hwf _ hcode)

/-! ### The cells of the table -/

/-- The cells section 9 calls unreachable: a Node in ADDR, CMD or PARAM_Q (R115 c). -/
abbrev UnreachableCell (c : Role) (ph : Phase) : Prop := c = .nd ∧ (ph = .addr ∨ ph = .cmd ∨ ph = .paramQ)

/-- Every other cell is met at a position of R37, with the `last` bit of any given counter. -/
theorem exists_positionOk {c : Role} {ph : Phase} (h : ¬ UnreachableCell c ph) (cnt : BitVec 2) :
    ∃ cnt' : BitVec 2, ∃ len < 11, positionOk c ph cnt' len = true ∧ lastByte ph cnt' = lastByte ph cnt := by
  revert cnt
  cases c with
  | m => cases ph <;> decide
  | nd =>
    cases ph with
    | addr | cmd | paramQ => simp at h
    | idle | paramV | value | cksum => decide

/-- In every cell but those, each byte's code is that of a well-formed BYTE. -/
theorem hasByteRow_of_reachableCell {cfg : Config} {c : Role} {ph : Phase} (h : ¬ UnreachableCell c ph) (cnt : BitVec 2)
    (b : Byte) (ts : Timestamp) : HasByteRow cfg c (lastByte ph cnt) ph b ts := by
  obtain ⟨cnt', len, -, hpos, hlast⟩ := exists_positionOk h cnt
  exact hlast ▸ hasByteRow_of_positionOk cfg b ts hpos

/-- A channel that the pre-check leaves outside IDLE has not timed out (R142). -/
theorem not_timedOut_of_afterCheck {cfg : Config} {ch : Channel} {ts : Timestamp} (h : (ch.afterCheck cfg ts).ph ≠ .idle) :
    ch.timedOut cfg ts = false := by
  refine Bool.eq_false_iff.mpr fun htime => h ?_
  rw [Channel.afterCheck, if_pos htime, Channel.idled]

theorem transition_of_unreachableCell {nak : NakByte} {c : Role} {ph : Phase} (h : UnreachableCell c ph) (cnt : BitVec 2)
    (b : Byte) : transition nak c ph cnt b = none := by
  obtain ⟨rfl, rfl | rfl | rfl⟩ := h <;> rfl

theorem ne_idle_of_unreachableCell {c : Role} {ph : Phase} (h : UnreachableCell c ph) : ph ≠ .idle := by
  obtain ⟨-, rfl | rfl | rfl⟩ := h <;> decide

section UnreachableCell

variable {c : Role} {b : Byte} {ts : Timestamp} {s : State} (h : UnreachableCell c ((s.chan c).afterCheck s.cfg ts).ph)

include h

/-- No row has the key of a byte in an unreachable cell (R115 c). -/
theorem fetch_byte_of_unreachableCell : fetch (.byte c b ts) s = .error .reservedKey := by
  obtain ⟨rfl, hph⟩ := h
  refine decode_reservedKey ?_ (selectRow_of_reserved b (.inr (.inl ⟨rfl, ?_⟩)))
  · simp [codeOf, Channel.byteCode, byteCode]
  · exact hph.imp (congrArg Phase.code) (Or.imp (congrArg Phase.code) (congrArg Phase.code))

/-- The table has no outcome there. -/
theorem byteEvent_of_unreachableCell : byteEvent c b ts s = .refused .reservedKey := by
  have htime : (s.chan c).timedOut s.cfg ts = false := not_timedOut_of_afterCheck (ne_idle_of_unreachableCell h)
  have hcheck : timeoutCheck c ts s = .ok s := timeoutCheck_ok.mpr (.inl ⟨htime, rfl⟩)
  rw [← timeoutCheck_chan hcheck] at h
  simp only [byteEvent, hcheck, transition_of_unreachableCell h]

end UnreachableCell

/-- Serving a request an agent may issue whose key names no row is refused (R115 c). -/
theorem serve_of_fetch_error {r : Request} {s : State} {err : DecodeError} (h : r.issuer.mayIssue r.event = true)
    (hfetch : fetch r.event s = .error err) : serve r s = .refused .reservedKey := by
  simp [serve, h, hfetch]

/-- Settles O19: in an unreachable cell the key is reserved and the table empty; in any other the code is that of a BYTE
instruction, which runs its row of the table. -/
theorem byteIsTheTransitionTable : Obligations.ByteIsTheTransitionTable := by
  unfold Obligations.ByteIsTheTransitionTable
  intro s c b ts
  have hissue : (requestOf (.byte c b ts)).issuer.mayIssue (.byte c b ts) = true := by cases c <;> rfl
  by_cases hcell : UnreachableCell c ((s.chan c).afterCheck s.cfg ts).ph
  · rw [byteEvent_of_unreachableCell hcell]
    exact serve_of_fetch_error hissue (fetch_byte_of_unreachableCell hcell)
  · obtain ⟨i, hcode, hwf, hevent⟩ :=
      hasByteRow_of_reachableCell (cfg := s.cfg) hcell ((s.chan c).afterCheck s.cfg ts).cnt b ts
    have hcode' : codeOf (.byte c b ts) s = encode i := hcode.symm
    have hfetch : fetch (.byte c b ts) s = .ok i := by rw [fetch, hcode', decode_encode hwf]
    rw [serve_of_fetch hissue hfetch]
    exact exec_eq_byteEvent hevent hwf hcode'

end Sys2Proof.Machine
end

section
/-!
PROOFS. What a BYTE and a TICK leave of their channel and of the queue (40_capture_assembler.md R143, R144, R146,
41_encoder_queue.md R205).
-/

namespace Sys2Proof.Machine

/-! ### The byte's channel -/

/-- Step 5 of R141 clears phase, counter and length, or advances phase and counter; the rest of the channel is the append's. -/
theorem conclude_chan {c : Role} {outcome : RowOutcome} {s t : State} (h : conclude c outcome s = .ok t) :
    t.chan c = (s.chan c).idled ∨ ∃ ph cnt, t.chan c = { s.chan c with ph := ph, cnt := cnt } := by
  rcases conclude_ok.mp h with ⟨reason, -, hc⟩ | ⟨ph, cnt, -, -, hc⟩ | ⟨ph, cnt, -, -, rfl⟩
  · obtain ⟨p, -, rfl⟩ := complete_ok.mp hc
    exact .inl (completed_chan s c reason p)
  · obtain ⟨p, -, rfl⟩ := complete_ok.mp hc
    exact .inl (completed_chan s c .lengthExceeded p)
  · exact .inr ⟨ph, cnt, chan_setChan_same s c _⟩

/-- The channel after a BYTE is the channel that took the byte after the pre-check, but for phase, counter and, where the frame
completed, length (R141). -/
theorem byteEvent_chan {c : Role} {b : Byte} {ts : Timestamp} {s t : State} (h : byteEvent c b ts s = .next t) :
    t.chan c = (((s.chan c).afterCheck s.cfg ts).accept b ts).idled ∨
      ∃ ph cnt, t.chan c = { ((s.chan c).afterCheck s.cfg ts).accept b ts with ph := ph, cnt := cnt } := by
  obtain ⟨s1, outcome, s2, hcheck, -, happend, hconclude⟩ := byteEvent_next.mp h
  obtain ⟨-, rfl⟩ := append_ok.mp happend
  have hchan := conclude_chan hconclude
  rwa [chan_setChan_same, timeoutCheck_chan hcheck] at hchan

section AfterCheck

variable (cfg : Config) (ch : Channel) (ts : Timestamp)

/-- The pre-check writes neither the buffer nor the start time (R146). -/
@[simp] theorem afterCheck_buf : (ch.afterCheck cfg ts).buf = ch.buf := by
  unfold Channel.afterCheck
  split <;> rfl

@[simp] theorem afterCheck_startTs : (ch.afterCheck cfg ts).startTs = ch.startTs := by
  unfold Channel.afterCheck
  split <;> rfl

end AfterCheck

/-- Settles O20: the channel is the one that took the byte, and a write of one cell leaves the others alone. -/
theorem byteChannelFrame : Obligations.ByteChannelFrame := by
  unfold Obligations.ByteChannelFrame
  intro s t i c b ts hevent h
  have hother : ∀ a, a ≠ ((s.chan c).afterCheck s.cfg ts).len →
      Memory.read (((s.chan c).afterCheck s.cfg ts).accept b ts).buf a = Memory.read (s.chan c).buf a := fun a ha => by
    rw [Channel.accept, Memory.read_write_other _ _ _ _ ha, afterCheck_buf]
  rcases byteEvent_chan (byteEvent_of_exec hevent h) with hchan | ⟨ph, cnt, hchan⟩
  · rw [hchan]
    exact ⟨rfl, by simp [Channel.idled, Channel.accept], Memory.read_write_same _ _ _, hother, .inr ⟨rfl, rfl, rfl⟩⟩
  · rw [hchan]
    exact ⟨rfl, by simp [Channel.accept], Memory.read_write_same _ _ _, hother, .inl rfl⟩

/-! ### The queue -/

/-- Pushes write no slot but the tails they store at (R205). -/
theorem read_pushAll_other {k : Nat} (es : List Entry) (s : State)
    (h : ∀ j < es.length, k ≠ (s.head + s.count + j) % s.cfg.qcap) :
    Memory.read (pushAll es s).slots k = Memory.read s.slots k := by
  induction es generalizing s with
  | nil => rfl
  | cons e es ih =>
    rw [pushAll_cons]
    rcases Nat.lt_or_ge s.count s.cfg.qcap with hroom | hfull
    · have htail : k ≠ s.tail := h 0 (Nat.succ_pos _)
      rw [push_of_lt s e hroom, ih, store_slots, Memory.read_write_other _ _ _ _ htail]
      intro j hj
      rw [store_head, store_count, store_cfg, ← Nat.add_assoc, Nat.add_assoc _ 1, Nat.add_comm 1 j]
      exact h (j + 1) (Nat.succ_lt_succ hj)
    · rw [push_of_full s e hfull]
      exact ih s.drop fun j hj => h j (Nat.lt_succ_of_lt hj)

/-- All that an event of channel `c` does to the queue is its pushes. -/
theorem queueFrame_of_feeds {c : Role} {n : Nat} {s t : State} (h : State.feeds c n s t) :
    ∃ es : List Entry, es.length ≤ n ∧ (∀ e ∈ es, e.role = c) ∧ sameQueue (pushAll es s) t ∧
      ∀ k, (∀ j < es.length, k ≠ (s.head + s.count + j) % s.cfg.qcap) → Memory.read t.slots k = Memory.read s.slots k := by
  obtain ⟨es, ch, hlen, hrole, -, rfl⟩ := h
  refine ⟨es, hlen, hrole, by simp [sameQueue], fun k hk => ?_⟩
  rw [setChan_slots]
  exact read_pushAll_other es s hk

/-- A BYTE of channel `c` is a row of R141 on it, a TICK the timeout check. -/
theorem exec_ofChannel {i : Instr} {c : Role} (s : State) (hi : ofChannel i c) :
    (∃ b ts selected row, eventOf i = .byte c b ts ∧ exec i s = byteRow c b ts selected row s) ∨
      ∃ now, eventOf i = .tick c now ∧ exec i s = settle (timeoutCheck c now s) := by
  cases instrKind i with
  | byte c' b ts selected row hevent hexec =>
    obtain rfl : c' = c := by simpa [ofChannel, hevent] using hi
    exact .inl ⟨b, ts, _, row, hevent, hexec s⟩
  | tick c' now hevent hexec =>
    obtain rfl : c' = c := by simpa [ofChannel, hevent] using hi
    exact .inr ⟨now, hevent, hexec s⟩
  | reset | pop | rddrop | rdlen | push e => simp [ofChannel, eventOf] at hi

/-- Settles O35: a BYTE completes at most two frames and a TICK at most one, and each completion is one push. -/
theorem byteAndTickQueueFrame : Obligations.ByteAndTickQueueFrame := by
  unfold Obligations.ByteAndTickQueueFrame
  intro s t i c h hi
  rcases exec_ofChannel s hi with ⟨b, ts, selected, row, hevent, hexec⟩ | ⟨now, hevent, hexec⟩
  · obtain ⟨es, hlen, hframe⟩ := queueFrame_of_feeds (byteRow_feeds (hexec ▸ h))
    exact ⟨es, hlen, by simp [hevent], hframe⟩
  · obtain ⟨es, hlen, hframe⟩ := queueFrame_of_feeds (timeoutCheck_feeds (settle_next.mp (hexec ▸ h)))
    exact ⟨es, Nat.le_trans hlen one_le_two, fun _ => hlen, hframe⟩

end Sys2Proof.Machine
end

section
/-!
PROOFS. No event loses, adds or reorders a byte of its channel (40_capture_assembler.md section 8, R173): each step of R141 moves
the bytes under assembly on, or into an entry.
-/

namespace Sys2Proof.Machine

/-- `t` is `s` after at most `k` pushes of entries of channel `c` of 1 to `N` bytes, and with channel `c` rewritten, so that the
entries' payloads and then the bytes now under assembly are the bytes under assembly before and then `bs`. -/
def State.carries (c : Role) (k : Nat) (bs : List Byte) (s t : State) : Prop :=
  ∃ (es : List Entry) (ch : Channel), es.length ≤ k ∧ (∀ e ∈ es, e.role = c ∧ e.wellFormed s.cfg = true) ∧
    t = (pushAll es s).setChan c ch ∧ es.flatMap Entry.data ++ t.partialOf c = s.partialOf c ++ bs

section Carries

variable {c : Role} {s t u : State}

theorem carries_refl (s : State) (c : Role) : State.carries c 0 [] s s :=
  ⟨[], s.chan c, Nat.le_refl 0, by simp, by simp, by simp⟩

theorem carries_mono {j k : Nat} {bs : List Byte} (h : State.carries c j bs s t) (hjk : j ≤ k) : State.carries c k bs s t := by
  obtain ⟨es, ch, hlen, hrest⟩ := h
  exact ⟨es, ch, Nat.le_trans hlen hjk, hrest⟩

theorem carries_trans {j k : Nat} {bs bs' : List Byte} (h : State.carries c j bs s t) (h' : State.carries c k bs' t u) :
    State.carries c (j + k) (bs ++ bs') s u := by
  obtain ⟨es, ch, hlen, hentry, ht, hbytes⟩ := h
  obtain ⟨es', ch', hlen', hentry', hu, hbytes'⟩ := h'
  have hcfg : t.cfg = s.cfg := by simp [ht]
  refine ⟨es ++ es', ch', ?_, fun e he => ?_, ?_, ?_⟩
  · rw [List.length_append]
    exact Nat.add_le_add hlen hlen'
  · exact (List.mem_append.mp he).elim (hentry e) (hcfg ▸ hentry' e)
  · rw [hu, ht, pushAll_setChan, setChan_setChan, pushAll_append]
  · rw [List.flatMap_append, List.append_assoc, hbytes', ← List.append_assoc, hbytes, List.append_assoc]

/-- A channel rewritten, and nothing pushed. -/
theorem carries_setChan {bs : List Byte} {ch : Channel} (h : ch.payload.getD [] = s.partialOf c ++ bs) :
    State.carries c 0 bs s (s.setChan c ch) :=
  ⟨[], ch, Nat.le_refl 0, by simp, rfl, by simpa [State.partialOf] using h⟩

/-- A completion moves the bytes under assembly into its entry (R146). -/
theorem carries_complete {reason : Reason} (h : s.MidByte c) (hc : complete c reason s = .ok t) : State.carries c 1 [] s t := by
  obtain ⟨p, hp, rfl⟩ := complete_ok.mp hc
  have hentry : (encodeFrame ((s.chan c).frame c p reason)).wellFormed s.cfg = true :=
    wellFormed_encodeFrame h.buf h.one_le_len hp
  refine ⟨[encodeFrame ((s.chan c).frame c p reason)], (s.chan c).idled, Nat.le_refl 1, fun e he => ?_, rfl, ?_⟩
  · obtain rfl := List.mem_singleton.mp he
    exact ⟨rfl, hentry⟩
  · have hafter : (s.completed c reason p).partialOf c = [] := by rw [State.partialOf, completed_chan]; rfl
    have hbefore : s.partialOf c = p := by rw [State.partialOf, hp]; rfl
    rw [hafter, hbefore]
    simp [encodeFrame, Channel.frame]

/-- A channel that has timed out holds at least one byte (R37). -/
theorem midByte_of_timedOut {now : Timestamp} (h : s.BlockOk) (hout : (s.chan c).timedOut s.cfg now = true) : s.MidByte c := by
  obtain ⟨hph, -⟩ := (Bool.and_eq_true _ _).mp hout
  obtain ⟨hpos, -⟩ := h.chan c
  exact ⟨h.queue, fun d _ => h.chan d, bufOk_of_channelInv (h.chan c), one_le_len_of_position hpos (of_decide_eq_true hph)⟩

/-- A timeout completes the frame, or nothing happens (R142, R167, R168). -/
theorem carries_timeoutCheck {now : Timestamp} (h : s.BlockOk) (hc : timeoutCheck c now s = .ok t) : State.carries c 1 [] s t := by
  rcases timeoutCheck_ok.mp hc with ⟨-, rfl⟩ | ⟨hout, p, hp, rfl⟩
  · exact carries_mono (carries_refl _ c) (Nat.zero_le 1)
  · exact carries_complete (midByte_of_timedOut h hout) (complete_ok.mpr ⟨p, hp, rfl⟩)

/-- The append puts the byte behind the bytes under assembly (R144). -/
theorem carries_append {b : Byte} {ts : Timestamp} (h : s.BlockOk) (hc : append c b ts s = .ok t) : State.carries c 0 [b] s t := by
  obtain ⟨-, rfl⟩ := append_ok.mp hc
  obtain ⟨p, hp⟩ : ∃ p, (s.chan c).payload = some p := Memory.readUpTo_isSome (bufOk_of_channelInv (h.chan c)).written
  refine carries_setChan ?_
  rw [payload_accept b ts hp, State.partialOf, hp]
  rfl

/-- Step 5 completes the frame, or changes neither buffer nor length (R145, R169). -/
theorem carries_conclude {outcome : RowOutcome} (h : s.MidByte c) (hc : conclude c outcome s = .ok t) :
    State.carries c 1 [] s t := by
  rcases conclude_ok.mp hc with ⟨reason, -, hdone⟩ | ⟨ph, cnt, -, -, hdone⟩ | ⟨ph, cnt, -, -, rfl⟩
  · exact carries_complete h hdone
  · exact carries_complete h hdone
  · exact carries_mono (carries_setChan (List.append_nil _).symm) (Nat.zero_le 1)

/-- A BYTE carries its byte (R141). -/
theorem carries_byteRow {b : Byte} {ts : Timestamp} {selected : Channel → Bool} {row : Channel → RowOutcome} (h : s.BlockOk)
    (hrow : byteRow c b ts selected row s = .next t) : State.carries c 2 [b] s t := by
  obtain ⟨s1, s2, hcheck, -, happend, hconclude⟩ := byteRow_next.mp hrow
  have h1 : s1.BlockOk := blockOk_timeoutCheck h hcheck
  exact carries_trans (carries_timeoutCheck h hcheck)
    (carries_trans (carries_append h1 happend) (carries_conclude (midByte_append h1 happend) hconclude))

/-- What is carried is conserved: the entries are the queue's pushes. -/
theorem conserves_of_carries {k : Nat} {bs : List Byte} (h : State.carries c k bs s t) (hk : k ≤ 2) :
    ∃ es : List Entry, es.length ≤ 2 ∧ sameQueue (pushAll es s) t ∧ (∀ e ∈ es, e.role = c ∧ e.wellFormed s.cfg = true) ∧
      es.flatMap Entry.data ++ t.partialOf c = s.partialOf c ++ bs := by
  obtain ⟨es, ch, hlen, hentry, ht, hbytes⟩ := carries_mono h hk
  exact ⟨es, hlen, by simp [sameQueue, ht], hentry, hbytes⟩

end Carries

/-- Settles O45: a BYTE carries its byte, a TICK none. -/
theorem eventConservesBytes : Obligations.EventConservesBytes := by
  unfold Obligations.EventConservesBytes
  intro s t i c hinv h hi
  have hblock : s.BlockOk := inv_iff.mp hinv
  rcases exec_ofChannel s hi with ⟨b, ts, selected, row, hevent, hexec⟩ | ⟨now, hevent, hexec⟩
  · have hbytes : bytesOf c (eventOf i) = [b] := by simp [hevent, bytesOf]
    exact hbytes ▸ conserves_of_carries (carries_byteRow hblock (hexec ▸ h)) (Nat.le_refl 2)
  · have hbytes : bytesOf c (eventOf i) = [] := by simp [hevent, bytesOf]
    exact hbytes ▸ conserves_of_carries (carries_timeoutCheck hblock (settle_next.mp (hexec ▸ h))) one_le_two

end Sys2Proof.Machine
end

section
/-!
PROOFS. The rows of the transition table one by one (40_capture_assembler.md R148 to R166): where no timeout has passed and the
payload has room, the event's code selects the row and the row completes.
-/

namespace Sys2Proof.Machine

/-! ### A BYTE that is accepted -/

/-- Step 5 over the channel that has just taken the byte (R145, R169). -/
theorem conclude_accept {s : State} {c : Role} {b : Byte} {ts : Timestamp} {p : List Byte} (outcome : RowOutcome)
    (hp : (s.chan c).payload = some p) :
    conclude c outcome (s.setChan c ((s.chan c).accept b ts)) = .ok (s.afterRow c b ts p outcome) := by
  have hcomplete : ∀ reason, complete c reason (s.setChan c ((s.chan c).accept b ts)) =
      .ok (s.afterRow c b ts p (.done reason)) := fun reason => by
    refine complete_ok.mpr ⟨p ++ [b], ?_, ?_⟩
    · rw [chan_setChan_same]
      exact payload_accept b ts hp
    · rw [State.completed, chan_setChan_same, push_setChan, setChan_setChan]
      rfl
  cases outcome with
  | done reason => exact hcomplete reason
  | next ph cnt =>
    by_cases hlen : (s.chan c).len + 1 = s.cfg.n
    · simpa [conclude, State.afterRow, Channel.accept, hlen] using hcomplete .lengthExceeded
    · simp [conclude, State.afterRow, Channel.accept, hlen]

/-- A BYTE whose pre-check finds no timeout and whose payload has room is the table's row (R141). -/
theorem byteEvent_of_ready {s : State} {c : Role} {b : Byte} {ts : Timestamp} {p : List Byte} {outcome : RowOutcome}
    (hready : s.ready c ts) (hp : (s.chan c).payload = some p)
    (htable : transition s.cfg.nak c (s.chan c).ph (s.chan c).cnt b = some outcome) :
    byteEvent c b ts s = .next (s.afterRow c b ts p outcome) := by
  obtain ⟨htime, hroom⟩ := hready
  exact byteEvent_next.mpr ⟨s, outcome, _, timeoutCheck_ok.mpr (.inl ⟨htime, rfl⟩), htable, append_ok.mpr ⟨hroom, rfl⟩,
    conclude_accept outcome hp⟩

section Row

variable {s : State} {c : Role} {b : Byte} {ts : Timestamp} {p : List Byte} {i : Instr} {ph : Phase} {outcome : RowOutcome}

/-- Where the channel's position is that of a well-formed BYTE's code, the event selects the instruction, and executing it is the
table's row. -/
theorem selects_and_exec {last : Bool} (hready : s.ready c ts) (hp : (s.chan c).payload = some p)
    (hwf : i.wellFormed s.cfg = true) (hevent : eventOf i = .byte c b ts) (hcode : encode i = byteCode c last ph b ts)
    (hph : (s.chan c).ph = ph) (hlast : lastByte ph (s.chan c).cnt = last)
    (htable : transition s.cfg.nak c ph (s.chan c).cnt b = some outcome) :
    s.selects (.byte c b ts) i.row.pattern.1 i.row.pattern.2 i ∧ exec i s = .next (s.afterRow c b ts p outcome) := by
  have ⟨htime, _⟩ := hready
  have hkey : codeOf (.byte c b ts) s = encode i := by
    rw [codeOf_byte_of_not_timedOut htime, hcode, Channel.byteCode, hph, hlast]
  refine ⟨⟨?_, ?_⟩, ?_⟩
  · rw [hkey]
    exact encode_match i
  · rw [fetch, hkey, decode_encode hwf]
  · rw [exec_eq_byteEvent hevent hwf hkey]
    exact byteEvent_of_ready hready hp (hph ▸ htable)

end Row

theorem lastByte_of_ne_three {ph : Phase} {cnt : BitVec 2} (h : cnt ≠ 3) : lastByte ph cnt = false := by
  rw [lastByte, beq_eq_false_iff_ne.mpr h, Bool.and_false]

theorem lastByte_three {ph : Phase} {cnt : BitVec 2} (hcounted : phaseCounted ph = true) (h : cnt = 3) :
    lastByte ph cnt = true := by
  rw [h, lastByte, hcounted]
  rfl

/-! ### The Master's rows -/

/-- Settles O10 (R148, R149): the fourth address byte is told by `cnt`, in the code and in the table alike. -/
theorem masterAddressBytes : Obligations.MasterAddressBytes := by
  unfold Obligations.MasterAddressBytes
  intro s b ts p hready hp hph
  refine ⟨fun hcnt => ?notLast, fun hcnt => ?last⟩
  case notLast =>
    exact selects_and_exec (i := .byteMAddr b ts) hready hp rfl rfl rfl hph (lastByte_of_ne_three hcnt) (some_ite_of_not hcnt)
  case last =>
    exact selects_and_exec (i := .byteMAddrL b ts) hready hp rfl rfl rfl hph (lastByte_three rfl hcnt)
      (congrArg some (if_pos hcnt))

/-- Settles O11 (R150): the row is the cell of CMD whose byte is `CMD_WRITE`. -/
theorem masterWriteCommand : Obligations.MasterWriteCommand := by
  unfold Obligations.MasterWriteCommand
  intro s ts p hready hp hph
  exact selects_and_exec (i := .byteMCmdWr ts) hready hp rfl rfl rfl hph rfl rfl

/-- Settles O12 (R152, R153, R154): the fourth parameter byte is told by `cnt`, in the code and in the table alike. -/
theorem masterParameterBytes : Obligations.MasterParameterBytes := by
  unfold Obligations.MasterParameterBytes
  intro s b ts p hready hp
  refine ⟨fun hph hcnt => ?parv, fun hph hcnt => ?parvL, fun hph hcnt => ?parq⟩
  case parv =>
    exact selects_and_exec (i := .byteMParv b ts) hready hp rfl rfl rfl hph (lastByte_of_ne_three hcnt) (some_ite_of_not hcnt)
  case parvL =>
    exact selects_and_exec (i := .byteMParvL b ts) hready hp rfl rfl rfl hph (lastByte_three rfl hcnt)
      (congrArg some (if_pos hcnt))
  case parq =>
    exact selects_and_exec (i := .byteMParq b ts) hready hp rfl rfl rfl hph (lastByte_of_ne_three hcnt) (some_ite_of_not hcnt)

/-- Settles O13 (R156, R158): `TERM` selects the more specific row of VALUE, and CKSUM has one row for every byte. -/
theorem masterTerminatorAndChecksum : Obligations.MasterTerminatorAndChecksum := by
  unfold Obligations.MasterTerminatorAndChecksum
  intro s b ts p hready hp
  refine ⟨fun hph => ?term, fun hph => ?cksum⟩
  case term => exact selects_and_exec (i := .byteMValTerm ts) hready hp rfl rfl rfl hph rfl rfl
  case cksum => exact selects_and_exec (i := .byteMCksum b ts) hready hp rfl rfl rfl hph rfl rfl

/-! ### The Node's rows -/

/-- Settles O14 (R159, R160, R161): the enabled NAK row is well formed, and so is the row of the other bytes. -/
theorem nodeFirstByte : Obligations.NodeFirstByte := by
  unfold Obligations.NodeFirstByte
  intro s b ts p hready hp hph
  refine ⟨?ack, fun hnak => ?nak15, fun hnak => ?nak21, fun hack hnak => ?other⟩
  case ack =>
    exact selects_and_exec (i := .byteNdIdleAck ts) hready hp rfl rfl rfl hph rfl (congrArg some (if_pos (.inl rfl)))
  case nak15 =>
    exact selects_and_exec (i := .byteNdIdleNak15 ts) hready hp (beq_iff_eq.mpr hnak) rfl rfl hph rfl
      (congrArg some (if_pos (.inr (hnak ▸ rfl))))
  case nak21 =>
    exact selects_and_exec (i := .byteNdIdleNak21 ts) hready hp (beq_iff_eq.mpr hnak) rfl rfl hph rfl
      (congrArg some (if_pos (.inr (hnak ▸ rfl))))
  case other =>
    exact selects_and_exec (i := .byteNdIdle b ts) hready hp
      ((Bool.and_eq_true _ _).mpr ⟨bne_iff_ne.mpr hack, bne_iff_ne.mpr hnak⟩) rfl rfl hph rfl
      (some_ite_of_not (not_or.mpr ⟨hack, hnak⟩))

/-- Settles O15 (R162, R163): the fourth parameter byte is told by `cnt`, in the code and in the table alike. -/
theorem nodeParameterPhase : Obligations.NodeParameterPhase := by
  unfold Obligations.NodeParameterPhase
  intro s b ts p hready hp hph
  refine ⟨fun hcnt => ?notLast, fun hcnt => ?last⟩
  case notLast =>
    exact selects_and_exec (i := .byteNdParv b ts) hready hp rfl rfl rfl hph (lastByte_of_ne_three hcnt) (some_ite_of_not hcnt)
  case last =>
    exact selects_and_exec (i := .byteNdParvL b ts) hready hp rfl rfl rfl hph (lastByte_three rfl hcnt)
      (congrArg some (if_pos hcnt))

/-- Settles O16 (R165, R166): a byte that is not `TERM` leaves the more specific row of VALUE unmatched. -/
theorem nodeValueAndChecksum : Obligations.NodeValueAndChecksum := by
  unfold Obligations.NodeValueAndChecksum
  intro s b ts p hready hp
  refine ⟨fun hph hb => ?value, fun hph => ?cksum⟩
  case value =>
    exact selects_and_exec (i := .byteNdVal b ts) hready hp (bne_iff_ne.mpr hb) rfl rfl hph rfl (some_ite_of_not hb)
  case cksum => exact selects_and_exec (i := .byteNdCksum b ts) hready hp rfl rfl rfl hph rfl rfl

end Sys2Proof.Machine
end

section
/-!
PROOFS. A producer's fill as one effect (41_encoder_queue.md R214): the slot after any number of field writes, and the slot array
once every field of the entry has been written into a free slot.
-/

namespace Sys2Proof.Machine

/-! ### Many fields written in a slot -/

/-- A slot after fields of entry `e` have been written into it, in the order listed (R214). -/
def Slot.putAll (sl : Slot) (e : Entry) (fs : List Field) : Slot := fs.foldl (fun sl f => sl.put e f) sl

section PutAll

variable (sl : Slot) (e : Entry)

@[simp] theorem putAll_nil : sl.putAll e [] = sl := rfl
@[simp] theorem putAll_cons (f : Field) (fs : List Field) : sl.putAll e (f :: fs) = (sl.put e f).putAll e fs := rfl

/-- A data byte at or above `len` leaves no trace (log entry 16). -/
theorem put_of_notMem {f : Field} (h : f ∉ entryFields e) : sl.put e f = sl := by
  cases f with
  | data i =>
    have hi : e.data[i]? = none := List.getElem?_eq_none (by simpa [mem_entryFields, Entry.len] using h)
    simp [Slot.put, hi]
  | len | ts | reason | role => simp [entryFields] at h

/-- A data byte written changes nothing but the bytes. -/
theorem put_data_eq (i : Nat) : sl.put e (.data i) = { sl with data := (sl.put e (.data i)).data } := by
  simp only [Slot.put]
  split <;> rfl

theorem read_put_data (f : Field) (i : Nat) :
    Memory.read (sl.put e f).data i = if f = .data i ∧ i < e.len then e.data[i]? else Memory.read sl.data i := by
  cases f with
  | data j =>
    by_cases hj : j < e.len
    · rw [put_data sl e j hj]
      by_cases hij : i = j
      · subst hij
        simpa [hj] using (List.getElem?_eq_getElem hj).symm
      · simp [Memory.read_write_other _ _ _ _ hij, Ne.symm hij]
    · have hlive : ¬ (j = i ∧ i < e.len) := fun h => hj (h.1 ▸ h.2)
      rw [put_of_notMem sl e (by simpa [mem_entryFields] using hj)]
      simp [hlive]
  | len | ts | reason | role => simp

/-- The fields of a slot that are one value each hold the entry's once they are among those written. -/
theorem putAll_single (fs : List Field) :
    (sl.putAll e fs).role = (if Field.role ∈ fs then some e.role else sl.role) ∧
      (sl.putAll e fs).reason = (if Field.reason ∈ fs then some e.reason else sl.reason) ∧
      (sl.putAll e fs).ts = (if Field.ts ∈ fs then some e.ts else sl.ts) ∧
      (sl.putAll e fs).len = (if Field.len ∈ fs then some e.len else sl.len) := by
  induction fs generalizing sl with
  | nil => simp
  | cons f fs ih =>
    obtain ⟨hrole, hreason, hts, hlen⟩ := ih (sl.put e f)
    rw [putAll_cons, hrole, hreason, hts, hlen]
    cases f with
    | data i => rw [put_data_eq]; simp
    | len | ts | reason | role => simp

theorem read_putAll_data (fs : List Field) (i : Nat) :
    Memory.read (sl.putAll e fs).data i =
      if Field.data i ∈ fs ∧ i < e.len then e.data[i]? else Memory.read sl.data i := by
  induction fs generalizing sl with
  | nil => simp
  | cons f fs ih =>
    rw [putAll_cons, ih, read_put_data]
    by_cases hf : f = .data i
    · by_cases hi : i < e.len
      · simp [hf, hi]
      · simp [hi]
    · simp [hf, Ne.symm hf]

theorem has_putAll (fs : List Field) {g : Field} (hg : g ∈ entryFields e) :
    (sl.putAll e fs).has g = true ↔ g ∈ fs ∨ sl.has g = true := by
  induction fs generalizing sl with
  | nil => simp
  | cons f fs ih =>
    rw [putAll_cons, ih, List.mem_cons]
    by_cases hf : f ∈ entryFields e
    · rw [has_put sl e hf, or_left_comm, or_assoc]
    · have hgf : g ≠ f := fun heq => hf (heq ▸ hg)
      rw [put_of_notMem sl e hf]
      simp [hgf]

variable {sl e}

theorem agrees_putAll (h : sl.Agrees e) (fs : List Field) : (sl.putAll e fs).Agrees e := by
  induction fs generalizing sl with
  | nil => exact h
  | cons f fs ih =>
    by_cases hf : f ∈ entryFields e
    · exact ih (agrees_put h hf)
    · rw [putAll_cons, put_of_notMem sl e hf]
      exact ih h

/-- However its fields were written, a slot that held nothing holds the whole entry once they all are (R214, R215). -/
theorem putAll_blank_of_covers {fs : List Field} (hall : ∀ f ∈ entryFields e, f ∈ fs) :
    Slot.blank.putAll e fs = entrySlot e :=
  eq_entrySlot_of_agrees (agrees_putAll (agrees_blank e) fs) fun f hf =>
    (has_putAll _ e fs hf).mpr (.inl (hall f hf))

end PutAll

/-! ### The fill in the state -/

section Fill

variable (s : State) (w : Fill) (fs : List Field)

@[simp] theorem fill_cfg : (fs.foldl (State.writeField w) s).cfg = s.cfg := by rw [fill_eq]
@[simp] theorem fill_count : (fs.foldl (State.writeField w) s).count = s.count := by rw [fill_eq]
@[simp] theorem fill_rsv : (fs.foldl (State.writeField w) s).rsv = s.rsv := by rw [fill_eq]
@[simp] theorem fill_tail : (fs.foldl (State.writeField w) s).tail = s.tail := by rw [fill_eq]; rfl
@[simp] theorem fill_fillOf (c : Role) : (fs.foldl (State.writeField w) s).fillOf c = s.fillOf c := by
  rw [fill_eq]
  exact fillOf_congr rfl rfl c

theorem slotAt_fill : (fs.foldl (State.writeField w) s).slotAt w.slot = (s.slotAt w.slot).putAll w.entry fs := by
  induction fs generalizing s with
  | nil => rfl
  | cons f fs ih =>
    rw [List.foldl_cons, ih, putAll_cons]
    by_cases hf : f ∈ entryFields w.entry
    · rw [slotAt_writeField_same s w f hf]
    · rw [State.writeField, if_neg hf, put_of_notMem _ _ hf]

theorem filled_fill {s : State} {w : Fill} {fs : List Field} (hall : ∀ f ∈ entryFields w.entry, f ∈ fs) :
    (fs.foldl (State.writeField w) s).filled w = true :=
  List.all_eq_true.mpr fun f hf => by
    rw [slotAt_fill]
    exact (has_putAll _ _ fs hf).mpr (.inl (hall f hf))

theorem slots_wf_writeField (f : Field) (h : Memory.wf s.slots = true) : Memory.wf (s.writeField w f).slots = true := by
  unfold State.writeField
  split
  · exact Memory.wf_write _ _ _ h
  · exact h

theorem slots_wf_fill (h : Memory.wf s.slots = true) : Memory.wf (fs.foldl (State.writeField w) s).slots = true := by
  induction fs generalizing s with
  | nil => exact h
  | cons f fs ih => exact ih _ (slots_wf_writeField s w f h)

/-- A slot that reads as that of an entry is written: a blank slot holds no field. -/
theorem read_of_slotAt {s : State} {k : Nat} {e : Entry} (h : s.slotAt k = entrySlot e) :
    Memory.read s.slots k = some (entrySlot e) := by
  unfold State.slotAt at h
  cases hr : Memory.read s.slots k with
  | some sl => rw [hr] at h; exact congrArg some h
  | none =>
    rw [hr] at h
    cases congrArg Slot.role h

/-- A fill of a free slot with every field of its entry is the one write of the atomic PUSH (R75, R205, R214). -/
theorem slots_fill {s : State} {w : Fill} {fs : List Field} (hwf : Memory.wf s.slots = true)
    (hfree : Memory.read s.slots w.slot = none) (hall : ∀ f ∈ entryFields w.entry, f ∈ fs) :
    (fs.foldl (State.writeField w) s).slots = Memory.write s.slots w.slot (entrySlot w.entry) := by
  refine Memory.eq_of_read_eq (slots_wf_fill s w fs hwf) (Memory.wf_write _ _ _ hwf) fun k => ?_
  by_cases hk : k = w.slot
  · subst hk
    have hblank : s.slotAt w.slot = Slot.blank := by simp [State.slotAt, hfree]
    rw [Memory.read_write_same]
    exact read_of_slotAt (by rw [slotAt_fill, hblank, putAll_blank_of_covers hall])
  · rw [read_fill_other s w fs k hk, Memory.read_write_other _ _ _ _ hk]

end Fill

/-- The fields a step of the fill may name are those a slot has (R106). -/
theorem all_fieldInSlot_iff {cfg : Config} {fs : List Field} :
    fs.all (fieldInSlot cfg) = true ↔ ∀ i, Field.data i ∈ fs → i < cfg.n := by
  rw [List.all_eq_true]
  constructor
  · exact fun h i hi => of_decide_eq_true (h _ hi)
  · intro h f hf
    cases f with
    | data i => exact decide_eq_true (h i hf)
    | len | ts | reason | role => rfl

end Sys2Proof.Machine
end

section
/-!
PROOFS. The steps of the fine-grained queue protocol (41_encoder_queue.md R213 to R216): what each of them claims, writes,
releases and refuses.
-/

namespace Sys2Proof.Machine

/-! ### Reserve -/

@[simp] theorem reserved_cfg (s : State) (c : Role) (e : Entry) : (s.reserved c e).cfg = s.cfg := by simp [State.reserved]
@[simp] theorem reserved_slots (s : State) (c : Role) (e : Entry) : (s.reserved c e).slots = s.slots := by simp [State.reserved]
@[simp] theorem reserved_count (s : State) (c : Role) (e : Entry) : (s.reserved c e).count = s.count + 1 := by
  simp [State.reserved]
@[simp] theorem reserved_rsv (s : State) (c : Role) (e : Entry) : (s.reserved c e).rsv = s.rsv + 1 := by simp [State.reserved]

/-- Settles O52 (R213): the one case splits on whether a free slot is left. -/
theorem reserveClaimsTheTail : Obligations.ReserveClaimsTheTail := by
  unfold Obligations.ReserveClaimsTheTail
  intro s c e hidle
  refine ⟨fun hfull => ?full, fun hroom => ?room⟩
  case full => exact fineReserve_next.mpr ⟨hidle, .inl ⟨Nat.le_of_eq hfull.symm, rfl⟩⟩
  case room =>
    refine ⟨s.reserved c e, _, fineReserve_next.mpr ⟨hidle, .inr ⟨hroom, rfl⟩⟩, fillOf_setFill _ _ _, ?_⟩
    have hother : ∀ d, d ≠ c → (s.reserved c e).fillOf d = s.fillOf d := fun d hd => fillOf_setFill_other _ _ hd
    exact ⟨rfl, rfl, by simp [State.reserved], hother, by simp [State.reserved, sameSurround]⟩

/-! ### Fill and publish -/

/-- A step of the fill, field by field (R214). -/
theorem fineStep_fill {s : State} {c : Role} {w : Fill} {fs : List Field} (hw : s.fillOf c = some w)
    (hin : ∀ i, Field.data i ∈ fs → i < s.cfg.n) :
    fineStep (.fill c fs) s = .next (fs.foldl (State.writeField w) s) :=
  fineFill_next.mpr ⟨w, hw, all_fieldInSlot_iff.mpr hin, rfl⟩

/-- The publish of a filled slot (R215). -/
theorem fineStep_publish {s : State} {c : Role} {w : Fill} (hw : s.fillOf c = some w) (hfilled : s.filled w = true) :
    fineStep (.publish c) s = .next (s.published c w) :=
  finePublish_next.mpr ⟨w, hw, hfilled, rfl⟩

/-- No step of another agent touches the slot a producer is filling, nor its PUSH (R77, R216). -/
theorem fineStep_keeps_fill {s t : State} {c : Role} {w : Fill} {op : FineOp} (h : s.FineOk) (hw : s.fillOf c = some w)
    (hop : op.producer ≠ some c) (hstep : fineStep op s = .next t) :
    Memory.read t.slots w.slot = Memory.read s.slots w.slot ∧ t.fillOf c = some w := by
  cases op with
  | reserve d e =>
    have hcd : c ≠ d := fun heq => hop (congrArg some heq.symm)
    obtain ⟨-, ⟨-, rfl⟩ | ⟨-, rfl⟩⟩ := fineReserve_next.mp hstep
    · exact ⟨rfl, hw⟩
    · exact ⟨by simp, (fillOf_setFill_other _ _ hcd).trans hw⟩
  | fill d fs =>
    obtain ⟨v, hv, -, rfl⟩ := fineFill_next.mp hstep
    have hslot : w.slot ≠ v.slot := fun heq => hop (congrArg some (h.fill_inj c d w v hw hv heq).symm)
    exact ⟨read_fill_other s v fs w.slot hslot, (fill_fillOf s v fs c).trans hw⟩
  | publish d =>
    have hcd : c ≠ d := fun heq => hop (congrArg some heq.symm)
    obtain ⟨v, -, -, rfl⟩ := finePublish_next.mp hstep
    exact ⟨by simp, (fillOf_setFill_other _ _ hcd).trans hw⟩
  | pop =>
    obtain ⟨-, rfl⟩ | ⟨-, hpub, e, -, rfl⟩ := finePop_next.mp hstep
    · exact ⟨rfl, hw⟩
    · have hslot : w.slot ≠ s.head := ((h.pub_iff s.head h.head_lt).mp hpub).2 c w hw
      exact ⟨Memory.read_erase_other _ _ _ hslot, hw⟩

/-- A POP that meets a slot being filled at `head` returns none (R216). -/
theorem finePop_of_filling_head {s : State} {c : Role} {w : Fill} (h : s.FineOk) (hw : s.fillOf c = some w)
    (hhead : s.head = w.slot) : fineStep .pop s = .next (s.emit .none) := by
  have hpub : s.pub.getD s.head false = false := Bool.eq_false_iff.mpr (hhead ▸ fineOk_pub_false h hw)
  exact finePop_next.mpr (.inl ⟨.inr hpub, rfl⟩)

/-- Settles O53: a fill is the slot's `putAll`, the invariant keeps the PUSHes in progress apart and unpublished, and a filled
slot holds its entry. -/
theorem fillAndPublishASlot : Obligations.FillAndPublishASlot := by
  unfold Obligations.FillAndPublishASlot
  refine ⟨fun s c w fs hw hin => ?fill, fun s t c w op hinv hw hop hstep => ?others, fun s c w hinv hw hall => ?publish⟩
  case fill =>
    refine ⟨_, fineStep_fill hw hin, ?_⟩
    obtain ⟨hrole, hreason, hts, hlen⟩ := putAll_single (s.slotAt w.slot) w.entry fs
    rw [slotAt_fill]
    exact ⟨hrole, hreason, hts, hlen, read_putAll_data _ _ fs, read_fill_other s w fs, fill_eq s w fs⟩
  case others =>
    have h : s.FineOk := fineInv_iff.mp hinv
    obtain ⟨hread, hfill⟩ := fineStep_keeps_fill h hw hop hstep
    refine ⟨hread, hfill, ?_⟩
    rintro rfl hhead
    rw [finePop_of_filling_head h hw hhead] at hstep
    cases hstep
    rfl
  case publish =>
    have h : s.FineOk := fineInv_iff.mp hinv
    have hfilled : s.filled w = true := List.all_eq_true.mpr hall
    have hlt : w.slot < s.pub.length := h.pub_length ▸ lt_of_occupied (h.fill_occupied c w hw)
    have hpub : (s.published c w).pub = s.pub.set w.slot true := by simp [State.published]
    have hslots : (s.published c w).slots = s.slots := by simp [State.published]
    refine ⟨s.published c w, fineStep_publish hw hfilled, ?_, ?_, fun k hk => ?_, fillOf_setFill _ _ _,
      fun d hd => fillOf_setFill_other _ _ hd, hslots, ?_⟩
    · rw [hpub, getD_set_same true hlt]
    · rw [entryAt_congr s (congrArg (Memory.read · w.slot) hslots), entryAt_of_read _ s (read_of_filled h hw hfilled),
        entry_entrySlot]
    · rw [hpub, getD_set_other true hk]
    · simp [State.published, sameSurround]

/-! ### Pop -/

/-- Settles O54 (R216): a slot taken is freed, and every other slot is left. -/
theorem finePopTakesAPublishedSlot : Obligations.FinePopTakesAPublishedSlot := by
  unfold Obligations.FinePopTakesAPublishedSlot
  intro s
  refine ⟨fun hnone => ?stops, fun e hrsv hpub he => ?takes⟩
  case stops => exact finePop_next.mpr (.inl ⟨hnone, rfl⟩)
  case takes =>
    refine ⟨s.release.emit (.entry e), finePop_next.mpr (.inr ⟨Nat.ne_of_gt hrsv, hpub, e, he, rfl⟩), ?_⟩
    have hother : ∀ k, k ≠ s.head → Memory.read s.release.slots k = Memory.read s.slots k := fun k hk =>
      Memory.read_erase_other _ _ _ hk
    exact ⟨rfl, rfl, rfl, rfl, hother, by simp [sameSurround]⟩

/-! ### What the protocol forbids -/

section Refused

variable {s : State} {c : Role} {w : Fill}

theorem fineReserve_of_busy (e : Entry) (hw : s.fillOf c = some w) : fineReserve c e s = .refused .producerBusy := by
  simp [fineReserve, hw]

theorem fineFill_of_idle (fs : List Field) (h : s.fillOf c = none) : fineFill c fs s = .refused .nothingReserved := by
  simp [fineFill, h]

theorem finePublish_of_idle (h : s.fillOf c = none) : finePublish c s = .refused .nothingReserved := by
  simp [finePublish, h]

theorem fineFill_of_not_inSlot {fs : List Field} (hw : s.fillOf c = some w) (hfs : ¬ fs.all (fieldInSlot s.cfg) = true) :
    fineFill c fs s = .fault .slotFieldOutOfRange := by
  simp only [fineFill, hw, if_neg hfs]

theorem finePublish_of_not_filled (hw : s.fillOf c = some w) (hfilled : ¬ s.filled w = true) :
    finePublish c s = .refused .publishBeforeFill := by
  simp only [finePublish, hw, if_neg hfilled]

end Refused

/-- Settles O60: each forbidden step meets the one test of its operation that it fails. -/
theorem forbiddenFineStepsAreRefused : Obligations.ForbiddenFineStepsAreRefused := by
  unfold Obligations.ForbiddenFineStepsAreRefused
  intro s c e fs w
  refine ⟨fineReserve_of_busy e, fineFill_of_idle fs, finePublish_of_idle, fun i hw hi hn => ?outOfRange,
    fun f hw hf hmissing => ?unwritten⟩
  case outOfRange =>
    exact fineFill_of_not_inSlot hw fun hall => Nat.not_lt.mpr hn (all_fieldInSlot_iff.mp hall i hi)
  case unwritten =>
    refine finePublish_of_not_filled hw fun hfilled => ?_
    have hwritten : (s.slotAt w.slot).has f = true := List.all_eq_true.mp hfilled f hf
    rw [hmissing] at hwritten
    cases hwritten

end Sys2Proof.Machine
end

section
/-!
PROOFS. The fine-grained protocol refines the atomic queue (41_encoder_queue.md R223): a reserve, its fills and its publish make
the atomic PUSH, alone and around a whole PUSH of the other producer; and the two POPs agree.
-/

namespace Sys2Proof.Machine

/-! ### Runs of fine-level steps -/

theorem fineRun_cons {op : FineOp} {ops : List FineOp} {s t : State} (h : fineStep op s = .next t) :
    fineRun (op :: ops) s = fineRun ops t := by
  simp only [fineRun, h]

/-- A producer's fill steps one after the other write their fields in the order named (R214). -/
theorem fineRun_fills {s : State} {c : Role} {w : Fill} (fills : List (List Field)) (ops : List FineOp)
    (hw : s.fillOf c = some w) (hin : ∀ i, Field.data i ∈ fills.flatten → i < s.cfg.n) :
    fineRun (fills.map (FineOp.fill c) ++ ops) s = fineRun ops (fills.flatten.foldl (State.writeField w) s) := by
  induction fills generalizing s with
  | nil => rfl
  | cons fs fills ih =>
    rw [List.flatten_cons] at hin ⊢
    rw [List.map_cons, List.cons_append, List.foldl_append,
      fineRun_cons (fineStep_fill hw fun i hi => hin i (List.mem_append_left _ hi))]
    refine ih ((fill_fillOf s w fs c).trans hw) fun i hi => ?_
    rw [fill_cfg]
    exact hin i (List.mem_append_right _ hi)

/-! ### One whole PUSH -/

/-- Producer `c` is outside a PUSH and the tail is a free slot: what the reserve of a PUSH that stores finds (R213). -/
structure State.CanPush (s : State) (c : Role) : Prop where
  idle : s.fillOf c = none
  room : s.count < s.cfg.qcap
  rsv_eq : s.rsv = s.count
  slots_wf : Memory.wf s.slots = true
  tail_free : Memory.read s.slots s.tail = none

theorem canPush_of_queueOk {s : State} (h : s.QueueOk) (c : Role) (hroom : s.count < s.cfg.qcap) : s.CanPush c where
  idle := h.idle c
  room := hroom
  rsv_eq := h.fine.rsv_eq
  slots_wf := h.fine.slots_wf
  tail_free := h.fine.free s.tail (slotIndex_lt s s.count) (not_occupied_slotIndex_count hroom)

/-- The PUSH in progress of an entry whose reserve claimed the tail (R213, R217). -/
def State.tailFill (s : State) (e : Entry) : Fill := { slot := s.tail, entry := e }

section WholePush

variable {s : State} {c : Role} {e : Entry}

theorem fineStep_reserve (h : s.CanPush c) : fineStep (.reserve c e) s = .next (s.reserved c e) :=
  fineReserve_next.mpr ⟨h.idle, .inr ⟨h.rsv_eq ▸ h.room, rfl⟩⟩

/-- The slot a reserve claims is the tail (R213, R217). -/
theorem fillOf_reserved_self (h : s.CanPush c) : (s.reserved c e).fillOf c = some (s.tailFill e) := by
  simp [State.reserved, State.tailFill, State.tail, h.rsv_eq]

/-- The publish of a claimed slot filled with every field of the entry makes the atomic PUSH's state (R205, R215). -/
theorem published_fill_reserved (h : s.CanPush c) {fs : List Field} (hall : ∀ f ∈ entryFields e, f ∈ fs) :
    (fs.foldl (State.writeField (s.tailFill e)) (s.reserved c e)).published c (s.tailFill e) = s.store e := by
  have hfill : (fs.foldl (State.writeField (s.tailFill e)) (s.reserved c e)).slots = (s.store e).slots := by
    rw [slots_fill (by simpa using h.slots_wf) (by simpa [State.tailFill] using h.tail_free) hall, reserved_slots]
    rfl
  have hidle := h.idle
  rw [fill_eq, hfill]
  obtain ⟨cfg, m, nd, slots, head, count, drops, rsv, pub, fillM, fillNd, inbox, emitted, choice⟩ := s
  cases c with
  | m => cases hidle; rfl
  | nd => cases hidle; rfl

/-- A reserve, fills that name every field and a publish are the atomic PUSH (R223). -/
theorem fineRun_push {fills : List (List Field)} (ops : List FineOp) (h : s.CanPush c)
    (hall : ∀ f ∈ entryFields e, f ∈ fills.flatten) (hin : ∀ i, Field.data i ∈ fills.flatten → i < s.cfg.n) :
    fineRun (.reserve c e :: (fills.map (FineOp.fill c) ++ .publish c :: ops)) s = fineRun ops (s.store e) := by
  have hw := fillOf_reserved_self (e := e) h
  rw [fineRun_cons (fineStep_reserve h), fineRun_fills fills _ hw (by simpa using hin),
    fineRun_cons (fineStep_publish ((fill_fillOf _ _ _ c).trans hw) (filled_fill hall)), published_fill_reserved h hall]

end WholePush

/-- Settles O55: below capacity the tail is free, at capacity reserve and PUSH both drop. -/
theorem reserveFillPublishIsPush : Obligations.ReserveFillPublishIsPush := by
  unfold Obligations.ReserveFillPublishIsPush
  intro s c e fills hinv hall hin
  have h : s.QueueOk := (inv_iff.mp hinv).queue
  refine ⟨fun hroom => ?room, fun hfull => ?full⟩
  case room =>
    rw [push_of_lt s e hroom]
    exact fineRun_push [] (canPush_of_queueOk h c hroom) hall hin
  case full =>
    rw [push_of_full s e (Nat.le_of_eq hfull.symm)]
    exact fineRun_cons
      (fineReserve_next.mpr ⟨h.idle c, .inl ⟨Nat.le_of_eq (hfull.symm.trans h.fine.rsv_eq.symm), rfl⟩⟩)

/-! ### A PUSH of the other producer in between -/

/-- Writes of two cells of a canonical memory commute. -/
theorem Memory.write_comm {α : Type} {mem : List (Nat × α)} (h : Memory.wf mem = true) {a b : Nat} (hab : a ≠ b) (v w : α) :
    Memory.write (Memory.write mem a v) b w = Memory.write (Memory.write mem b w) a v := by
  refine Memory.eq_of_read_eq (Memory.wf_write _ _ _ (Memory.wf_write _ _ _ h))
    (Memory.wf_write _ _ _ (Memory.wf_write _ _ _ h)) fun k => ?_
  by_cases ha : k = a
  · subst ha
    rw [Memory.read_write_other _ _ _ _ hab, Memory.read_write_same, Memory.read_write_same]
  · by_cases hb : k = b
    · subst hb
      rw [Memory.read_write_same, Memory.read_write_other _ _ _ _ ha, Memory.read_write_same]
    · simp [Memory.read_write_other, ha, hb]

section Commute

variable {s : State} {w : Fill} {e : Entry}

theorem store_writeField (hwf : Memory.wf s.slots = true) (hne : w.slot ≠ s.tail) (f : Field) :
    (s.writeField w f).store e = (s.store e).writeField w f := by
  unfold State.writeField
  split
  · have hslot : (s.store e).slotAt w.slot = s.slotAt w.slot := by
      simp [State.slotAt, Memory.read_write_other _ _ _ _ hne]
    have hcomm := Memory.write_comm hwf hne ((s.slotAt w.slot).put w.entry f) (entrySlot e)
    rw [hslot]
    exact congrArg (fun slots => { s.store e with slots := slots }) hcomm
  · rfl

/-- A producer's fill and a PUSH that stores in another slot do not touch each other (R77). -/
theorem store_fill (hwf : Memory.wf s.slots = true) (hne : w.slot ≠ s.tail) (fs : List Field) :
    (fs.foldl (State.writeField w) s).store e = fs.foldl (State.writeField w) (s.store e) := by
  induction fs generalizing s with
  | nil => rfl
  | cons f fs ih =>
    rw [List.foldl_cons, List.foldl_cons, ← store_writeField hwf hne]
    exact ih (slots_wf_writeField s w f hwf) (by rw [writeField_eq]; exact hne)

theorem store_published (c : Role) (hne : w.slot ≠ s.tail) : (s.published c w).store e = (s.store e).published c w := by
  have hcomm : (s.pub.set w.slot true).set s.tail true = (s.pub.set s.tail true).set w.slot true := List.set_comm _ _ hne
  cases c with
  | m => exact congrArg (fun pub => { s.store e with pub := pub, fillM := none }) hcomm
  | nd => exact congrArg (fun pub => { s.store e with pub := pub, fillNd := none }) hcomm

end Commute

section Nested

variable {s : State} {c d : Role} {e : Entry}

/-- After a reserve the tail is another slot than the one reserved, and is free too while there is room (R213). -/
theorem tail_reserved (hroom : s.count + 1 < s.cfg.qcap) :
    s.tail ≠ (s.reserved c e).tail ∧ ¬ s.occupied (s.reserved c e).tail := by
  have hfree : ¬ (s.reserved c e).occupied (s.reserved c e).tail :=
    not_occupied_slotIndex_count (by simpa using hroom)
  rw [occupied_reserved, not_or] at hfree
  exact hfree.symm

theorem canPush_reserved (h : s.QueueOk) (hdc : d ≠ c) (hroom : s.count + 1 < s.cfg.qcap) : (s.reserved c e).CanPush d where
  idle := (fillOf_setFill_other _ _ hdc).trans (h.idle d)
  room := by simpa using hroom
  rsv_eq := by simp [h.fine.rsv_eq]
  slots_wf := by simpa using h.fine.slots_wf
  tail_free := by
    have hlt : (s.reserved c e).tail < s.cfg.qcap :=
      Nat.lt_of_lt_of_eq (slotIndex_lt (s.reserved c e) _) (congrArg Config.qcap (reserved_cfg s c e))
    rw [reserved_slots]
    exact h.fine.free _ hlt (tail_reserved hroom).2

theorem canPush_fill {w : Fill} (h : s.CanPush d) (hne : w.slot ≠ s.tail) (fs : List Field) :
    (fs.foldl (State.writeField w) s).CanPush d where
  idle := (fill_fillOf s w fs d).trans h.idle
  room := by simpa using h.room
  rsv_eq := by simpa using h.rsv_eq
  slots_wf := slots_wf_fill s w fs h.slots_wf
  tail_free := by
    rw [fill_tail, read_fill_other s w fs _ hne.symm]
    exact h.tail_free

/-- The outer publish after a nested PUSH in another slot makes the two PUSHes in the order of the reservations (R248). -/
theorem published_fill_store {e' : Entry} (h : s.CanPush c) (hne : s.tail ≠ (s.reserved c e).tail) {fs : List Field}
    (hall : ∀ f ∈ entryFields e, f ∈ fs) :
    (fs.foldl (State.writeField (s.tailFill e)) ((s.reserved c e).store e')).published c (s.tailFill e) =
      (s.store e).store e' := by
  rw [← store_fill (by simpa using h.slots_wf) hne, ← store_published c (by rw [fill_tail]; exact hne),
    published_fill_reserved h hall]

end Nested

/-- Settles O56: the nested PUSH is a whole one in the state it starts from, and it commutes with the rest of the outer PUSH,
whose slot it leaves alone. -/
theorem nestedPushesKeepReservationOrder : Obligations.NestedPushesKeepReservationOrder := by
  unfold Obligations.NestedPushesKeepReservationOrder
  intro s c d e e' before after fills hinv hdc hall hall' hin hroom
  have h : s.QueueOk := (inv_iff.mp hinv).queue
  have hpush : s.CanPush c := canPush_of_queueOk h c (by omega)
  have hpush' : (s.reserved c e).CanPush d := canPush_reserved h hdc hroom
  obtain ⟨hne, -⟩ := tail_reserved (c := c) (e := e) hroom
  simp only [List.flatten_append, List.mem_append] at hin
  have hbefore : ∀ i, Field.data i ∈ before.flatten → i < s.cfg.n := fun i hi => hin i (.inl (.inl hi))
  have hafter : ∀ i, Field.data i ∈ after.flatten → i < s.cfg.n := fun i hi => hin i (.inl (.inr hi))
  have hfills : ∀ i, Field.data i ∈ fills.flatten → i < s.cfg.n := fun i hi => hin i (.inr hi)
  have hw : (s.reserved c e).fillOf c = some (s.tailFill e) := fillOf_reserved_self hpush
  have hw' : ∀ fs : List Field, (fs.foldl (State.writeField (s.tailFill e)) ((s.reserved c e).store e')).fillOf c =
      some (s.tailFill e) := fun fs => (fill_fillOf _ _ fs c).trans ((fillOf_congr rfl rfl c).trans hw)
  calc
    _ = fineRun (.reserve c e :: (before.map (FineOp.fill c) ++ (.reserve d e' :: (fills.map (FineOp.fill d) ++
          .publish d :: (after.map (FineOp.fill c) ++ [.publish c]))))) s := by
      simp only [List.append_assoc, List.cons_append, List.nil_append]
    _ = fineRun (.reserve d e' :: (fills.map (FineOp.fill d) ++ .publish d :: (after.map (FineOp.fill c) ++ [.publish c])))
          (before.flatten.foldl (State.writeField (s.tailFill e)) (s.reserved c e)) := by
      rw [fineRun_cons (fineStep_reserve hpush), fineRun_fills before _ hw (by simpa using hbefore)]
    _ = fineRun (after.map (FineOp.fill c) ++ [.publish c])
          (before.flatten.foldl (State.writeField (s.tailFill e)) ((s.reserved c e).store e')) := by
      rw [fineRun_push _ (canPush_fill hpush' hne _) hall' (by simpa using hfills), store_fill hpush'.slots_wf hne]
    _ = fineRun [.publish c]
          ((before ++ after).flatten.foldl (State.writeField (s.tailFill e)) ((s.reserved c e).store e')) := by
      rw [fineRun_fills after _ (hw' _) (by simpa using hafter), List.flatten_append, List.foldl_append]
    _ = .next ((s.store e).store e') := by
      rw [fineRun_cons (fineStep_publish (hw' _) (filled_fill hall)), published_fill_store hpush hne hall]
      rfl
    _ = .next ((s.push e).push e') := by
      rw [push_of_lt s e hpush.room, push_of_lt (s.store e) e' hroom]

/-! ### Pop -/

/-- Settles O57: between atomic events `head` is published exactly when an entry is held, and it then holds a whole one. -/
theorem finePopAgrees : Obligations.FinePopAgrees := by
  unfold Obligations.FinePopAgrees
  intro s hinv
  have h : s.QueueOk := (inv_iff.mp hinv).queue
  show finePop s = execPop s
  by_cases hcount : s.count = 0
  · rw [execPop_next.mpr (.inl ⟨hcount, rfl⟩), finePop_next.mpr (.inl ⟨.inl (h.fine.rsv_eq.trans hcount), rfl⟩)]
  · have hpub : s.pub.getD s.head false = true := pub_head_of_count_ne_zero h hcount
    obtain ⟨e, he, -, -⟩ := exists_entry_of_pub h.fine h.fine.head_lt hpub
    rw [execPop_next.mpr (.inr ⟨hcount, e, he, rfl⟩),
      finePop_next.mpr (.inr ⟨h.fine.rsv_eq ▸ hcount, hpub, e, he, rfl⟩)]

end Sys2Proof.Machine
end

section
/-!
PROOFS. The atomic operations on the Output Queue (41_encoder_queue.md R205, R207, R209): the key of each selects its row, and what
it stores, returns and leaves unchanged.
-/

namespace Sys2Proof.Machine

/-- An event whose code is that of an instruction with no more specific row selects it (R110, R114). -/
theorem selects_of_codeOf {s : State} {ev : Event} {i : Instr} (hcode : codeOf ev s = encode i)
    (henabled : i.row.enabled s.cfg.nak = true) (hmost : ∀ r, (r, i.row) ∉ overlaps) :
    s.selects ev i.row.pattern.1 i.row.pattern.2 i := by
  unfold State.selects fetch
  rw [hcode]
  exact ⟨encode_match i, decode_eq_ok (keyOp_encode i)
    (selectRow_eq_some (selectedBy_iff.mpr ⟨encode_match i, henabled⟩) fun r hov => absurd hov (hmost r)) (instr_encode i)⟩

theorem selects_push (s : State) (e : Entry) : s.selects (.push e) 0xC000 0xE000 (.push e) :=
  selects_of_codeOf (i := .push e) rfl rfl (by simp [overlaps, Instr.row])

theorem selects_pop (s : State) : s.selects .pop 0x6000 0xE000 .pop :=
  selects_of_codeOf (i := .pop) rfl rfl (by simp [overlaps, Instr.row])

theorem selects_rddrop (s : State) : s.selects .rddrop 0x8000 0xE000 .rddrop :=
  selects_of_codeOf (i := .rddrop) rfl rfl (by simp [overlaps, Instr.row])

theorem full_iff {s : State} : s.full = true ↔ s.cfg.qcap ≤ s.count := decide_eq_true_iff

theorem full_eq_false_iff {s : State} : s.full = false ↔ s.count < s.cfg.qcap := decide_eq_false_iff_not.trans Nat.not_le

/-- Settles O24 (R205): a PUSH with room is a store at the tail. -/
theorem pushStoresAtTheTail : Obligations.PushStoresAtTheTail := by
  unfold Obligations.PushStoresAtTheTail
  intro s e hroom
  have hexec : exec (.push e) s = .next (s.store e) := exec_push_next.mpr (push_of_lt s e hroom).symm
  have hother : ∀ k, k ≠ s.tail → Memory.read (s.store e).slots k = Memory.read s.slots k := fun k hk =>
    Memory.read_write_other _ _ _ _ hk
  have hfull : (s.store e).full = true ↔ (s.store e).count = (s.store e).cfg.qcap := by
    rw [full_iff, store_count, store_cfg]
    omega
  exact ⟨s.store e, selects_push s e, hexec, entryAt_store_tail e s, hother, rfl, rfl, rfl, rfl, rfl, rfl, rfl, rfl,
    ⟨rfl, rfl, rfl⟩, by simp [State.empty], hfull⟩

/-- Settles O26 (R207): a POP of a queue that holds an entry releases the oldest slot and returns what it held. -/
theorem popReturnsTheOldest : Obligations.PopReturnsTheOldest := by
  unfold Obligations.PopReturnsTheOldest
  intro s e hcount he
  have hexec : exec .pop s = .next (s.release.emit (.entry e)) := execPop_next.mpr (.inr ⟨Nat.ne_of_gt hcount, e, he, rfl⟩)
  have hother : ∀ k, k ≠ s.head → Memory.read s.release.slots k = Memory.read s.slots k := fun k hk =>
    Memory.read_erase_other _ _ _ hk
  have hfull : s.count ≤ s.cfg.qcap → s.release.full = false := fun hle => by
    rw [full_eq_false_iff, release_count, release_cfg]
    omega
  exact ⟨s.release.emit (.entry e), selects_pop s, hexec, rfl, rfl, rfl, hother, rfl, rfl, rfl, rfl, rfl, ⟨rfl, rfl, rfl⟩,
    hfull, decide_eq_true_iff⟩

/-- Settles O28 (R209): every agent may issue RDDROP, and no state refuses it. -/
theorem readDropCounter : Obligations.ReadDropCounter := by
  unfold Obligations.ReadDropCounter
  intro s a
  obtain ⟨hkey, hfetch⟩ := selects_rddrop s
  have hexec : exec .rddrop s = .next (s.emit (.dropCount s.drops)) := exec_rddrop_next.mpr rfl
  have hissue : a.mayIssue .rddrop = true := by cases a <;> rfl
  exact ⟨⟨hkey, hfetch⟩, hexec, (serve_of_fetch (r := { issuer := a, event := .rddrop }) hissue hfetch).trans hexec⟩

/-- Settles O42: the oldest slot of a queue that is not empty is published, so it holds a whole entry of R106. -/
theorem poppedEntriesAreWholeFrames : Obligations.PoppedEntriesAreWholeFrames := by
  unfold Obligations.PoppedEntriesAreWholeFrames
  intro s hinv hpos
  have h : s.QueueOk := (inv_iff.mp hinv).queue
  have hcount : s.count ≠ 0 := Nat.ne_of_gt hpos
  obtain ⟨e, he, -, hwf⟩ := exists_entry_of_pub h.fine h.fine.head_lt (pub_head_of_count_ne_zero h hcount)
  obtain ⟨hone, hn⟩ := (Bool.and_eq_true _ _).mp hwf
  exact ⟨s.release.emit (.entry e), e, execPop_next.mpr (.inr ⟨hcount, e, he, rfl⟩), rfl, of_decide_eq_true hone,
    of_decide_eq_true hn⟩

end Sys2Proof.Machine
end

section
/-!
PROOFS. The fields of a message at their fixed offsets in the payload of its Frame's Capture Record (30_encoding.md R109, R204).
-/

namespace Sys2Proof.Machine

/-- A run of bytes is read back at the offset where it stands. -/
theorem slice_eq {p mid : List Byte} {lo n : Nat} (pre post : List Byte) (hp : p = pre ++ (mid ++ post)) (hlo : lo = pre.length)
    (hn : n = mid.length) : slice p lo n = mid := by
  subst hp hlo hn
  simp [slice]

section Slices

variable {p pre value : List Byte} {parameter : Vector Byte 4} {checksum : Byte}

/-- The first fields of a Master's message: address and command (R109). -/
theorem slices_of_master {address : Vector Byte 4} {command : Byte} {rest : List Byte}
    (hp : p = address.toList ++ (command :: rest)) : slice p 0 4 = address.toList ∧ slice p 4 1 = [command] :=
  ⟨slice_eq [] (command :: rest) hp rfl (by simp), slice_eq address.toList rest hp (by simp) rfl⟩

/-- What follows the first `k` bytes of a write or a response: parameter, value, terminator and checksum (R109). -/
theorem slices_of_terminated {k : Nat} (hk : pre.length = k)
    (hp : p = pre ++ (parameter.toList ++ (value ++ [Config.term, checksum]))) :
    slice p k 4 = parameter.toList ∧ slice p (k + 4) (p.length - (k + 6)) = value ∧
      slice p (p.length - 2) 1 = [Config.term] ∧ slice p (p.length - 1) 1 = [checksum] := by
  have hlen : p.length = k + value.length + 6 := by
    simp [hp, hk]
    omega
  refine ⟨?parameter, ?value, ?terminator, ?checksum⟩
  case parameter => exact slice_eq pre _ hp hk.symm (by simp)
  case value => exact slice_eq (pre ++ parameter.toList) [Config.term, checksum] (by simp [hp]) (by simp [hk]) (by omega)
  case terminator =>
    refine slice_eq (pre ++ parameter.toList ++ value) [checksum] (by simp [hp]) ?_ rfl
    simp [hlen, hk]
    omega
  case checksum =>
    refine slice_eq (pre ++ parameter.toList ++ value ++ [Config.term]) [] (by simp [hp]) ?_ rfl
    simp [hlen, hk]
    omega

end Slices

section ReadFields

variable (nak : NakByte) (address parameter : Vector Byte 4) (command : Byte) (value : List Byte) (checksum : Byte)

theorem readFields_masterWrite :
    readFields nak .m (messageBytes (.masterWrite address parameter value checksum)) =
      messageFields (.masterWrite address parameter value checksum) := by
  generalize hp : messageBytes (.masterWrite address parameter value checksum) = p
  simp only [messageBytes, List.append_assoc, List.singleton_append] at hp
  obtain ⟨haddress, hcommand⟩ := slices_of_master hp.symm
  obtain ⟨hparameter, hvalue, hterm, hchecksum⟩ :=
    slices_of_terminated (k := 5) (pre := address.toList ++ [Config.cmdWrite]) (by simp) (by simpa using hp.symm)
  simp only [readFields, haddress, hcommand, hparameter, hvalue, hterm, hchecksum, if_true, messageFields]

theorem readFields_masterQuery (hcmd : command ≠ Config.cmdWrite) :
    readFields nak .m (messageBytes (.masterQuery address command parameter)) =
      messageFields (.masterQuery address command parameter) := by
  generalize hp : messageBytes (.masterQuery address command parameter) = p
  simp only [messageBytes, List.append_assoc, List.singleton_append] at hp
  obtain ⟨haddress, hcommand⟩ := slices_of_master hp.symm
  have hparameter : slice p 5 4 = parameter.toList :=
    slice_eq (address.toList ++ [command]) [] (by simpa using hp.symm) (by simp) (by simp)
  have hne : ¬ [command] = [Config.cmdWrite] := by simpa using hcmd
  simp only [readFields, haddress, hcommand, hparameter, if_neg hne, messageFields]

theorem readFields_nodeControl {b : Byte} (hb : b = Config.ack ∨ b = nak.byte) :
    readFields nak .nd (messageBytes (.nodeControl b)) = messageFields (.nodeControl b) := by
  have hcontrol : [b] = [Config.ack] ∨ [b] = [nak.byte] := by simpa using hb
  exact if_pos hcontrol

theorem readFields_nodeResponse :
    readFields nak .nd (messageBytes (.nodeResponse parameter value checksum)) =
      messageFields (.nodeResponse parameter value checksum) := by
  generalize hp : messageBytes (.nodeResponse parameter value checksum) = p
  simp only [messageBytes, List.append_assoc] at hp
  have hlong : ∀ b : Byte, p ≠ [b] := by
    rintro b rfl
    have hlen := congrArg List.length hp
    simp at hlen
    omega
  have hne : ¬ (p = [Config.ack] ∨ p = [nak.byte]) := not_or.mpr ⟨hlong _, hlong _⟩
  obtain ⟨hparameter, hvalue, hterm, hchecksum⟩ := slices_of_terminated (k := 0) (pre := []) rfl hp.symm
  simp only [readFields, if_neg hne, hparameter, hvalue, hterm, hchecksum, messageFields]

end ReadFields

/-- Settles O49: encoding and the Capture Record pass the payload through unmodified (R203, R204), and each shape's fields stand
at its offsets. -/
theorem fieldsSurviveTheCapture : Obligations.FieldsSurviveTheCapture := by
  unfold Obligations.FieldsSurviveTheCapture
  intro cfg msg ts hwf
  show readFields cfg.nak (messageRole msg) (messageBytes msg) = messageFields msg
  cases msg with
  | masterWrite address parameter value checksum => exact readFields_masterWrite cfg.nak address parameter value checksum
  | masterQuery address command parameter =>
    exact readFields_masterQuery cfg.nak address parameter command (bne_iff_ne.mp hwf)
  | nodeControl b =>
    refine readFields_nodeControl cfg.nak ?_
    simpa [messageWellFormed] using hwf
  | nodeResponse parameter value checksum => exact readFields_nodeResponse cfg.nak parameter value checksum

end Sys2Proof.Machine
end

section
/-!
PROOFS. No reachable state faults and none is refused (60_exceptions.md R240): each operation of R141 runs, in their order, then every
request an agent may present is served, and every step answers a next state.
-/

namespace Sys2Proof.Machine

/-! ### The operations of R141 -/

section Operations

variable {s : State} {c : Role}

/-- The bytes below `len` of a sound buffer are all written, so the frame can be read (R39, R52). -/
theorem exists_payload {cfg : Config} {ch : Channel} (h : ch.BufOk cfg) : ∃ p, ch.payload = some p :=
  Memory.readUpTo_isSome h.written

theorem exists_complete (reason : Reason) (h : (s.chan c).BufOk s.cfg) : ∃ t, complete c reason s = .ok t := by
  obtain ⟨p, hp⟩ := exists_payload h
  exact ⟨s.completed c reason p, complete_ok.mpr ⟨p, hp, rfl⟩⟩

theorem exists_timeoutCheck (now : Timestamp) (h : (s.chan c).BufOk s.cfg) : ∃ t, timeoutCheck c now s = .ok t := by
  cases htime : (s.chan c).timedOut s.cfg now with
  | false => exact ⟨s, timeoutCheck_ok.mpr (.inl ⟨htime, rfl⟩)⟩
  | true =>
    obtain ⟨p, hp⟩ := exists_payload h
    exact ⟨s.completed c .interByteTimeout p, timeoutCheck_ok.mpr (.inr ⟨htime, p, hp, rfl⟩)⟩

/-- At every position of R37 the table has an outcome for every byte (R115 c names the cells that are empty). -/
theorem exists_transition {ph : Phase} {cnt : BitVec 2} {len : Nat} (nak : NakByte) (b : Byte)
    (h : positionOk c ph cnt len = true) : ∃ outcome, transition nak c ph cnt b = some outcome := by
  cases c with
  | m => cases ph <;> exact ⟨_, rfl⟩
  | nd =>
    cases ph with
    | addr | cmd | paramQ => cases h
    | idle | paramV | value | cksum => exact ⟨_, rfl⟩

theorem exists_conclude (outcome : RowOutcome) (h : (s.chan c).BufOk s.cfg) : ∃ t, conclude c outcome s = .ok t := by
  cases outcome with
  | done reason => exact exists_complete reason h
  | next ph cnt =>
    by_cases hlen : (s.chan c).len = s.cfg.n
    · obtain ⟨t, ht⟩ := exists_complete .lengthExceeded h
      exact ⟨t, conclude_ok.mpr (.inr (.inl ⟨ph, cnt, rfl, hlen, ht⟩))⟩
    · exact ⟨_, conclude_ok.mpr (.inr (.inr ⟨ph, cnt, rfl, hlen, rfl⟩))⟩

/-- The five steps of R141 all run: the pre-check keeps the invariant, under which the table has a row and the payload has room. -/
theorem exists_byteEvent (b : Byte) (ts : Timestamp) (h : s.BlockOk) : ∃ t, byteEvent c b ts s = .next t := by
  obtain ⟨s1, hcheck⟩ := exists_timeoutCheck ts (bufOk_of_channelInv (h.chan c))
  have h1 : s1.BlockOk := blockOk_timeoutCheck h hcheck
  obtain ⟨hpos, hroom, -⟩ := h1.chan c
  obtain ⟨outcome, htable⟩ := exists_transition s.cfg.nak b hpos
  have happend : append c b ts s1 = .ok (s1.setChan c ((s1.chan c).accept b ts)) := append_ok.mpr ⟨hroom, rfl⟩
  obtain ⟨t, hconclude⟩ := exists_conclude outcome (midByte_append h1 happend).buf
  exact ⟨t, byteEvent_next.mpr ⟨s1, outcome, _, hcheck, htable, happend, hconclude⟩⟩

end Operations

/-- The oldest slot of a queue that is not empty holds a whole entry (R207, R208). -/
theorem exists_execPop {s : State} (h : Inv s) : ∃ t, exec .pop s = .next t := by
  by_cases hcount : s.count = 0
  · exact ⟨s.emit .none, execPop_next.mpr (.inl ⟨hcount, rfl⟩)⟩
  · obtain ⟨t, -, hexec, -⟩ := poppedEntriesAreWholeFrames s h (Nat.pos_of_ne_zero hcount)
    exact ⟨t, hexec⟩

/-! ### Requests -/

/-- A request an agent may issue, whose code is that of a well-formed instruction, runs it. -/
theorem serve_of_codeOf {r : Request} {s : State} {i : Instr} (hissue : r.issuer.mayIssue r.event = true)
    (hcode : codeOf r.event s = encode i) (hwf : i.wellFormed s.cfg = true) : serve r s = exec i s :=
  serve_of_fetch hissue (by rw [fetch, hcode, decode_encode hwf])

/-- A byte is presented by its own channel's producer only (R6). -/
theorem serve_byte {issuer : Agent} {c : Role} {b : Byte} {ts : Timestamp} (s : State)
    (hissue : issuer.mayIssue (.byte c b ts) = true) :
    serve { issuer := issuer, event := .byte c b ts } s = byteEvent c b ts s := by
  obtain rfl : issuer = issuerOf (.byte c b ts) := by cases c <;> exact eq_of_beq hissue
  exact byteIsTheTransitionTable s c b ts

/-- What an agent may present is served: its code selects a row, and the row runs. -/
theorem exists_serve {s : State} {r : Request} (h : s.BlockOk) (hr : r.wellFormed s.cfg = true) : ∃ t, serve r s = .next t := by
  obtain ⟨issuer, event⟩ := r
  obtain ⟨hissue, hevent⟩ := (Bool.and_eq_true _ _).mp hr
  have hcheck : ∀ c now, ∃ t, settle (timeoutCheck c now s) = .next t := fun c now =>
    (exists_timeoutCheck now (bufOk_of_channelInv (h.chan c))).imp fun _ => settle_next.mpr
  cases event with
  | reset =>
    rw [serve_of_codeOf (i := .reset) hissue rfl rfl]
    exact ⟨s.afterReset, exec_reset_next.mpr rfl⟩
  | byte c b ts =>
    rw [serve_byte s hissue]
    exact exists_byteEvent b ts h
  | tick c now =>
    cases c with
    | m =>
      rw [serve_of_codeOf (i := .tickM now) hissue rfl rfl]
      exact hcheck .m now
    | nd =>
      rw [serve_of_codeOf (i := .tickNd now) hissue rfl rfl]
      exact hcheck .nd now
  | pop =>
    rw [serve_of_codeOf (i := .pop) hissue rfl rfl]
    exact exists_execPop (inv_iff.mpr h)
  | rddrop =>
    rw [serve_of_codeOf (i := .rddrop) hissue rfl rfl]
    exact ⟨s.emit (.dropCount s.drops), exec_rddrop_next.mpr rfl⟩
  | rdlen =>
    rw [serve_of_codeOf (i := .rdlen) hissue rfl rfl]
    exact ⟨s.emit (.length s.count), exec_rdlen_next.mpr rfl⟩
  | push e =>
    rw [serve_of_codeOf (i := .push e) hissue rfl hevent]
    exact ⟨s.push e, exec_push_next.mpr rfl⟩

/-! ### Steps -/

/-- A step stops only where serving a presented request does (R7). -/
theorem exists_step {s : State}
    (h : ∀ batch ∈ s.inbox, ∀ r ∈ batch, ∀ inbox choice, ∃ t, serve r { s with inbox := inbox, choice := choice } = .next t) :
    ∃ t, step s = .next t := by
  unfold step stepInbox
  split
  next => exact ⟨s, rfl⟩
  next later hin => exact ⟨{ s with inbox := later }, rfl⟩
  next r later hin => exact h [r] (by simp [hin]) r (by simp) later s.choice
  next r r' rest later hin =>
    obtain ⟨i, hi, htaken⟩ := takeRequest_spec (Config.order s.choice) r (r' :: rest)
    simp only [htaken]
    exact h (r :: r' :: rest) (by simp [hin]) _ (List.getElem_mem hi) _ _

/-- Settles O39: the invariant does not speak of the inbox, and under it every presented request is served. -/
theorem nothingTraps : Obligations.NothingTraps := by
  unfold Obligations.NothingTraps
  intro s hinv hinbox
  exact exists_step fun batch hbatch r hr inbox choice =>
    exists_serve (blockOk_surround (inv_iff.mp hinv) inbox s.emitted choice) (hinbox batch hbatch r hr)

end Sys2Proof.Machine
end

section
/-!
PROOFS. Decoding and presenting (30_encoding.md R110 to R116, 00_scope.md R6, R7): an instruction's own code decodes to it, and
a step serves one of the requests presented, or refuses it by name.
-/

namespace Sys2Proof.Machine

/-! ### Decoding -/

/-- Settles O2: a well-formed instruction's key matches its row and that of no more specific one. -/
theorem decodeOfEncode : Obligations.DecodeOfEncode := by
  unfold Obligations.DecodeOfEncode
  intro cfg i h
  exact decode_encode h

/-- Settles O1: each word but the last three is the code of a well-formed instruction, and those are reserved (R115). -/
theorem tableWordsDecode : Obligations.TableWordsDecode := by
  unfold Obligations.TableWordsDecode
  intro t
  have h : ∀ (nak : NakByte) (i : Instr), i.wellFormed (Config.standard.withNak nak) = true → decode nak (encode i) = .ok i :=
    fun nak _ => decode_encode (cfg := Config.standard.withNak nak)
  obtain ⟨hop, -⟩ := reservedKeysAreRefused .x15 .none 0 false 0 0
  obtain ⟨-, hnode⟩ := reservedKeysAreRefused .x15 (.time t) 1 false 1 0
  obtain ⟨-, hlast⟩ := reservedKeysAreRefused .x15 (.time t) 0 true 2 0
  exact ⟨h .x15 (.byteMCmdWr t) rfl, h .x15 (.byteMCmdQry 0x03 t) rfl, h .x15 (.byteMValTerm t) rfl,
    h .x15 (.byteMParqL 0x44 t) rfl, h .x15 (.byteNdIdleAck t) rfl, h .x15 (.byteNdParvL 0x43 t) rfl,
    h .x15 (.byteNdIdleNak15 t) rfl, h .x21 (.byteNdIdle 0x15 t) rfl, h .x15 (.tickNd t) rfl, h .x15 .pop rfl,
    hop, hnode (by decide), hlast (by decide)⟩

/-! ### Presenting -/

/-- One event presented alone is served (R7). -/
theorem step_of_singleton {s : State} {r : Request} {later : List (List Request)} (h : s.inbox = [r] :: later) :
    step s = serve r { s with inbox := later } := by
  rw [step, stepInbox, h]

/-- Settles O7: the code does not depend on the inbox. -/
theorem stepRunsTheDecodedInstruction : Obligations.StepRunsTheDecodedInstruction := by
  unfold Obligations.StepRunsTheDecodedInstruction
  refine ⟨fun s r later i hin hissue hdecode => ?decoded, fun s hin => ?empty, fun s later hin => ?noStrobe⟩
  case decoded =>
    rw [step_of_singleton hin]
    exact serve_of_fetch hissue ((fetch_inbox r.event s later s.choice).trans hdecode)
  case empty => rw [step, stepInbox, hin]
  case noStrobe => rw [step, stepInbox, hin]

/-- Settles O8: the request taken is one of the batch, whatever the free order. -/
theorem simultaneousEventsInSomeOrder : Obligations.SimultaneousEventsInSomeOrder := by
  unfold Obligations.SimultaneousEventsInSomeOrder
  intro s batch later hin hlen
  match batch, hlen with
  | r :: r' :: rest, _ =>
    obtain ⟨k, hk, htaken⟩ := takeRequest_spec (Config.order s.choice) r (r' :: rest)
    refine ⟨k, hk, ?_⟩
    simp only [step, stepInbox, hin, htaken]

/-- A request of an agent that may not issue it is refused by the event's name (R6, R100). -/
theorem step_refused {s : State} {a : Agent} {ev : Event} {later : List (List Request)}
    (hin : s.inbox = [{ issuer := a, event := ev }] :: later) (hissue : a.mayIssue ev = false) :
    step s = .refused (refuseIssuer ev) := by
  rw [step_of_singleton hin, serve]
  simp [hissue]

/-- Settles O9: each event but the two reads belongs to one agent. -/
theorem forbiddenIssuersAreRefused : Obligations.ForbiddenIssuersAreRefused := by
  unfold Obligations.ForbiddenIssuersAreRefused
  intro s a ev later hin
  refine ⟨?push, ?pop, ?byteM, ?byteNd, ?tick, ?reset⟩
  case push => rintro e rfl ha; exact step_refused hin (beq_eq_false_iff_ne.mpr ha)
  case pop => rintro rfl ha; exact step_refused hin (beq_eq_false_iff_ne.mpr ha)
  case byteM => rintro b ts rfl ha; exact step_refused hin (beq_eq_false_iff_ne.mpr ha)
  case byteNd => rintro b ts rfl ha; exact step_refused hin (beq_eq_false_iff_ne.mpr ha)
  case tick => rintro c now rfl ha; exact step_refused hin (beq_eq_false_iff_ne.mpr ha)
  case reset => rintro rfl ha; exact step_refused hin (beq_eq_false_iff_ne.mpr ha)

/-- Settles O36: no operation that instructions are made of writes the parameters. -/
theorem parametersAreConstant : Obligations.ParametersAreConstant := by
  unfold Obligations.ParametersAreConstant
  intro s t h
  refine step_keeps (P := fun u => u.cfg = s.cfg) ?book ?reset ?feeds ?emit ?release rfl h
  case book => exact fun _ _ _ hu => hu
  case reset => exact fun _ hu => hu
  case feeds =>
    rintro c k u _ hu ⟨es, ch, -, -, -, rfl⟩
    simpa using hu
  case emit => exact fun _ _ hu => hu
  case release => exact fun _ hu => hu

end Sys2Proof.Machine
end

section
/-!
PROOFS. The Output Queue as the list of its entries (41_encoder_queue.md section 5, R205 to R211): what PUSH and POP do to the list,
and what any number of PUSHes leaves of it.
-/

namespace Sys2Proof.Machine

/-! ### The list of entries -/

/-- What the queue holds depends on its slots, `head`, `count` and the capacity alone. -/
theorem contents_congr {s t : State} (hcfg : t.cfg = s.cfg) (hslots : t.slots = s.slots) (hhead : t.head = s.head)
    (hcount : t.count = s.count) : t.contents = s.contents := by
  simp only [State.contents, State.slotIndex, State.entryAt, State.slotAt, hcfg, hslots, hhead, hcount]

@[simp] theorem contents_setChan (s : State) (c : Role) (ch : Channel) : (s.setChan c ch).contents = s.contents :=
  contents_congr (by simp) (by simp) (by simp) (by simp)

@[simp] theorem contents_emit (s : State) (r : Result) : (s.emit r).contents = s.contents := rfl

/-- A PUSH with room appends its entry (R205): the tail is none of the occupied slots. -/
theorem contents_push_of_lt {s : State} (e : Entry) (hroom : s.count < s.cfg.qcap) :
    (s.push e).contents = s.contents ++ [some e] := by
  have hold : ∀ i ∈ List.range s.count, (s.store e).entryAt (s.slotIndex i) = s.entryAt (s.slotIndex i) := fun i hi => by
    have hlt : i < s.count := List.mem_range.mp hi
    exact entryAt_store_other e s _ fun heq => Nat.ne_of_lt hlt (slotIndex_inj (Nat.lt_trans hlt hroom) hroom heq)
  rw [push_of_lt s e hroom]
  show (List.range (s.count + 1)).map (fun i => (s.store e).entryAt (s.slotIndex i)) = _
  rw [List.range_succ, List.map_append, List.map_congr_left hold]
  exact congrArg (fun o => s.contents ++ [o]) (entryAt_store_tail e s)

/-- A PUSH on a full queue leaves the list (R206). -/
theorem contents_push_of_full {s : State} (e : Entry) (hfull : s.cfg.qcap ≤ s.count) : (s.push e).contents = s.contents := by
  rw [push_of_full s e hfull]
  rfl

/-- A release takes the first of the list (R207). -/
theorem contents_release {s : State} (hle : s.count ≤ s.cfg.qcap) (hhead : s.head < s.cfg.qcap) (hcount : s.count ≠ 0) :
    s.contents = s.entryAt s.head :: s.release.contents := by
  obtain ⟨n, hn⟩ := Nat.exists_eq_succ_of_ne_zero hcount
  have hrest : ∀ i ∈ List.range n, s.release.entryAt (s.release.slotIndex i) = s.entryAt (s.slotIndex (i + 1)) := fun i hi => by
    have hlt : i < n := List.mem_range.mp hi
    rw [slotIndex_release]
    refine entryAt_release_other s _ fun heq => ?_
    rw [← slotIndex_zero hhead] at heq
    exact Nat.succ_ne_zero i (slotIndex_inj (by omega) (by omega) heq)
  rw [State.contents, State.contents, release_count, hn, Nat.succ_sub_one, List.map_congr_left hrest, List.range_succ_eq_map,
    List.map_cons, slotIndex_zero hhead, List.map_map]
  rfl

/-- Between atomic events a POP of a queue that is not empty returns the first of the list and leaves the others (R207). -/
theorem exists_pop {s : State} (h : s.QueueOk) (hcount : s.count ≠ 0) :
    ∃ e, exec .pop s = .next (s.release.emit (.entry e)) ∧ s.contents = some e :: s.release.contents := by
  obtain ⟨e, he, -, -⟩ := exists_entry_of_pub h.fine h.fine.head_lt (pub_head_of_count_ne_zero h hcount)
  exact ⟨e, execPop_next.mpr (.inr ⟨hcount, e, he, rfl⟩), he ▸ contents_release h.fine.count_le h.fine.head_lt hcount⟩

/-- Settles O43: the tail is a slot past those held, and `head` is the first of them. -/
theorem queueIsAFifo : Obligations.QueueIsAFifo := by
  unfold Obligations.QueueIsAFifo
  intro s hqueue hatomic
  refine ⟨fun e => contents_push_of_lt e, fun e hfull => contents_push_of_full e hfull.ge, fun hpos => ?_⟩
  obtain ⟨e, hexec, hcontents⟩ := exists_pop (queueOk_iff.mpr ⟨hqueue, hatomic⟩) (Nat.ne_of_gt hpos)
  exact ⟨_, e, hexec, hcontents, rfl⟩

/-! ### Any number of PUSHes -/

/-- Pushes fill the room there is, in order, and the others are drops, each counted (R205, R206, R222). -/
theorem pushAll_contents_drops (es : List Entry) (s : State) :
    (pushAll es s).contents = s.contents ++ (es.take (s.cfg.qcap - s.count)).map some ∧
      (pushAll es s).drops = s.drops + BitVec.ofNat 32 (es.length - (s.cfg.qcap - s.count)) := by
  induction es generalizing s with
  | nil => simp
  | cons e es ih =>
    obtain ⟨hcontents, hdrops⟩ := ih (s.push e)
    rw [pushAll_cons, hcontents, hdrops, push_cfg]
    rcases Nat.lt_or_ge s.count s.cfg.qcap with hroom | hfull
    · obtain ⟨room, hroom'⟩ : ∃ room, s.cfg.qcap - s.count = room + 1 := ⟨_, (Nat.sub_one_add_one (by omega)).symm⟩
      have hleft : s.cfg.qcap - (s.push e).count = room := by
        rw [push_of_lt s e hroom, store_count]
        omega
      have hsame : (s.push e).drops = s.drops := by rw [push_of_lt s e hroom, store_drops]
      simp [hleft, hroom', hsame, contents_push_of_lt e hroom]
    · have hnone : s.cfg.qcap - s.count = 0 := Nat.sub_eq_zero_of_le hfull
      obtain ⟨hdrop, hsame⟩ : (s.push e).drops = s.drops + 1 ∧ (s.push e).count = s.count := by simp [push_of_full s e hfull]
      rw [hdrop, hsame, hnone, contents_push_of_full e hfull]
      refine ⟨by simp, ?_⟩
      rw [List.length_cons, Nat.sub_zero, Nat.sub_zero, Nat.add_comm, BitVec.ofNat_add, BitVec.add_assoc]
      rfl

/-- Executing PUSHes one after the other is pushing their entries. -/
theorem runInstrs_push (es : List Entry) (s : State) : runInstrs (es.map Instr.push) s = .next (pushAll es s) := by
  induction es generalizing s with
  | nil => rfl
  | cons e es ih => exact ih (s.push e)

/-- Settles O44: an empty queue has room for `QCAP` entries. -/
theorem burstKeepsTheFirst : Obligations.BurstKeepsTheFirst := by
  unfold Obligations.BurstKeepsTheFirst
  intro s es _ _ hempty
  obtain ⟨hcontents, hdrops⟩ := pushAll_contents_drops es s
  rw [hempty, Nat.sub_zero] at hcontents hdrops
  have hnil : s.contents = [] := by simp [State.contents, hempty]
  exact ⟨pushAll es s, runInstrs_push es s, by rw [hcontents, hnil, List.nil_append], hdrops⟩

end Sys2Proof.Machine
end

section
/-!
PROOFS. The ledger of a run (40_capture_assembler.md R173, 41_encoder_queue.md R211, R221): every event keeps account of the bytes
presented and of the frames completed, and so does every run of events.
-/

namespace Sys2Proof.Machine

/-! ### The queue's account -/

/-- Between `s` and `t` the entries `es` were pushed, of which `stored` were stored and the others counted as drops, and the results
`rs` were returned: what was held and then stored is what was returned and then held. -/
structure State.QueueAccount (es stored : List Entry) (rs : List Result) (s t : State) : Prop where
  sublist : stored.Sublist es
  drops : t.drops = s.drops + BitVec.ofNat 32 (es.length - stored.length)
  emitted : t.emitted = s.emitted ++ rs
  contents : s.contents ++ stored.map some = (entriesOf rs).map some ++ t.contents

section QueueAccount

variable {es stored es' stored' : List Entry} {rs rs' : List Result} {s t u : State}

theorem queueAccount_trans (h : State.QueueAccount es stored rs s t) (h' : State.QueueAccount es' stored' rs' t u) :
    State.QueueAccount (es ++ es') (stored ++ stored') (rs ++ rs') s u where
  sublist := h.sublist.append h'.sublist
  drops := by
    have hle : stored.length ≤ es.length := h.sublist.length_le
    have hle' : stored'.length ≤ es'.length := h'.sublist.length_le
    have hlen : (es ++ es').length - (stored ++ stored').length =
        (es.length - stored.length) + (es'.length - stored'.length) := by
      simp only [List.length_append]
      omega
    rw [h'.drops, h.drops, hlen, BitVec.ofNat_add, BitVec.add_assoc]
  emitted := by rw [h'.emitted, h.emitted, List.append_assoc]
  contents := by
    have hentries : entriesOf (rs ++ rs') = entriesOf rs ++ entriesOf rs' := List.filterMap_append
    rw [List.map_append, ← List.append_assoc, h.contents, List.append_assoc, h'.contents, hentries, List.map_append,
      List.append_assoc]

/-- An event that neither pushes nor returns an entry. -/
theorem queueAccount_emit (s : State) {r : Result} (hr : popPort r = none) : State.QueueAccount [] [] [r] s (s.emit r) where
  sublist := List.Sublist.refl []
  drops := by simp
  emitted := rfl
  contents := by simp [entriesOf, hr]

/-- A POP of a queue that holds an entry (R207). -/
theorem queueAccount_pop {e : Entry} (h : s.contents = some e :: s.release.contents) :
    State.QueueAccount [] [] [.entry e] s (s.release.emit (.entry e)) where
  sublist := List.Sublist.refl []
  drops := by simp
  emitted := rfl
  contents := by simp [entriesOf, popPort, h]

/-- Pushes, and a channel rewritten: what there is room for is stored (R205, R206). -/
theorem queueAccount_pushAll (es : List Entry) (s : State) (c : Role) (ch : Channel) :
    State.QueueAccount es (es.take (s.cfg.qcap - s.count)) [] s ((pushAll es s).setChan c ch) := by
  obtain ⟨hcontents, hdrops⟩ := pushAll_contents_drops es s
  refine ⟨List.take_sublist _ es, ?_, by simp, by simp [hcontents, entriesOf]⟩
  have hlen : es.length - (es.take (s.cfg.qcap - s.count)).length = es.length - (s.cfg.qcap - s.count) := by
    rw [List.length_take]
    omega
  rw [setChan_drops, hdrops, hlen]

end QueueAccount

/-! ### The block's account -/

/-- The queue's account together with that of the bytes: on each channel `c` the payloads of the entries pushed and then the bytes
now under assembly are the bytes under assembly before and then `bs c`. -/
structure State.Account (bs : Role → List Byte) (es stored : List Entry) (rs : List Result) (s t : State) : Prop where
  queue : State.QueueAccount es stored rs s t
  bytes : ∀ c, payloadsOf c es ++ t.partialOf c = s.partialOf c ++ bs c
  wellFormed : ∀ e ∈ es, e.wellFormed s.cfg = true

section Account

variable {bs bs' : Role → List Byte} {es stored es' stored' : List Entry} {rs rs' : List Result} {s t u : State}

theorem account_trans (hcfg : t.cfg = s.cfg) (h : State.Account bs es stored rs s t)
    (h' : State.Account bs' es' stored' rs' t u) :
    State.Account (fun c => bs c ++ bs' c) (es ++ es') (stored ++ stored') (rs ++ rs') s u where
  queue := queueAccount_trans h.queue h'.queue
  bytes c := by
    have hpayloads : payloadsOf c (es ++ es') = payloadsOf c es ++ payloadsOf c es' := by simp [payloadsOf]
    rw [hpayloads, List.append_assoc, h'.bytes c, ← List.append_assoc, h.bytes c, List.append_assoc]
  wellFormed e he := (List.mem_append.mp he).elim (h.wellFormed e) fun he' => hcfg ▸ h'.wellFormed e he'

/-- An event that pushes nothing and leaves the channels. -/
theorem account_of_queueAccount (h : State.QueueAccount [] [] rs s t) (hchan : ∀ c, t.chan c = s.chan c) :
    State.Account (fun _ => []) [] [] rs s t where
  queue := h
  bytes c := by simp [payloadsOf, State.partialOf, hchan c]
  wellFormed := by simp

/-- Entries of one channel's frames: all their bytes are that channel's. -/
theorem payloadsOf_eq {c d : Role} (h : ∀ e ∈ es, e.role = c) :
    payloadsOf d es = if c = d then es.flatMap Entry.data else [] := by
  have hfilter : es.filter (fun e => e.role == d) = if c = d then es else [] := by
    split
    next heq => exact List.filter_eq_self.mpr fun e he => by simp [h e he, heq]
    next hne => exact List.filter_eq_nil_iff.mpr fun e he => by simp [h e he, hne]
  rw [payloadsOf, hfilter]
  split <;> rfl

/-- An event that carries bytes of its own channel leaves the other as it is (R175). -/
theorem account_of_carries {c : Role} {k : Nat} {own : List Byte} (h : State.carries c k own s t) :
    ∃ es stored, State.Account (fun d => if c = d then own else []) es stored [] s t := by
  obtain ⟨es, ch, -, hentry, rfl, hbytes⟩ := h
  refine ⟨es, _, queueAccount_pushAll es s c ch, fun d => ?_, fun e he => (hentry e he).2⟩
  rw [payloadsOf_eq (c := c) fun e he => (hentry e he).1]
  by_cases hd : c = d
  · subst hd
    simpa using hbytes
  · simp [hd, State.partialOf, chan_setChan_other _ c ch d (Ne.symm hd)]

end Account

/-! ### Events -/

/-- A TICK presented by the timer is the timeout check (R167, R168). -/
theorem serve_tick (s : State) (c : Role) (now : Timestamp) :
    serve (requestOf (.tick c now)) s = settle (timeoutCheck c now s) := by
  cases c with
  | m => exact serve_of_codeOf (i := .tickM now) rfl rfl rfl
  | nd => exact serve_of_codeOf (i := .tickNd now) rfl rfl rfl

theorem serve_pop (s : State) : serve (requestOf .pop) s = exec .pop s := serve_of_codeOf (i := .pop) rfl rfl rfl

theorem serve_rddrop (s : State) : serve (requestOf .rddrop) s = exec .rddrop s := serve_of_codeOf (i := .rddrop) rfl rfl rfl

theorem serve_rdlen (s : State) : serve (requestOf .rdlen) s = exec .rdlen s := serve_of_codeOf (i := .rdlen) rfl rfl rfl

/-- A BYTE of the table carries its byte (R141). -/
theorem carries_byteEvent {s t : State} {c : Role} {b : Byte} {ts : Timestamp} (h : s.BlockOk)
    (hb : byteEvent c b ts s = .next t) : State.carries c 2 [b] s t := by
  obtain ⟨s1, outcome, s2, hcheck, -, happend, hconclude⟩ := byteEvent_next.mp hb
  have h1 : s1.BlockOk := blockOk_timeoutCheck h hcheck
  exact carries_trans (carries_timeoutCheck h hcheck)
    (carries_trans (carries_append h1 happend) (carries_conclude (midByte_append h1 happend) hconclude))

/-- Serving an event of a run keeps account. -/
theorem account_serve {s t : State} {ev : Event} (h : s.BlockOk) (hev : withinRun ev = true)
    (hserve : serve (requestOf ev) s = .next t) :
    ∃ es stored rs, State.Account (fun c => bytesOf c ev) es stored rs s t := by
  cases ev with
  | reset | push e => cases hev
  | byte c b ts =>
    rw [byteIsTheTransitionTable] at hserve
    obtain ⟨es, stored, haccount⟩ := account_of_carries (carries_byteEvent h hserve)
    exact ⟨es, stored, [], haccount⟩
  | tick c now =>
    rw [serve_tick, settle_next] at hserve
    obtain ⟨es, stored, haccount⟩ := account_of_carries (carries_timeoutCheck h hserve)
    exact ⟨es, stored, [], by simpa [bytesOf] using haccount⟩
  | pop =>
    rw [serve_pop] at hserve
    by_cases hcount : s.count = 0
    · obtain rfl : t = s.emit .none := by
        simpa [hcount] using execPop_next.mp hserve
      exact ⟨[], [], [.none], account_of_queueAccount (queueAccount_emit s rfl) fun c => by simp⟩
    · obtain ⟨e, hexec, hcontents⟩ := exists_pop h.queue hcount
      cases hexec.symm.trans hserve
      exact ⟨[], [], [.entry e], account_of_queueAccount (queueAccount_pop hcontents) fun c => by simp⟩
  | rddrop =>
    rw [serve_rddrop] at hserve
    cases exec_rddrop_next.mp hserve
    exact ⟨[], [], [_], account_of_queueAccount (queueAccount_emit s rfl) fun c => by simp⟩
  | rdlen =>
    rw [serve_rdlen] at hserve
    cases exec_rdlen_next.mp hserve
    exact ⟨[], [], [_], account_of_queueAccount (queueAccount_emit s rfl) fun c => by simp⟩

/-- An event of a run is presented by the agent that may issue it, its operand in range (R6, R100). -/
theorem wellFormed_requestOf {cfg : Config} {ev : Event} (hev : withinRun ev = true) : (requestOf ev).wellFormed cfg = true := by
  cases ev with
  | reset | push e => cases hev
  | byte c b ts => cases c <;> rfl
  | tick c now => rfl
  | pop | rddrop | rdlen => rfl

/-! ### Runs -/

theorem run_succ {M : Host.Core} {s t : M.State} (h : M.step s = .next t) (k : Nat) : M.run (k + 1) s = M.run k t := by
  simp only [Host.Core.run, h]

/-- A run steps once for each event presented in a step of its own, and keeps account of all of them. -/
theorem exists_run (evs : List Event) {s : State} (h : s.BlockOk) (hin : s.inbox = evs.map fun ev => [requestOf ev])
    (hevs : ∀ ev ∈ evs, withinRun ev = true) :
    ∃ t es stored rs, Host.Core.run Sys2Proof.core evs.length s = .next t ∧ t.BlockOk ∧ t.inbox = [] ∧
      State.Account (fun c => evs.flatMap (bytesOf c)) es stored rs s t := by
  induction evs generalizing s with
  | nil =>
    have hqueue : State.QueueAccount [] [] [] s s := ⟨List.Sublist.refl [], by simp, by simp, by simp [entriesOf]⟩
    exact ⟨s, [], [], [], rfl, h, hin, account_of_queueAccount hqueue fun _ => rfl⟩
  | cons ev evs ih =>
    obtain ⟨hev, hrest⟩ := List.forall_mem_cons.mp hevs
    have h0 : ({ s with inbox := evs.map fun ev => [requestOf ev] } : State).BlockOk :=
      blockOk_surround h _ s.emitted s.choice
    obtain ⟨u, hserve⟩ := exists_serve h0 (wellFormed_requestOf hev)
    obtain ⟨hu, hcfg, hinbox⟩ := blockOk_serve h0 (wellFormed_requestOf hev) hserve
    obtain ⟨es, stored, rs, haccount⟩ := account_serve h0 hev hserve
    obtain ⟨t, es', stored', rs', hrun, ht, hempty, haccount'⟩ := ih hu hinbox hrest
    have hstep : Sys2Proof.core.step s = .next u := (step_of_singleton hin).trans hserve
    have hall : State.Account (fun c => (ev :: evs).flatMap (bytesOf c)) (es ++ es') (stored ++ stored') (rs ++ rs')
        { s with inbox := evs.map fun ev => [requestOf ev] } t := account_trans hcfg haccount haccount'
    -- the account does not speak of the inbox
    have hall' : State.Account _ (es ++ es') (stored ++ stored') (rs ++ rs') s t := { hall with queue := { hall.queue with } }
    exact ⟨t, es ++ es', stored ++ stored', rs ++ rs', (run_succ hstep evs.length).trans hrun, ht, hempty, hall'⟩

/-- Settles O46: each event keeps account, and accounts add up over the run. -/
theorem runConservesBytesAndFrames : Obligations.RunConservesBytesAndFrames := by
  unfold Obligations.RunConservesBytesAndFrames
  intro s evs hinv hempty hevs
  obtain ⟨t, es, stored, rs, hrun, ht, hin, haccount⟩ :=
    exists_run evs (s := present evs s) (blockOk_surround (inv_iff.mp hinv) _ s.emitted s.choice)
      (by simp [present, hempty]) (List.all_eq_true.mp hevs)
  obtain ⟨⟨hsub, hdrops, hemitted, hcontents⟩, hbytes, hwf⟩ := haccount
  exact ⟨t, es, stored, rs, hrun, inv_iff.mpr ht, hin, hbytes, hwf, hsub, hdrops, hemitted, hcontents⟩

end Sys2Proof.Machine
end

section
/-!
PROOFS. Time (40_capture_assembler.md sections 2, 5 and 7, 60_exceptions.md section 4): the timeout test, the byte that comes late,
the TICK that completes a timed-out frame, and why a TICK and a BYTE of one instant need no order.
-/

namespace Sys2Proof.Machine

/-! ### The timeout test -/

/-- The test of a channel that is not idle, on the numbers the timestamps are (R171). -/
theorem timedOut_iff {cfg : Config} {ch : Channel} {now : Timestamp} (hph : ch.ph ≠ .idle) :
    ch.timedOut cfg now = true ↔ cfg.tIb.toNat ≤ (2 ^ 64 - ch.lastTs.toNat + now.toNat) % 2 ^ 64 := by
  simp [Channel.timedOut, hph, elapsed, BitVec.le_def, BitVec.toNat_sub]

/-- Settles O23: the difference of two timestamps, by whether time goes forwards. -/
theorem elapsedTimeIsModular : Obligations.ElapsedTimeIsModular := by
  unfold Obligations.ElapsedTimeIsModular
  intro cfg ch t2 hph
  have hlast : ch.lastTs.toNat < 2 ^ 64 := ch.lastTs.isLt
  have ht2 : t2.toNat < 2 ^ 64 := t2.isLt
  rw [timedOut_iff hph]
  refine ⟨?modular, fun hforward => ?forward, fun hbackward hle => ?backward⟩
  case modular => rw [Nat.add_sub_assoc hlast.le, Nat.add_comm]
  case forward =>
    have helapsed : (2 ^ 64 - ch.lastTs.toNat + t2.toNat) % 2 ^ 64 = t2.toNat - ch.lastTs.toNat := by omega
    rw [helapsed]
  case backward =>
    have helapsed : (2 ^ 64 - ch.lastTs.toNat + t2.toNat) % 2 ^ 64 = 2 ^ 64 - (ch.lastTs.toNat - t2.toNat) := by omega
    rwa [helapsed]

/-- In IDLE the test is not made (R142). -/
theorem timedOut_of_idle {cfg : Config} {ch : Channel} (now : Timestamp) (h : ch.ph = .idle) : ch.timedOut cfg now = false := by
  simp [Channel.timedOut, h]

/-- `T_IB` or more since the last byte (R142). -/
theorem timedOut_of_le {cfg : Config} {ch : Channel} {now : Timestamp} (hph : ch.ph ≠ .idle)
    (h : cfg.tIb ≤ now - ch.lastTs) : ch.timedOut cfg now = true := by
  simp [Channel.timedOut, hph, elapsed, h]

/-- Less than `T_IB` since the last byte (R142). -/
theorem not_timedOut_of_lt {cfg : Config} {ch : Channel} {now : Timestamp} (h : now - ch.lastTs < cfg.tIb) :
    ch.timedOut cfg now = false := by
  simp [Channel.timedOut, elapsed, BitVec.not_le.mpr h]

/-- No time at all is no timeout, for `T_IB` is not 0 (R9). -/
theorem not_timedOut_self {cfg : Config} {ch : Channel} {now : Timestamp} (h : ch.lastTs = now) :
    ch.timedOut cfg now = false := by
  have hlegal := cfg.legal
  simp only [Config.inRange, Bool.and_eq_true, decide_eq_true_eq] at hlegal
  obtain ⟨⟨-, htIb⟩, -⟩ := hlegal
  refine not_timedOut_of_lt ?_
  rw [h, BitVec.sub_self]
  exact BitVec.not_le.mp (mt BitVec.le_zero_iff.mp htIb)

/-! ### TICK -/

theorem timeoutCheck_of_not_timedOut {c : Role} {now : Timestamp} {s : State} (h : (s.chan c).timedOut s.cfg now = false) :
    timeoutCheck c now s = .ok s :=
  timeoutCheck_ok.mpr (.inl ⟨h, rfl⟩)

theorem timeoutCheck_of_timedOut {c : Role} {now : Timestamp} {s : State} {p : List Byte}
    (h : (s.chan c).timedOut s.cfg now = true) (hp : (s.chan c).payload = some p) :
    timeoutCheck c now s = .ok (s.completed c .interByteTimeout p) :=
  timeoutCheck_ok.mpr (.inr ⟨h, p, hp, rfl⟩)

/-- A channel that is idle, or whose last byte is not `T_IB` old, has not timed out (R167). -/
theorem not_timedOut {cfg : Config} {ch : Channel} {now : Timestamp} (h : ch.ph = .idle ∨ now - ch.lastTs < cfg.tIb) :
    ch.timedOut cfg now = false :=
  h.elim (timedOut_of_idle now) not_timedOut_of_lt

/-- Settles O22: a TICK is the timeout check of its channel. -/
theorem tickCompletesTimedOutFrames : Obligations.TickCompletesTimedOutFrames := by
  unfold Obligations.TickCompletesTimedOutFrames
  intro s now p q
  refine ⟨selects_of_codeOf (i := .tickM now) rfl rfl (by simp [overlaps, Instr.row]),
    selects_of_codeOf (i := .tickNd now) rfl rfl (by simp [overlaps, Instr.row]),
    fun hph hle hp => ?lateM, fun h => ?earlyM, fun hph hle hq => ?lateNd, fun h => ?earlyNd⟩
  case lateM => exact settle_next.mpr (timeoutCheck_of_timedOut (c := .m) (timedOut_of_le hph hle) hp)
  case earlyM => exact settle_next.mpr (timeoutCheck_of_not_timedOut (c := .m) (not_timedOut h))
  case lateNd => exact settle_next.mpr (timeoutCheck_of_timedOut (c := .nd) (timedOut_of_le hph hle) hq)
  case earlyNd => exact settle_next.mpr (timeoutCheck_of_not_timedOut (c := .nd) (not_timedOut h))

/-! ### A late byte -/

/-- A row is judged where the pre-check leaves the block (R141, R142). -/
theorem byteRow_of_timeoutCheck {c : Role} {b : Byte} {ts : Timestamp} {selected : Channel → Bool} {row : Channel → RowOutcome}
    {s s1 : State} (hcheck : timeoutCheck c ts s = .ok s1) (hidle : (s1.chan c).ph = .idle) :
    byteRow c b ts selected row s = byteRow c b ts selected row s1 := by
  simp only [byteRow, hcheck, timeoutCheck_of_idle hidle]

/-- Where no timeout has passed, a BYTE whose own code the event does not have is refused (R114, log entry 11). -/
theorem exec_byte_refused {s : State} {i : Instr} {c : Role} {b : Byte} {ts : Timestamp} (hevent : eventOf i = .byte c b ts)
    (htime : (s.chan c).timedOut s.cfg ts = false)
    (h : ¬ ((s.chan c).byteCode c b ts = encode i ∧ i.wellFormed s.cfg = true)) : exec i s = .refused .rowNotSelected := by
  obtain ⟨selected, row, hexec, hrow⟩ := exec_byte_rowOfCode s hevent
  rw [hexec]
  exact byteRow_refused htime (Bool.eq_false_iff.mpr fun hsel => h (hrow _ hsel))

/-- The block with another last timestamp in channel `c`. -/
def State.setLastTs (s : State) (c : Role) (x : Timestamp) : State := s.setChan c { s.chan c with lastTs := x }

section SetLastTs

variable (s : State) (c : Role) (x : Timestamp)

@[simp] theorem setLastTs_cfg : (s.setLastTs c x).cfg = s.cfg := setChan_cfg ..

@[simp] theorem setLastTs_chan : (s.setLastTs c x).chan c = { s.chan c with lastTs := x } := chan_setChan_same ..

/-- The append overwrites the last timestamp (R144). -/
theorem append_setLastTs (b : Byte) (ts : Timestamp) : append c b ts (s.setLastTs c x) = append c b ts s := by
  rw [append, append, setLastTs_chan, setLastTs_cfg, State.setLastTs, setChan_setChan]
  rfl

variable {s c} {b : Byte} {ts : Timestamp} (hidle : (s.chan c).ph = .idle)

include hidle

/-- In IDLE the pre-check of a BYTE does not read the last timestamp (R142). -/
theorem byteEvent_setLastTs : byteEvent c b ts (s.setLastTs c x) = byteEvent c b ts s := by
  have hidle' : ((s.setLastTs c x).chan c).ph = .idle := by rwa [setLastTs_chan]
  simp only [byteEvent, timeoutCheck_of_idle hidle, timeoutCheck_of_idle hidle', append_setLastTs, setLastTs_chan, setLastTs_cfg]

/-- In IDLE no BYTE instruction reads the last timestamp: it is refused, or runs the table's row, with any. -/
theorem exec_setLastTs {i : Instr} (hevent : eventOf i = .byte c b ts) : exec i (s.setLastTs c x) = exec i s := by
  have htime : (s.chan c).timedOut s.cfg ts = false := timedOut_of_idle ts hidle
  have htime' : ((s.setLastTs c x).chan c).timedOut (s.setLastTs c x).cfg ts = false :=
    timedOut_of_idle ts (by rwa [setLastTs_chan])
  have hcode : ((s.setLastTs c x).chan c).byteCode c b ts = (s.chan c).byteCode c b ts := by
    rw [setLastTs_chan]
    rfl
  by_cases h : (s.chan c).byteCode c b ts = encode i ∧ i.wellFormed s.cfg = true
  · obtain ⟨hown, hwf⟩ := h
    rw [exec_eq_byteEvent hevent hwf ((codeOf_byte_of_not_timedOut htime).trans hown),
      exec_eq_byteEvent hevent (by rwa [setLastTs_cfg]) ((codeOf_byte_of_not_timedOut htime').trans (hcode.trans hown)),
      byteEvent_setLastTs x hidle]
  · rw [exec_byte_refused hevent htime h, exec_byte_refused hevent htime' (by rwa [hcode, setLastTs_cfg])]

end SetLastTs

/-- Settles O18: the pre-check completes the old frame, and in IDLE it finds nothing more to do. -/
theorem lateByteStartsANewFrame : Obligations.LateByteStartsANewFrame := by
  unfold Obligations.LateByteStartsANewFrame
  intro s i c b ts hevent
  refine ⟨fun p hph hle hp => ⟨completed_chan s c _ p, ?queue, ?exec⟩, fun x hidle => exec_setLastTs x hidle hevent⟩
  case queue => simp [sameQueue, State.completed, encodeFrame, Channel.frame]
  case exec =>
    have hcheck : timeoutCheck c ts s = .ok (s.completed c .interByteTimeout p) :=
      timeoutCheck_of_timedOut (timedOut_of_le hph hle) hp
    cases instrKind i with
    | byte c' b' ts' selected row hevent' hexec =>
      cases hevent.symm.trans hevent'
      rw [hexec, hexec, completed_cfg]
      exact byteRow_of_timeoutCheck hcheck (by rw [completed_chan]; rfl)
    | tick c' now hevent' hexec => cases hevent.symm.trans hevent'
    | reset | pop | rddrop | rdlen | push e => cases hevent

/-! ### TICK and BYTE of one instant -/

/-- What a TICK does, the pre-check of a BYTE of that instant finds done (R246). -/
theorem timeoutCheck_idem {c : Role} {now : Timestamp} {s s1 : State} (h : timeoutCheck c now s = .ok s1) :
    timeoutCheck c now s1 = .ok s1 := by
  rcases timeoutCheck_ok.mp h with ⟨hin, rfl⟩ | ⟨-, p, -, rfl⟩
  · exact h
  · exact timeoutCheck_of_idle (by rw [completed_chan]; rfl)

/-- After a BYTE the last timestamp is the byte's, so that a TICK of that instant finds no timeout (R144, R246). -/
theorem timeoutCheck_after_byteEvent {c : Role} {b : Byte} {ts : Timestamp} {s t : State} (h : byteEvent c b ts s = .next t) :
    timeoutCheck c ts t = .ok t := by
  refine timeoutCheck_of_not_timedOut (not_timedOut_self ?_)
  rcases byteEvent_chan h with hchan | ⟨ph, cnt, hchan⟩
  · rw [hchan]
    rfl
  · rw [hchan]
    rfl

theorem runEvents_cons_of_next {ev : Event} {s t : State} (h : serve (requestOf ev) s = .next t) (evs : List Event) :
    runEvents (ev :: evs) s = runEvents evs t := by
  simp only [runEvents, h]

theorem runEvents_singleton (ev : Event) (s : State) : runEvents [ev] s = serve (requestOf ev) s := by
  simp only [runEvents]
  cases serve (requestOf ev) s <;> rfl

/-- A TICK before a BYTE of the same instant does what the BYTE's own pre-check would (R246). -/
theorem runEvents_tick_byte (s : State) (c : Role) (b : Byte) (ts : Timestamp) :
    runEvents [.tick c ts, .byte c b ts] s = byteEvent c b ts s := by
  cases hcheck : timeoutCheck c ts s with
  | error f => simp only [runEvents, serve_tick, hcheck, settle, byteEvent]
  | ok s1 =>
    have hserve : serve (requestOf (.tick c ts)) s = .next s1 := (serve_tick s c ts).trans (settle_next.mpr hcheck)
    rw [runEvents_cons_of_next hserve, runEvents_singleton, byteIsTheTransitionTable]
    simp only [byteEvent, hcheck, timeoutCheck_idem hcheck, timeoutCheck_cfg hcheck]

/-- A TICK after a BYTE of the same instant does nothing (R246). -/
theorem runEvents_byte_tick (s : State) (c : Role) (b : Byte) (ts : Timestamp) :
    runEvents [.byte c b ts, .tick c ts] s = byteEvent c b ts s := by
  have hserve : serve (requestOf (.byte c b ts)) s = byteEvent c b ts s := byteIsTheTransitionTable s c b ts
  cases hbyte : byteEvent c b ts s with
  | next t =>
    rw [runEvents_cons_of_next (hserve.trans hbyte), runEvents_singleton, serve_tick, timeoutCheck_after_byteEvent hbyte, settle]
  | fault f => simp only [runEvents, hserve, hbyte]
  | refused r => simp only [runEvents, hserve, hbyte]

/-- Settles O47: in either order the run is the BYTE's five steps. -/
theorem tickAndByteCommute : Obligations.TickAndByteCommute := by
  unfold Obligations.TickAndByteCommute
  intro s c b ts
  rw [runEvents_tick_byte, runEvents_byte_tick, runEvents_singleton, byteIsTheTransitionTable]
  exact ⟨rfl, rfl⟩

/-! ### The rows that are the spec's own decisions -/

/-- Settles O17: each of the five cells of the table, told by its phase and, for the last byte of a query, by `cnt`. -/
theorem rowsTheSpecDecides : Obligations.RowsTheSpecDecides := by
  unfold Obligations.RowsTheSpecDecides
  intro s b ts p q
  refine ⟨fun hready hp => ⟨fun hph => ?idle, fun hph hb => ?query, fun hph hcnt => ?parqL, fun hph hb => ?value⟩,
    fun hready hq hph => ?term⟩
  case idle => exact selects_and_exec (i := .byteMIdle b ts) hready hp rfl rfl rfl hph rfl rfl
  case query =>
    exact selects_and_exec (i := .byteMCmdQry b ts) hready hp (bne_iff_ne.mpr hb) rfl rfl hph rfl (some_ite_of_not hb)
  case parqL =>
    exact selects_and_exec (i := .byteMParqL b ts) hready hp rfl rfl rfl hph (lastByte_three rfl hcnt)
      (congrArg some (if_pos hcnt))
  case value =>
    exact selects_and_exec (i := .byteMVal b ts) hready hp (bne_iff_ne.mpr hb) rfl rfl hph rfl (some_ite_of_not hb)
  case term => exact selects_and_exec (i := .byteNdValTerm ts) hready hq rfl rfl rfl hph rfl rfl

end Sys2Proof.Machine
end

section
/-!
PROOFS. A well-formed message is captured as one entry (30_encoding.md R109, R119, 40_capture_assembler.md section 8): the
transition table reads the message from IDLE to its natural end, and the block follows the table byte by byte.
-/

namespace Sys2Proof.Machine

/-! ### Messages as the table reads them -/

/-- From a phase and counter the table goes on over all the bytes but the last, at which the frame ends of itself (R141 step 4). -/
inductive Spells (nak : NakByte) (c : Role) : Phase → BitVec 2 → List Byte → Reason → Prop where
  | last {ph : Phase} {cnt : BitVec 2} {b : Byte} {reason : Reason} (hrow : transition nak c ph cnt b = some (.done reason)) :
      Spells nak c ph cnt [b] reason
  | more {ph ph' : Phase} {cnt cnt' : BitVec 2} {b : Byte} {bs : List Byte} {reason : Reason}
      (hrow : transition nak c ph cnt b = some (.next ph' cnt')) (hph : ph' ≠ .idle) (hrest : Spells nak c ph' cnt' bs reason) :
      Spells nak c ph cnt (b :: bs) reason

section Spells

variable {nak : NakByte} {c : Role} {cnt : BitVec 2}

/-- Four bytes, one by one. -/
theorem toList_four (v : Vector Byte 4) : v.toList = [v[0], v[1], v[2], v[3]] := by
  obtain ⟨⟨l⟩, hl⟩ := v
  match l, hl with
  | [a, b, c, d], _ => rfl

/-- From the checksum phase (R158, R166). -/
theorem spells_cksum (b : Byte) : Spells nak c .cksum cnt [b] .terminator := by
  cases c <;> exact .last rfl

/-- From the value phase: value bytes, `TERM`, checksum (R156, R157, R164, R165). -/
theorem spells_value {value : List Byte} (checksum : Byte) (hvalue : ∀ b ∈ value, b ≠ Config.term) :
    Spells nak c .value cnt (value ++ [Config.term, checksum]) .terminator := by
  induction value generalizing cnt with
  | nil =>
    have hrow : transition nak c .value cnt Config.term = some (.next .cksum 0) := by cases c <;> rfl
    exact .more hrow (by decide) (spells_cksum checksum)
  | cons b value ih =>
    obtain ⟨hb, hrest⟩ := List.forall_mem_cons.mp hvalue
    have hrow : transition nak c .value cnt b = some (.next .value 0) := by cases c <;> exact some_ite_of_not hb
    exact .more hrow (by decide) (ih hrest)

/-- The address and the command of a Master's message (R147 to R151). -/
theorem spells_master {ph : Phase} {reason : Reason} (address : Vector Byte 4) {command : Byte} {bs : List Byte}
    (hcommand : transition nak .m .cmd 0 command = some (.next ph 0)) (hph : ph ≠ .idle)
    (hrest : Spells nak .m ph 0 bs reason) : Spells nak .m .idle cnt (address.toList ++ command :: bs) reason := by
  rw [toList_four]
  exact .more rfl (by decide) (.more rfl (by decide) (.more rfl (by decide) (.more rfl (by decide) (.more hcommand hph hrest))))

/-- From the second byte of a Node's parameter, which its first byte counted (R161 to R163). -/
theorem spells_nodeParameter {bs : List Byte} {reason : Reason} (p : Vector Byte 4)
    (hfirst : transition nak .nd .idle cnt p[0] = some (.next .paramV 1)) (hrest : Spells nak .nd .value 0 bs reason) :
    Spells nak .nd .idle cnt (p.toList ++ bs) reason := by
  rw [toList_four]
  exact .more hfirst (by decide) (.more rfl (by decide) (.more rfl (by decide) (.more rfl (by decide) hrest)))

/-- The parameter of a Master's write (R152, R153). -/
theorem spells_writeParameter {bs : List Byte} {reason : Reason} (p : Vector Byte 4)
    (hrest : Spells nak .m .value 0 bs reason) : Spells nak .m .paramV 0 (p.toList ++ bs) reason := by
  rw [toList_four]
  exact .more rfl (by decide) (.more rfl (by decide) (.more rfl (by decide) (.more rfl (by decide) hrest)))

/-- The parameter of a Master's query ends it (R154, R155). -/
theorem spells_queryParameter (p : Vector Byte 4) : Spells nak .m .paramQ 0 p.toList .terminator := by
  rw [toList_four]
  exact .more rfl (by decide) (.more rfl (by decide) (.more rfl (by decide) (.last rfl)))

/-- Every well-formed message is read from IDLE to its natural end (R109). -/
theorem spells_message {msg : Message} (h : messageWellFormed nak msg = true) :
    Spells nak (messageRole msg) .idle cnt (messageBytes msg) (messageReason msg) := by
  cases msg with
  | masterWrite address parameter value checksum =>
    have hvalue : ∀ b ∈ value, b ≠ Config.term := by simpa [messageWellFormed] using h
    have hspells := spells_master (nak := nak) (cnt := cnt) address (command := Config.cmdWrite) rfl (by decide)
      (spells_writeParameter parameter (spells_value checksum hvalue))
    simpa [messageBytes, messageRole, messageReason] using hspells
  | masterQuery address command parameter =>
    have hspells := spells_master (nak := nak) (cnt := cnt) address (some_ite_of_not (bne_iff_ne.mp h)) (by decide)
      (spells_queryParameter parameter)
    simpa [messageBytes, messageRole, messageReason] using hspells
  | nodeControl b =>
    have hcontrol : b = Config.ack ∨ b = nak.byte := by simpa [messageWellFormed] using h
    exact .last (congrArg some (if_pos hcontrol))
  | nodeResponse parameter value checksum =>
    obtain ⟨⟨hack, hnak⟩, hvalue⟩ :
        (parameter[0] ≠ Config.ack ∧ parameter[0] ≠ nak.byte) ∧ ∀ b ∈ value, b ≠ Config.term := by
      simpa [messageWellFormed] using h
    have hspells := spells_nodeParameter (cnt := cnt) parameter (some_ite_of_not (not_or.mpr ⟨hack, hnak⟩))
      (spells_value checksum hvalue)
    simpa [messageBytes, messageRole, messageReason] using hspells

end Spells

/-! ### The block follows the table -/

section Capture

variable {s : State} {c : Role} {b : Byte} {ts : Timestamp} {p : List Byte}

/-- A byte that ends its frame of itself pushes it and leaves the channel idle (R145, R146). -/
theorem afterRow_done (reason : Reason) :
    s.afterRow c b ts p (.done reason) =
      (s.push { role := c, reason := reason, ts := ((s.chan c).accept b ts).startTs, data := p ++ [b] }).setChan c
        ((s.chan c).accept b ts).idled := rfl

/-- A byte that neither ends its frame nor fills it moves the channel on (R145). -/
theorem afterRow_next {ph : Phase} {cnt : BitVec 2} (h : (s.chan c).len + 1 ≠ s.cfg.n) :
    s.afterRow c b ts p (.next ph cnt) = s.setChan c { (s.chan c).accept b ts with ph := ph, cnt := cnt } := if_neg h

/-- Serving a byte that is accepted without a timeout runs the table's row and keeps the invariant. -/
theorem serve_byte_of_ready {outcome : RowOutcome} (h : s.BlockOk) (hready : s.ready c ts) (hp : (s.chan c).payload = some p)
    (hrow : transition s.cfg.nak c (s.chan c).ph (s.chan c).cnt b = some outcome) :
    serve (requestOf (.byte c b ts)) s = .next (s.afterRow c b ts p outcome) ∧ (s.afterRow c b ts p outcome).BlockOk := by
  have hbyte : byteEvent c b ts s = .next (s.afterRow c b ts p outcome) := byteEvent_of_ready hready hp hrow
  exact ⟨(byteIsTheTransitionTable s c b ts).trans hbyte, blockOk_byteEvent h hbyte⟩

/-- Bytes that the table reads to a natural end, presented with gaps below `T_IB` to a channel that has room for them, are captured
behind the bytes already under assembly, and nothing else is pushed (R172). -/
theorem exists_capture {nak : NakByte} {ph : Phase} {cnt : BitVec 2} {bs : List Byte} {reason : Reason} {later : List Timestamp}
    (hspells : Spells nak c ph cnt bs reason) (h : s.BlockOk) (hnak : s.cfg.nak = nak) (hph : (s.chan c).ph = ph)
    (hcnt : (s.chan c).cnt = cnt) (hp : (s.chan c).payload = some p) (hfits : p.length + bs.length ≤ s.cfg.n)
    (htimes : (ts :: later).length = bs.length) (htime : (s.chan c).timedOut s.cfg ts = false)
    (hgaps : gapsBelow s.cfg.tIb (ts :: later) = true) :
    ∃ t ch, runEvents (bytesAt c (ts :: later) bs) s = .next t ∧ t.BlockOk ∧ ch.ph = .idle ∧ ch.len = 0 ∧
      t = (s.push { role := c, reason := reason, ts := if ph = .idle then ts else (s.chan c).startTs, data := p ++ bs }).setChan c
        ch := by
  induction hspells generalizing s ts p later with
  | @last ph cnt b reason hrow =>
    subst hnak hph hcnt
    obtain rfl : later = [] := List.length_eq_zero_iff.mp (Nat.succ.inj htimes)
    have hlen : p.length = (s.chan c).len := Memory.length_readUpTo hp
    have hroom : (s.chan c).len < s.cfg.n := by simpa [hlen] using hfits
    obtain ⟨hserve, hok⟩ := serve_byte_of_ready h ⟨htime, hroom⟩ hp hrow
    exact ⟨_, ((s.chan c).accept b ts).idled, (runEvents_singleton _ s).trans hserve, hok, rfl, rfl, afterRow_done reason⟩
  | @more ph ph' cnt cnt' b bs reason hrow hph' hrest ih =>
    subst hnak hph hcnt
    have hlen : p.length = (s.chan c).len := Memory.length_readUpTo hp
    have hbs : bs.length ≠ 0 := by cases hrest <;> simp
    obtain ⟨ts', later, rfl⟩ : ∃ ts' later', later = ts' :: later' :=
      List.exists_cons_of_length_pos (by simp at htimes; omega)
    rw [List.length_cons] at hfits
    obtain ⟨hserve, hok⟩ := serve_byte_of_ready h ⟨htime, by omega⟩ hp hrow
    rw [afterRow_next (by omega)] at hserve hok
    obtain ⟨hgap, hgaps'⟩ := (Bool.and_eq_true _ _).mp hgaps
    have htime' : ({ (s.chan c).accept b ts with ph := ph', cnt := cnt' } : Channel).timedOut s.cfg ts' = false :=
      not_timedOut_of_lt (of_decide_eq_true hgap)
    obtain ⟨t, ch, hrun, ht, hidle, hzero, heq⟩ := ih (s := s.setChan c { (s.chan c).accept b ts with ph := ph', cnt := cnt' })
      (p := p ++ [b]) (ts := ts') (later := later) hok (by simp) (by simp) (by simp)
      (by rw [chan_setChan_same]; exact payload_accept b ts hp) (by simp; omega) (Nat.succ.inj htimes) (by simpa using htime')
      (by simpa using hgaps')
    refine ⟨t, ch, (runEvents_cons_of_next hserve _).trans hrun, ht, hidle, hzero, ?_⟩
    rw [heq, push_setChan, setChan_setChan, chan_setChan_same, if_neg hph', List.append_assoc]
    rfl

end Capture

/-- FEED's times are equally spaced (R119). -/
theorem feed_eq_bytesAt (c : Role) (d t0 : Timestamp) (bs : List Byte) :
    feed c d t0 bs = bytesAt c ((List.range bs.length).map (fun k => t0 + BitVec.ofNat 64 k * d)) bs := by
  induction bs generalizing t0 with
  | nil => rfl
  | cons b bs ih =>
    have htime : ∀ k, t0 + d + BitVec.ofNat 64 k * d = t0 + BitVec.ofNat 64 (k + 1) * d := fun k => by
      rw [BitVec.ofNat_add, BitVec.add_mul, BitVec.one_mul, BitVec.add_assoc, BitVec.add_comm d]
    rw [feed, ih, List.length_cons, List.range_succ_eq_map]
    simp [bytesAt, htime, Function.comp_def]

/-- An idle channel holds no byte (R37 a). -/
theorem len_eq_zero_of_idle {c : Role} {cnt : BitVec 2} {len : Nat} (h : positionOk c .idle cnt len = true) : len = 0 := by
  obtain ⟨hlen, -⟩ : len = 0 ∧ cnt = 0 := by
    cases c <;> simpa [positionOk] using h
  exact hlen

/-- Settles O48: the table reads the message to its natural end, and an idle channel holds no byte. -/
theorem wellFormedMessagesAreCaptured : Obligations.WellFormedMessagesAreCaptured := by
  unfold Obligations.WellFormedMessagesAreCaptured
  refine ⟨fun s msg t0 later hinv hwf hfits htimes hgaps hidle => ?_, feed_eq_bytesAt⟩
  have h : s.BlockOk := inv_iff.mp hinv
  have hzero : (s.chan (messageRole msg)).len = 0 := by
    obtain ⟨hpos, -⟩ := h.chan (messageRole msg)
    exact len_eq_zero_of_idle (hidle ▸ hpos)
  have hp : (s.chan (messageRole msg)).payload = some [] := by rw [Channel.payload, hzero, Memory.readUpTo]
  obtain ⟨t, ch, hrun, ht, hph, hlen, rfl⟩ := exists_capture (spells_message hwf) h rfl hidle rfl hp (by simpa using hfits)
    htimes (timedOut_of_idle t0 hidle) hgaps
  refine ⟨_, hrun, by simp [sameQueue], ?_, ?_, inv_iff.mpr ht⟩
  · rw [chan_setChan_same, hph]
  · rw [chan_setChan_same, hlen]

end Sys2Proof.Machine
end

section
/-!
PROOFS. Quiescence (70_reset_and_hazards.md sections 1 and 5, 10_state.md section 10): what RESET leaves, and how TICKs and a DRAIN
empty the block.
-/

namespace Sys2Proof.Machine

/-! ### RESET -/

/-- Settles O37: every cell of the reset state is at its reset value, and nothing is presented. -/
theorem invariantAtReset : Obligations.InvariantAtReset := by
  unfold Obligations.InvariantAtReset
  intro cfg
  exact ⟨inv_iff.mpr (blockOk_resetWith cfg), by simp [InboxOk, State.resetWith]⟩

/-- Settles O30: RESET writes the reset state but for the model's own fields (log entry 10). -/
theorem resetWritesTheStatedValues : Obligations.ResetWritesTheStatedValues := by
  unfold Obligations.ResetWritesTheStatedValues
  intro s
  have hpub : ∀ k, s.afterReset.pub.getD k false = false := fun k =>
    List.getD_eq_getElem?_getD.trans (List.getElem?_getD_replicate_default_eq false s.cfg.qcap k)
  exact ⟨s.afterReset, selects_of_codeOf (i := .reset) rfl rfl (by simp [overlaps, Instr.row]), exec_reset_next.mpr rfl,
    rfl, rfl, rfl, rfl, rfl, rfl, rfl, rfl, rfl, rfl, hpub, rfl, rfl, rfl, rfl⟩

theorem runInstrs_cons_of_next {i : Instr} {s t : State} (h : exec i s = .next t) (is : List Instr) :
    runInstrs (i :: is) s = runInstrs is t := by
  simp only [runInstrs, h]

/-- Settles O31: none of the three reads changes the empty queue. -/
theorem afterResetTheQueueIsEmpty : Obligations.AfterResetTheQueueIsEmpty := by
  unfold Obligations.AfterResetTheQueueIsEmpty
  intro s
  have hpop : exec .pop ((s.afterReset.emit (.length 0)).emit (.dropCount 0)) =
      .next (((s.afterReset.emit (.length 0)).emit (.dropCount 0)).emit .none) := execPop_next.mpr (.inl ⟨rfl, rfl⟩)
  refine ⟨((s.afterReset.emit (.length 0)).emit (.dropCount 0)).emit .none, ?run, ?results, rfl, rfl, rfl⟩
  case run =>
    rw [runInstrs_cons_of_next (exec_reset_next.mpr rfl), runInstrs_cons_of_next (exec_rdlen_next.mpr rfl),
      runInstrs_cons_of_next (exec_rddrop_next.mpr rfl)]
    exact runInstrs_cons_of_next hpop []
  case results => simp [State.afterReset]

/-! ### TICKs and a DRAIN -/

/-- A TICK of a channel that is idle or timed out leaves it idle, and the other channel as it is (R167, R168). -/
theorem exists_flush {s : State} {c : Role} {now : Timestamp} (h : s.BlockOk)
    (hc : (s.chan c).ph = .idle ∨ s.cfg.tIb ≤ now - (s.chan c).lastTs) :
    ∃ t, serve (requestOf (flush c now)) s = .next t ∧ t.BlockOk ∧ t.cfg = s.cfg ∧ (t.chan c).ph = .idle ∧
      ∀ d, d ≠ c → t.chan d = s.chan d := by
  obtain ⟨p, hp⟩ := exists_payload (bufOk_of_channelInv (h.chan c))
  by_cases hph : (s.chan c).ph = .idle
  · exact ⟨s, (serve_tick s c now).trans (settle_next.mpr (timeoutCheck_of_idle hph)), h, rfl, hph, fun _ _ => rfl⟩
  · have hcheck : timeoutCheck c now s = .ok (s.completed c .interByteTimeout p) :=
      timeoutCheck_of_timedOut (timedOut_of_le hph (hc.resolve_left hph)) hp
    exact ⟨_, (serve_tick s c now).trans (settle_next.mpr hcheck), blockOk_timeoutCheck h hcheck, completed_cfg ..,
      by rw [completed_chan]; rfl, completed_chan_other s c _ p⟩

/-- Enough POPs empty the queue and leave the channels (R119, R207, R208). -/
theorem exists_drain (n : Nat) {s : State} (h : s.QueueOk) (hcount : s.count ≤ n) :
    ∃ t, runEvents (List.replicate n .pop) s = .next t ∧ t.count = 0 ∧ ∀ c, t.chan c = s.chan c := by
  induction n generalizing s with
  | zero => exact ⟨s, rfl, Nat.le_zero.mp hcount, fun _ => rfl⟩
  | succ n ih =>
    rw [List.replicate_succ]
    by_cases hzero : s.count = 0
    · have hpop : serve (requestOf .pop) s = .next (s.emit .none) :=
        (serve_pop s).trans (execPop_next.mpr (.inl ⟨hzero, rfl⟩))
      obtain ⟨t, hrun, hempty, hchan⟩ := ih (queueOk_emit h .none) (by simp [hzero])
      exact ⟨t, (runEvents_cons_of_next hpop _).trans hrun, hempty, fun c => (hchan c).trans (emit_chan s c .none)⟩
    · obtain ⟨e, hexec, -⟩ := exists_pop h hzero
      obtain ⟨t, hrun, hempty, hchan⟩ := ih (queueOk_emit (queueOk_release h hzero) (.entry e)) (by simp; omega)
      exact ⟨t, (runEvents_cons_of_next ((serve_pop s).trans hexec) _).trans hrun, hempty, fun c => by simp [hchan c]⟩

/-- Settles O50: each TICK idles its channel, and `QCAP` bounds what the DRAIN has to take (R212). -/
theorem ticksAndDrainReachQuiescence : Obligations.TicksAndDrainReachQuiescence := by
  unfold Obligations.TicksAndDrainReachQuiescence
  intro s tm tn hinv hm hnd
  obtain ⟨s1, hserveM, h1, hcfg1, hm1, hother1⟩ := exists_flush (c := .m) (inv_iff.mp hinv) hm
  have hnd1 : s1.chan .nd = s.nd := hother1 .nd (by decide)
  obtain ⟨s2, hserveNd, h2, hcfg2, hnd2, hother2⟩ := exists_flush (s := s1) (c := .nd) h1 (by rwa [hnd1, hcfg1])
  have hm2 : s2.chan .m = s1.chan .m := hother2 .m (by decide)
  have hle : s2.count ≤ s.cfg.qcap := hcfg1 ▸ hcfg2 ▸ h2.queue.fine.count_le
  obtain ⟨t, hrun, hempty, hchan⟩ := exists_drain (s.cfg.qcap + 1) h2.queue (Nat.le_succ_of_le hle)
  refine ⟨t, ?run, ?m, ?nd, hempty⟩
  case run => exact (runEvents_cons_of_next hserveM _).trans ((runEvents_cons_of_next hserveNd _).trans hrun)
  case m => rw [← chan_m, hchan .m, hm2, hm1]
  case nd => rw [← chan_nd, hchan .nd, hnd2]

end Sys2Proof.Machine
end

section
/-!
PROOFS. The queue's registers, the Capture Record and the ports (41_encoder_queue.md R200 to R210, 30_encoding.md R105, R107, R120).
-/

namespace Sys2Proof.Machine

/-! ### The queue's registers -/

/-- Settles O25: a full queue makes a PUSH a drop, and an empty one a POP a result alone. -/
theorem fullQueueDropsEmptyQueueReturnsNone : Obligations.FullQueueDropsEmptyQueueReturnsNone := by
  unfold Obligations.FullQueueDropsEmptyQueueReturnsNone
  intro s e
  exact ⟨selects_push s e, selects_pop s, fun hfull => exec_push_next.mpr (push_of_full s e hfull.ge).symm,
    fun hempty => execPop_next.mpr (.inl ⟨hempty, rfl⟩)⟩

/-- Settles O27: the registers that a store and a release write; an erased slot of a canonical array is not listed. -/
theorem reservationsFollowTheQueue : Obligations.ReservationsFollowTheQueue := by
  unfold Obligations.ReservationsFollowTheQueue
  refine ⟨fun s e hroom => ⟨s.store e, exec_push_next.mpr (push_of_lt s e hroom).symm, rfl, rfl⟩,
    fun s e hpos he hwf => ⟨s.release.emit (.entry e), ?_, rfl, rfl, Memory.read_erase_same _ _ hwf⟩⟩
  exact execPop_next.mpr (.inr ⟨Nat.ne_of_gt hpos, e, he, rfl⟩)

theorem selects_rdlen (s : State) : s.selects .rdlen 0xA000 0xE000 .rdlen :=
  selects_of_codeOf (i := .rdlen) rfl rfl (by simp [overlaps, Instr.row])

/-- Settles O29: the bound is the invariant's (R212). -/
theorem readLength : Obligations.ReadLength := by
  unfold Obligations.ReadLength
  intro s
  have hexec : exec .rdlen s = .next (s.emit (.length s.count)) := exec_rdlen_next.mpr rfl
  exact ⟨selects_rdlen s, hexec, fun hinv => ⟨s.count, (inv_iff.mp hinv).queue.fine.count_le, hexec⟩⟩

/-! ### The Capture Record -/

/-- The two pseudo addresses differ (R9). -/
theorem addrLoop_ne_addrPeer (cfg : Config) : cfg.addrLoop ≠ cfg.addrPeer := by
  have hlegal := cfg.legal
  simp only [Config.inRange, Bool.and_eq_true, decide_eq_true_eq] at hlegal
  obtain ⟨-, hne⟩ := hlegal
  exact hne

theorem srcAddress_ne_dstAddress (cfg : Config) (c : Role) : srcAddress cfg c ≠ dstAddress cfg c := by
  cases c with
  | m => exact addrLoop_ne_addrPeer cfg
  | nd => exact (addrLoop_ne_addrPeer cfg).symm

/-- Settles O32: the encoder copies the Frame's fields, and the record divides its start time by a million. -/
theorem captureRecordOfAFrame : Obligations.CaptureRecordOfAFrame := by
  unfold Obligations.CaptureRecordOfAFrame
  intro cfg f
  refine ⟨rfl, rfl, rfl, rfl, rfl, rfl, rfl, ?usec, Nat.div_add_mod' _ _, ?src, ?dst, srcAddress_ne_dstAddress cfg f.role⟩
  case usec => exact Nat.le_of_lt_succ (Nat.mod_lt _ (by decide))
  case src =>
    show srcAddress cfg f.role = _
    cases f.role <;> rfl
  case dst =>
    show dstAddress cfg f.role = _
    cases f.role <;> rfl

/-! ### The ports -/

/-- A strobe presents its own event exactly when it is asserted (R120). -/
theorem mem_strobe {asserted : Bool} {ev : Event} {r : Request} :
    r ∈ strobe asserted ev ↔ asserted = true ∧ r = requestOf ev := by
  cases asserted <;> simp [strobe]

/-- What a step's strobes present. -/
theorem mem_portRequests {p : InputPorts} {r : Request} :
    r ∈ portRequests p ↔
      (p.rst = true ∧ r = requestOf .reset) ∨ (p.mValid = true ∧ r = requestOf (.byte .m p.mByte p.mTs)) ∨
        (p.nValid = true ∧ r = requestOf (.byte .nd p.nByte p.nTs)) ∨ (p.mTick = true ∧ r = requestOf (.tick .m p.now)) ∨
        (p.nTick = true ∧ r = requestOf (.tick .nd p.now)) ∨ (p.popReq = true ∧ r = requestOf .pop) := by
  simp only [portRequests, List.mem_append, mem_strobe, or_assoc]

theorem requestOf_inj {ev ev' : Event} : requestOf ev = requestOf ev' ↔ ev = ev' :=
  ⟨fun h => congrArg Request.event h, congrArg requestOf⟩

/-- What the ports present is presented by its own agent, and is no RDDROP, RDLEN or PUSH. -/
theorem request_of_mem_portRequests {p : InputPorts} {r : Request} (cfg : Config) (h : r ∈ portRequests p) :
    r.wellFormed cfg = true ∧ r = requestOf r.event ∧ r.event ≠ .rddrop ∧ r.event ≠ .rdlen ∧ ∀ e, r.event ≠ .push e := by
  rcases mem_portRequests.mp h with ⟨-, rfl⟩ | ⟨-, rfl⟩ | ⟨-, rfl⟩ | ⟨-, rfl⟩ | ⟨-, rfl⟩ | ⟨-, rfl⟩ <;>
  simp [requestOf, Request.wellFormed, issuerOf, Agent.mayIssue, Event.wellFormed]

/-- With every strobe asserted: the events of one step, each once. -/
def allRequests (p : InputPorts) : List Request :=
  [.reset, .byte .m p.mByte p.mTs, .byte .nd p.nByte p.nTs, .tick .m p.now, .tick .nd p.now, .pop].map requestOf

theorem strobe_sublist (asserted : Bool) (ev : Event) : (strobe asserted ev).Sublist [requestOf ev] := by
  cases asserted with
  | false => exact List.nil_sublist _
  | true => exact List.Sublist.refl _

theorem portRequests_sublist (p : InputPorts) : (portRequests p).Sublist (allRequests p) :=
  (((((strobe_sublist _ _).append (strobe_sublist _ _)).append (strobe_sublist _ _)).append (strobe_sublist _ _)).append
    (strobe_sublist _ _)).append (strobe_sublist _ _)

theorem nodup_allRequests (p : InputPorts) : (allRequests p).Nodup :=
  List.Nodup.map (fun _ _ => requestOf_inj.mp) (by simp)

/-- Settles O51: the six strobes present six different events, and the reads return what the outputs show. -/
theorem portsPresentTheirOwnAgents : Obligations.PortsPresentTheirOwnAgents := by
  unfold Obligations.PortsPresentTheirOwnAgents
  refine ⟨fun cfg p => ?inputs, fun s => ?outputs⟩
  case inputs =>
    have hsub : (portRequests p).Sublist (allRequests p) := portRequests_sublist p
    refine ⟨?_, ?_, ?_, ?_, ?_, ?_, fun r => request_of_mem_portRequests cfg, hsub.nodup (nodup_allRequests p), hsub.length_le⟩ <;>
    simp [mem_portRequests, requestOf_inj]
  case outputs =>
    refine ⟨exec_rddrop_next.mpr rfl, exec_rdlen_next.mpr rfl, fun hempty => ⟨.none, ?_, rfl⟩, fun e hpos he => ?_⟩
    · exact execPop_next.mpr (.inl ⟨hempty, rfl⟩)
    · exact ⟨_, .entry e, execPop_next.mpr (.inr ⟨Nat.ne_of_gt hpos, e, he, rfl⟩), rfl, rfl⟩

end Sys2Proof.Machine
end

section
/-!
PROOFS. The slot word of an entry (30_encoding.md R106): each field is read back at its bit position, whatever stands above it and
whatever fills the unspecified bytes.
-/

namespace Sys2Proof.Machine

/-! ### Packed bytes -/

theorem packBytes_lt (k : Nat) (f : Nat → Byte) : packBytes k f < 256 ^ k := by
  induction k with
  | zero => exact Nat.one_pos
  | succ k ih =>
    have hbyte : (f k).toNat + 1 ≤ 256 := (f k).isLt
    calc packBytes k f + (f k).toNat * 256 ^ k
      _ < 256 ^ k + (f k).toNat * 256 ^ k := Nat.add_lt_add_right ih _
      _ = ((f k).toNat + 1) * 256 ^ k := by ring
      _ ≤ 256 * 256 ^ k := Nat.mul_le_mul_right _ hbyte
      _ = 256 ^ (k + 1) := by ring

/-- A field above `m` is what the division by `m` leaves. -/
theorem add_mul_div_of_lt {x m : Nat} (y : Nat) (h : x < m) : (x + m * y) / m = y := by
  rw [Nat.add_mul_div_left _ _ (Nat.zero_lt_of_lt h), Nat.div_eq_of_lt h, Nat.zero_add]

/-- Each packed byte stands at its own eight bits, whatever stands above the packed bytes. -/
theorem packBytes_div_pow {k i : Nat} (f : Nat → Byte) (above : Nat) (hi : i < k) :
    (packBytes k f + 256 ^ k * above) / 256 ^ i % 256 = (f i).toNat := by
  induction k generalizing above with
  | zero => exact absurd hi (Nat.not_lt_zero i)
  | succ k ih =>
    have hsplit : packBytes (k + 1) f + 256 ^ (k + 1) * above = packBytes k f + 256 ^ k * ((f k).toNat + 256 * above) := by
      rw [packBytes]
      ring
    rw [hsplit]
    rcases Nat.lt_succ_iff_lt_or_eq.mp hi with hlt | rfl
    · exact ih _ hlt
    · rw [add_mul_div_of_lt _ (packBytes_lt _ f), Nat.add_mul_mod_self_left]
      exact Nat.mod_eq_of_lt (f _).isLt

/-! ### Codes -/

/-- The low bits of a number are the word, whatever stands above them. -/
theorem ofNat_toNat_add {w : Nat} (x : BitVec w) (above : Nat) : BitVec.ofNat w (x.toNat + 2 ^ w * above) = x := by
  refine BitVec.eq_of_toNat_eq ?_
  rw [BitVec.toNat_ofNat, Nat.add_mul_mod_self_left, Nat.mod_eq_of_lt x.isLt]

theorem reason_ofCode_code (r : Reason) : Reason.ofCode r.code = r := by cases r <;> rfl

theorem role_ofCode_code (c : Role) : Role.ofCode c.code = c := by cases c <;> rfl

/-! ### The slot word -/

section SlotWord

variable (cfg : Config) (dead : Nat → Byte) (e : Entry)

/-- The data bytes of a slot word, the unspecified ones among them. -/
def slotBytes (i : Nat) : Byte := if i < e.len then e.data.getD i 0 else dead i

/-- The fields above `ts`. -/
def slotTop : Nat := e.reason.code.toNat + 2 ^ 2 * e.role.code.toNat

/-- The fields above `len`. -/
def slotUpper : Nat := e.ts.toNat + 2 ^ 64 * slotTop e

/-- The fields above the data bytes. -/
def slotRest : Nat := e.len + 2 ^ cfg.lenWidth * slotUpper e

/-- The slot word, field by field from the least significant. -/
theorem slotWord_eq : e.slotWord cfg dead = packBytes cfg.n (slotBytes dead e) + 2 ^ (8 * cfg.n) * slotRest cfg e := by
  have hbytes : (fun i => if i < e.len then e.data.getD i 0 else dead i) = slotBytes dead e := rfl
  rw [Entry.slotWord, hbytes, slotRest, slotUpper, slotTop]
  simp only [pow_add]
  ring

/-- `len` fits its field (R34, R106). -/
theorem len_lt_of_le {e : Entry} (h : e.len ≤ cfg.n) : e.len < 2 ^ cfg.lenWidth := Nat.lt_of_le_of_lt h Nat.lt_log2_self

theorem packBytes_lt_two_pow (k : Nat) (f : Nat → Byte) : packBytes k f < 2 ^ (8 * k) := by
  rw [pow_mul]
  exact packBytes_lt k f

theorem slotWord_div_data : e.slotWord cfg dead / 2 ^ (8 * cfg.n) = slotRest cfg e := by
  rw [slotWord_eq]
  exact add_mul_div_of_lt _ (packBytes_lt_two_pow _ _)

variable {e} (h : e.len ≤ cfg.n)

include h

theorem slotWord_len : e.slotWord cfg dead / 2 ^ (8 * cfg.n) % 2 ^ cfg.lenWidth = e.len := by
  rw [slotWord_div_data, slotRest, Nat.add_mul_mod_self_left, Nat.mod_eq_of_lt (len_lt_of_le cfg h)]

theorem slotWord_div_len : e.slotWord cfg dead / 2 ^ (8 * cfg.n + cfg.lenWidth) = slotUpper e := by
  rw [pow_add, ← Nat.div_div_eq_div_mul, slotWord_div_data]
  exact add_mul_div_of_lt _ (len_lt_of_le cfg h)

theorem slotWord_div_ts : e.slotWord cfg dead / 2 ^ (8 * cfg.n + cfg.lenWidth + 64) = slotTop e := by
  rw [pow_add, ← Nat.div_div_eq_div_mul, slotWord_div_len cfg dead h]
  exact add_mul_div_of_lt _ e.ts.isLt

theorem slotWord_div_reason : e.slotWord cfg dead / 2 ^ (8 * cfg.n + cfg.lenWidth + 66) = e.role.code.toNat := by
  rw [show 8 * cfg.n + cfg.lenWidth + 66 = 8 * cfg.n + cfg.lenWidth + 64 + 2 from rfl, pow_add _ _ 2,
    ← Nat.div_div_eq_div_mul, slotWord_div_ts cfg dead h]
  exact add_mul_div_of_lt _ e.reason.code.isLt

theorem slotWord_byte {i : Nat} (hi : i < e.len) : BitVec.ofNat 8 (e.slotWord cfg dead / 256 ^ i) = e.data[i] := by
  have hbyte : slotBytes dead e i = e.data[i] := by
    rw [slotBytes, if_pos hi]
    exact List.getD_eq_getElem _ _ hi
  refine BitVec.eq_of_toNat_eq ?_
  rw [BitVec.toNat_ofNat, slotWord_eq, pow_mul, ← hbyte]
  exact packBytes_div_pow _ _ (Nat.lt_of_lt_of_le hi h)

end SlotWord

/-- Settles O6: each field is what its bit position leaves of the word. -/
theorem slotWordRoundTrip : Obligations.SlotWordRoundTrip := by
  unfold Obligations.SlotWordRoundTrip
  intro cfg dead e h
  have hrole : BitVec.ofNat 1 e.role.code.toNat = e.role.code :=
    (BitVec.ofNat_toNat ..).trans (BitVec.setWidth_eq _)
  have hdata : (List.range e.len).map (fun i => BitVec.ofNat 8 (e.slotWord cfg dead / 256 ^ i)) = e.data := by
    refine List.ext_getElem (by simp [Entry.len]) fun i hi _ => ?_
    rw [List.getElem_map, List.getElem_range]
    exact slotWord_byte cfg dead h (by simpa using hi)
  rw [Entry.ofSlotWord, slotWord_div_reason cfg dead h, slotWord_div_ts cfg dead h, slotWord_div_len cfg dead h,
    slotWord_len cfg dead h, hdata, hrole, slotTop, ofNat_toNat_add, slotUpper, ofNat_toNat_add, role_ofCode_code,
    reason_ofCode_code]

end Sys2Proof.Machine
end
